-- ==== Sys2Proof/Word.lean ====
section
/-! DEFINITION. The machine's word types (00_scope.md R9, 20_memory.md R81). -/

namespace Sys2Proof

/-- A host bus word: every host access is 32 bits wide (20_memory.md R81). -/
abbrev Word := BitVec 32

/-- A protocol byte, and one cell of a buffer (10_state.md R42). -/
abbrev Byte := BitVec 8

/-- `bus_addr`: a byte offset from `FCAD_BASE` (10_state.md R32: 14 bits). -/
abbrev Offset := BitVec 14

end Sys2Proof
end

