-- ==== Sys2Proof/Config.lean ====
section
/-! DEFINITION. What an implementation fixes (00_scope.md R7) and the free values
(93_implementation_defined.md). A constant without a body is one that no proof can see. -/

namespace Sys2Proof

/-- `FCAD_BASE` (00_scope.md R7, 93_implementation_defined.md U12: OPEN). FCAD sees only offsets
from it. -/
opaque Config.fcadBase : Nat

/-- `TICK_PERIOD` (00_scope.md R7, 93_implementation_defined.md U11: OPEN), in a unit the spec
leaves open. No rule depends on it: time is counted in ticks (44_ack_detect.md R284). -/
opaque Config.tickPeriod : Nat

/-- `ACK_DEADLINE_DEFAULT` (92_eei_decisions.md D36, 93_implementation_defined.md U14: OPEN): a
value a host may write to DEADLINE. It is no state of FCAD. -/
opaque Config.ackDeadlineDefault : BitVec 16

/-- FREE VALUE (log entry 8): the byte the `n`-th host read of an unwritten IBUF cell returns
(93_implementation_defined.md U1: "bits [7:0] any byte"). -/
opaque Config.freeByte : Nat → Byte

/-- The default of the parameter `DIAG_CAP` (00_scope.md R7). -/
def Config.diagCapDefault : Nat := 256

/-- The least value of `DIAG_CAP` (00_scope.md R7: "integer 16..1024"). -/
def Config.diagCapMin : Nat := 16

/-- The greatest value of `DIAG_CAP` (00_scope.md R7: "integer 16..1024"). -/
def Config.diagCapMax : Nat := 1024

/-- Capacity of IBUF and of FRAME (00_scope.md R7, 10_state.md R42). -/
def Config.bufCap : Nat := 258

/-- The longest data frame payload (00_scope.md R8). -/
def Config.payloadMax : Nat := 256

/-- Host address of the register at offset `off` (20_memory.md R80, R93). -/
def Config.hostAddress (off : Offset) : Nat := Config.fcadBase + off.toNat

end Sys2Proof
end

