-- ==== Sys2Proof/Syntax.lean ====
section
/-! DEFINITION. The operations of the opcode table (30_encoding.md R121), the host's bus accesses
(10_state.md R46 (a)), and the host assembly notation (30_encoding.md R127, R128). -/

namespace Sys2Proof

/-- The twelve operations (30_encoding.md R121), one constructor per row of opcode_table.json.
A command word has no operand field: operands are registers (30_encoding.md R118). -/
inductive Instr where
  | nop
  | cksum
  | buildCmd
  | buildAddr
  | buildData
  | buildSync
  | send
  | ackWait
  | ackWaitFirst
  | validateCmd
  | validateAddr
  | validateData
  deriving DecidableEq, Repr

/-- The fourteen registers at 0x000..0x034 (10_state.md R40). -/
inductive Reg where
  | cmd
  | status
  | arg
  | len
  | deadline
  | csum
  | frameLen
  | txCount
  | diagLen
  | pdiagLen
  | diagDrop
  | elapsed
  | vaddr
  | config
  deriving DecidableEq, Repr

/-- The buffers `rdb` can read (30_encoding.md R127). -/
inductive ReadBuf where
  | frame
  | diag
  | pdiag
  deriving DecidableEq, Repr

/-- What the Host agent does in its steps: a bus read, a bus write (10_state.md R46 (a)), or the
`poll` loop, whose every step is one read of STATUS (30_encoding.md R127). -/
inductive HostOp where
  /-- `MemRead(off, 4)` (00_scope.md R11). -/
  | read (off : Offset)
  /-- `MemWrite(off, 4, w)` (00_scope.md R11). -/
  | write (off : Offset) (w : Word)
  /-- "repeat `rd STATUS` until bit 0 (BUSY) reads 0" (30_encoding.md R127). -/
  | poll
  deriving DecidableEq, Repr

/-- A statement of the host assembly notation: the statements of 30_encoding.md R127, then the
pseudo-instructions of R128. (`for` is a function over statements, `Machine.forLoop`, and the
schedule note `wait_rx` is `Machine.waitRx`.) -/
inductive Stmt where
  | wr (r : Reg) (v : Word)
  | wrb (i : Nat) (v : Byte)
  | rd (r : Reg)
  | rdb (b : ReadBuf) (i : Nat)
  | op (m : Instr)
  | poll
  | clr (m : Word)
  | cmdframe (c : Word)
  | eraseall
  | addrframe (a : Word)
  | dataframe (p : List Byte)
  | syncframe
  | sendf
  | waitack (d : Word)
  | waitfirst (d : Word)
  | xchg (c d : Word)
  | query (c d : Word)
  deriving DecidableEq, Repr

end Sys2Proof
end

