-- ==== Sys2Proof/WellFormed.lean ====
section
/-! DEFINITION. What a term of the syntax must satisfy to have an encoding. -/

namespace Sys2Proof

/-- Every operation is well formed: a command word has no operand field that could be out of range
(30_encoding.md R120: "No command has a second word, a prefix or a mode bit that changes decoding"). -/
def Instr.wellFormed : Instr → Bool
  | .nop => true
  | .cksum => true
  | .buildCmd => true
  | .buildAddr => true
  | .buildData => true
  | .buildSync => true
  | .send => true
  | .ackWait => true
  | .ackWaitFirst => true
  | .validateCmd => true
  | .validateAddr => true
  | .validateData => true

/-- How many cells a readable buffer's window has (20_memory.md R84). -/
def ReadBuf.cells : ReadBuf → Nat
  | .frame => Config.bufCap
  | .diag => Config.diagCapMax
  | .pdiag => Config.diagCapMax

/-- A statement names only cells its buffer's window has (20_memory.md R84), and DATAFRAME gives
1 to 256 payload bytes (42_frame_build.md R218). -/
def Stmt.wellFormed : Stmt → Bool
  | .wr _ _ => true
  | .wrb i _ => i < Config.bufCap
  | .rd _ => true
  | .rdb b i => i < b.cells
  | .op m => m.wellFormed
  | .poll => true
  | .clr _ => true
  | .cmdframe _ => true
  | .eraseall => true
  | .addrframe _ => true
  | .dataframe p => 1 ≤ p.length && p.length ≤ Config.payloadMax
  | .syncframe => true
  | .sendf => true
  | .waitack _ => true
  | .waitfirst _ => true
  | .xchg _ _ => true
  | .query _ _ => true

end Sys2Proof
end

