-- ==== Sys2Proof/Decode.lean ====
section
/-! DEFINITION. The command word (30_encoding.md R120 to R124): a decoder, total on every 32-bit
word, and an encoder, both written from the opcode map of R121. -/

namespace Sys2Proof

/-- Why a command word is illegal (30_encoding.md R122). -/
inductive DecodeError where
  /-- `w[31:8] ≠ 0`. -/
  | reservedBits
  /-- `w[7:0]` is not an assigned OP. -/
  | unassignedOp
  deriving DecidableEq, Repr

/-- OP, bits [7:0] of a command word (30_encoding.md R120). -/
def opField (w : Word) : Byte := w.extractLsb' 0 8

/-- RSVD, bits [31:8] of a command word (30_encoding.md R120). -/
def rsvdField (w : Word) : BitVec 24 := w.extractLsb' 8 24

/-- The opcode map (30_encoding.md R121). -/
def decodeOp (op : Byte) : Option Instr :=
  match op.toNat with
  | 0x00 => some .nop
  | 0x01 => some .cksum
  | 0x02 => some .buildCmd
  | 0x03 => some .buildAddr
  | 0x04 => some .buildData
  | 0x05 => some .buildSync
  | 0x08 => some .send
  | 0x10 => some .ackWait
  | 0x11 => some .ackWaitFirst
  | 0x20 => some .validateCmd
  | 0x21 => some .validateAddr
  | 0x22 => some .validateData
  | _ => none

/-- A command word's operation, or why it is illegal (30_encoding.md R120 to R122). -/
def decode (w : Word) : Except DecodeError Instr :=
  if rsvdField w ≠ 0 then .error .reservedBits
  else match decodeOp (opField w) with
    | some i => .ok i
    | none => .error .unassignedOp

/-- The OP value of an operation (30_encoding.md R121). -/
def opcode : Instr → Byte
  | .nop => 0x00
  | .cksum => 0x01
  | .buildCmd => 0x02
  | .buildAddr => 0x03
  | .buildData => 0x04
  | .buildSync => 0x05
  | .send => 0x08
  | .ackWait => 0x10
  | .ackWaitFirst => 0x11
  | .validateCmd => 0x20
  | .validateAddr => 0x21
  | .validateData => 0x22

/-- The command word of an operation: RSVD = 0, then OP (30_encoding.md R120). -/
def encode (i : Instr) : Word := (0 : BitVec 24) ++ opcode i

/-- The operation the decoder reads from the command word whose bits are `w`, numbered as
opcode_table.json numbers them: CMD is one 32-bit bus word, bit 0 its least significant bit, so
no byte order enters (20_memory.md R82). Bits at and above `nbits` are 0. -/
def decodeTableWord (nbits w : Nat) : Option Instr :=
  match decode (BitVec.ofNat 32 (w % 2 ^ nbits)) with
  | .ok i => some i
  | .error _ => none

end Sys2Proof
end

