-- ==== Sys2Proof/Machine/State.lean ====
section
/-! DEFINITION. The state of FCAD (10_state.md R49), of its ports and environment (R32, R36), and
of the agents that act on it (R30), as plain data; the reasons a step can stop; the reset state. -/

namespace Sys2Proof.Machine

/-- STATUS.ACKRES (10_state.md R41): the source's AckResult, and NONE. -/
inductive AckRes where
  | none
  | acked
  | nacked
  | timedOut
  deriving DecidableEq, Repr

/-- STATUS.VERR (10_state.md R41). The values 4..15 are never produced
(93_implementation_defined.md U27 allows a four-valued type). -/
inductive Verr where
  | ok
  | length
  | count
  | checksum
  deriving DecidableEq, Repr

/-- The one-step operations: the `op` of phase `Exec(op)` (10_state.md R45). -/
inductive ExecOp where
  | nop
  | cksum
  | buildCmd
  | buildAddr
  | buildData
  | buildSync
  | validateCmd
  | validateAddr
  | validateData
  deriving DecidableEq, Repr

/-- The mode of a wait (10_state.md R45): Normal for ACK_WAIT, First for ACK_WAIT_FIRST. -/
inductive WaitMode where
  | normal
  | first
  deriving DecidableEq, Repr

/-- The sequencer phase, the block's only control state (10_state.md R45). -/
inductive Phase where
  | idle
  | exec (op : ExecOp)
  | send (i : Nat)
  | wait (m : WaitMode)
  deriving DecidableEq, Repr

/-- A step of the Transport agent (10_state.md R46 (c)). -/
inductive TransportStep where
  /-- One byte is appended to `rxq`. -/
  | deliver (b : Byte)
  /-- `tx_ready` changes to this level. -/
  | setTxReady (level : Bool)
  /-- `xport_err` changes to this level. -/
  | setXportErr (level : Bool)
  deriving DecidableEq, Repr

/-- Which agent takes a step (10_state.md R30, R46). -/
inductive AgentStep where
  /-- The Host takes the next step of its own program. -/
  | host
  /-- The Sequencer takes its step, if one is enabled. -/
  | sequencer
  | transport (t : TransportStep)
  /-- One `tick_ms` pulse. -/
  | time
  /-- The Reset agent drives `rst` to this level. -/
  | reset (level : Bool)
  deriving DecidableEq, Repr

/-- IBUF's cells by index, sparse: strictly rising indices below 258, and a cell not listed is
"never written since reset" (10_state.md R44). -/
abbrev Memory := List Host.Cell

/-- The whole state. FCAD's own fields are those of 10_state.md R49, in its order. -/
structure State where
  /-- ARG (10_state.md R40). -/
  arg : Word
  /-- LEN (10_state.md R40). -/
  len : BitVec 9
  /-- DEADLINE (10_state.md R40). -/
  deadline : BitVec 16
  /-- CSUM (10_state.md R40). -/
  csum : Byte
  /-- FRAME; its length is FRAME_LEN (10_state.md R43). -/
  frame : List Byte
  /-- TX_COUNT (10_state.md R40). -/
  txCount : Nat
  /-- DIAG; its length is DIAG_LEN (10_state.md R43). -/
  diag : List Byte
  /-- PDIAG; its length is PDIAG_LEN (10_state.md R43). -/
  pdiag : List Byte
  /-- DIAG_DROP (10_state.md R40). -/
  diagDrop : BitVec 16
  /-- ELAPSED (10_state.md R40). -/
  elapsed : Nat
  /-- VADDR (10_state.md R40). -/
  vaddr : Word
  /-- IBUF (10_state.md R44). -/
  ibuf : Memory
  /-- STATUS.ACKRES (10_state.md R41). -/
  ackres : AckRes
  /-- STATUS.VALID (10_state.md R41). -/
  valid : Bool
  /-- STATUS.VERR (10_state.md R41). -/
  verr : Verr
  /-- STATUS.DONE (10_state.md R41). -/
  done : Bool
  /-- STATUS.BUSYERR (10_state.md R41). -/
  busyerr : Bool
  /-- STATUS.ILLOP (10_state.md R41). -/
  illop : Bool
  /-- STATUS.LENERR (10_state.md R41). -/
  lenerr : Bool
  /-- STATUS.XERR (10_state.md R41). -/
  xerr : Bool
  /-- STATUS.DOVF (10_state.md R41). -/
  dovf : Bool
  /-- The sequencer phase (10_state.md R45). -/
  phase : Phase
  /-- CONFIG: the parameter DIAG_CAP (10_state.md R40, 00_scope.md R7). No step changes it. -/
  diagCap : Nat
  /-- The level of the `rst` input (10_state.md R32). -/
  rst : Bool
  /-- The bytes the transport holds for FCAD, oldest first (10_state.md R36). -/
  rxq : List Byte
  /-- The level of `tx_ready` (10_state.md R33). -/
  txReady : Bool
  /-- The bytes FCAD has handed over, oldest first (10_state.md R36). -/
  txlog : List Byte
  /-- The level of `xport_err` (10_state.md R36). -/
  xerrIn : Bool
  /-- `bus_rdata`: what the last host read returned (40_host_access.md R150). -/
  busRdata : Word
  /-- The model's own: the accesses the Host still has to make, in its order (10_state.md R31). -/
  program : List HostOp
  /-- The model's own: the agents' steps still to come, in their order (10_state.md R30). -/
  schedule : List AgentStep
  /-- The model's own: how many unspecified cells the host has read (log entry 8). -/
  freeReads : Nat
  deriving DecidableEq, Repr

/-- Why the machine stops. -/
inductive Fault where
  /-- An operation read an IBUF cell that no host write has written since reset
  (93_implementation_defined.md U1: "operations: fault"). Raised by CKSUM, BUILD_DATA and the
  VALIDATE operations in their Exec step. Safe: where the hardware would go on with some byte, the
  model stops. -/
  | ibufUnwritten
  deriving DecidableEq, Repr

/-- Why an instruction has no meaning. -/
inductive Refusal where
  /-- The instruction is not modelled. Raised only by an arm of `exec`; no arm raises it now. Safe. -/
  | notModelled (mnemonic : String)
  deriving DecidableEq, Repr

/-- What a step or a meaning answers. -/
abbrev Result := Host.Outcome State Fault Refusal

/-- The state right after reset: FCAD's fields as 70_reset_and_hazards.md R370 gives them, the
environment as in the reset state of 95_test_vectors.md (log entry 10), nothing placed in the
host's program or in the schedule (log entry 3). -/
def State.reset : State where
  arg := 0
  len := 0
  deadline := 0
  csum := 0
  frame := []
  txCount := 0
  diag := []
  pdiag := []
  diagDrop := 0
  elapsed := 0
  vaddr := 0
  ibuf := []
  ackres := .none
  valid := false
  verr := .ok
  done := false
  busyerr := false
  illop := false
  lenerr := false
  xerr := false
  dovf := false
  phase := .idle
  diagCap := Config.diagCapDefault
  rst := false
  rxq := []
  txReady := true
  txlog := []
  xerrIn := false
  busRdata := 0
  program := []
  schedule := []
  freeReads := 0

end Sys2Proof.Machine
end

