-- ==== Sys2Proof/Machine/Ops.lean ====
section
/-! DEFINITION. The shared operations over buffers and registers: IBUF cells, acceptance and
completion (40_host_access.md R158 to R161), frames, verdicts, waits and transport failure. FCAD
has no traps (60_exceptions.md R336): where another machine takes an exception, FCAD sets a STATUS
bit by one of these. -/

namespace Sys2Proof.Machine

/-! ## IBUF -/

/-- IBUF cell `a`, or "never written since reset" (10_state.md R44). -/
def Memory.read : Memory → Nat → Option Byte
  | [], _ => none
  | (k, x) :: m, a => if k = a then some x else Memory.read m a

/-- Store byte `b` in IBUF cell `a` (40_host_access.md R155). -/
def Memory.write : Memory → Nat → Byte → Memory
  | [], a, b => [(a, b)]
  | (k, x) :: m, a, b =>
    if a < k then (a, b) :: (k, x) :: m
    else if a = k then (a, b) :: m
    else (k, x) :: Memory.write m a b

/-- Indices at least `lo`, strictly rising and below 258. -/
def Memory.wfFrom : Nat → Memory → Bool
  | _, [] => true
  | lo, (k, _) :: m => decide (lo ≤ k) && decide (k < Config.bufCap) && Memory.wfFrom (k + 1) m

/-- The canonical form of IBUF. -/
def Memory.wf (m : Memory) : Bool := Memory.wfFrom 0 m

/-- The bytes of IBUF cells `a`, …, `a + n - 1`, if every one has been written. -/
def Memory.readRange (m : Memory) : Nat → Nat → Option (List Byte)
  | _, 0 => some []
  | a, n + 1 =>
    match Memory.read m a, Memory.readRange m (a + 1) n with
    | some b, some bs => some (b :: bs)
    | _, _ => none

/-- Continue with the bytes of `n` IBUF cells from `a` on; an unwritten one is the fault of
93_implementation_defined.md U1. -/
def withInput (s : State) (a n : Nat) (k : List Byte → Result) : Result :=
  match s.ibuf.readRange a n with
  | some bs => k bs
  | none => .fault .ibufUnwritten

/-! ## Acceptance and completion -/

/-- `complete(s)` (40_host_access.md R161). -/
def complete (s : State) : State := { s with phase := .idle, done := true }

/-- A write blocked while BUSY (40_host_access.md R158). -/
def blockedWrite (s : State) : State := { s with busyerr := true }

/-- An illegal command word accepted for decoding (30_encoding.md R124, 40_host_access.md R160). -/
def refuseIllegal (s : State) : State := { s with illop := true, done := true }

/-- A command whose LEN is out of range (40_host_access.md R160). -/
def refuseLength (s : State) : State := { s with lenerr := true, done := true }

/-- Acceptance of a one-step operation: DONE is cleared and the phase is `Exec(op)`
(40_host_access.md R160). -/
def acceptExec (op : ExecOp) (s : State) : State := { s with done := false, phase := .exec op }

/-- Acceptance of an operation on `IBUF[0..LEN]` with LEN up to 258: CKSUM and the VALIDATE
operations (40_host_access.md R160). -/
def acceptInput (op : ExecOp) (s : State) : State :=
  if s.len.toNat > Config.bufCap then refuseLength s else acceptExec op s

/-- Acceptance of BUILD_DATA: LEN is 1..256 (40_host_access.md R160, 42_frame_build.md R222). -/
def acceptPayload (op : ExecOp) (s : State) : State :=
  if s.len.toNat = 0 ∨ s.len.toNat > Config.payloadMax then refuseLength s else acceptExec op s

/-- `accept_send(s)` (42_frame_build.md R228), with DONE cleared (40_host_access.md R160). -/
def acceptSend (s : State) : State := { s with done := false, txCount := 0, phase := .send 0 }

/-- `accept_wait(s, m)` (44_ack_detect.md R282), with DONE cleared (40_host_access.md R160). -/
def acceptWait (m : WaitMode) (s : State) : State :=
  { s with
    done := false, pdiag := s.diag, diag := [], diagDrop := 0, dovf := false, elapsed := 0,
    ackres := .none, phase := .wait m }

/-! ## Operand writes (40_host_access.md R155) -/

/-- ARG becomes `w`. -/
def setArg (w : Word) (s : State) : State := { s with arg := w }

/-- LEN becomes `w[8:0]`. -/
def setLen (w : Word) (s : State) : State := { s with len := w.extractLsb' 0 9 }

/-- DEADLINE becomes `w[15:0]`. -/
def setDeadline (w : Word) (s : State) : State := { s with deadline := w.extractLsb' 0 16 }

/-- IBUF cell `i` becomes `w[7:0]`. -/
def setCell (i : Nat) (w : Word) (s : State) : State :=
  { s with ibuf := s.ibuf.write i (w.extractLsb' 0 8) }

/-! ## Results -/

/-- A BUILD replaces FRAME and clears TX_COUNT (42_frame_build.md R224). -/
def setFrame (f : List Byte) (s : State) : State := { s with frame := f, txCount := 0 }

/-- CSUM becomes `c` (41_checksum.md R196, 43_frame_validate.md R250). -/
def setCsum (c : Byte) (s : State) : State := { s with csum := c }

/-- VADDR becomes `a` (43_frame_validate.md R258). -/
def setVaddr (a : Word) (s : State) : State := { s with vaddr := a }

/-- `verdict(s, ok, code)` (43_frame_validate.md R252). -/
def verdict (ok : Bool) (code : Verr) (s : State) : State := { s with valid := ok, verr := code }

/-! ## Transport -/

/-- `emit(b)` of byte `i` in a SEND byte step (42_frame_build.md R230). -/
def emit (i : Nat) (b : Byte) (s : State) : State :=
  { s with txlog := s.txlog ++ [b], txCount := i + 1, phase := .send (i + 1) }

/-- `consume()`: the byte taken leaves `rxq`, whose rest is `rest` (44_ack_detect.md R286). -/
def consume (rest : List Byte) (s : State) : State := { s with rxq := rest }

/-- The saturating increment of DIAG_DROP: `min(diagDrop + 1, 0xFFFF)` (44_ack_detect.md R290). -/
def satInc (d : BitVec 16) : BitVec 16 := BitVec.ofNat 16 (min (d.toNat + 1) 0xFFFF)

/-- `append(s, b)` (44_ack_detect.md R290). -/
def append (b : Byte) (s : State) : State :=
  if s.diag.length < s.diagCap then { s with diag := s.diag ++ [b] }
  else { s with dovf := true, diagDrop := satInc s.diagDrop }

/-- `finish(s, r)` (44_ack_detect.md R292). -/
def finish (r : AckRes) (s : State) : State := complete { s with ackres := r }

/-- `xport_fail(s)` (60_exceptions.md R334). -/
def xportFail (s : State) : State :=
  match s.phase with
  | .wait _ => complete { s with xerr := true, ackres := .timedOut }
  | .idle => complete { s with xerr := true }
  | .exec _ => complete { s with xerr := true }
  | .send _ => complete { s with xerr := true }

/-! ## One-step operations -/

/-- A one-step operation `op` by phase: in Idle the command is accepted (40_host_access.md R160);
in `Exec(op)` its one sequencer step runs (R162); while another operation runs, a command is a
blocked write (R158). -/
def oneStep (op : ExecOp) (accept : State → State) (effect : State → Result) (s : State) : Result :=
  match s.phase with
  | .idle => .next (accept s)
  | .exec op' => if op' = op then effect s else .next (blockedWrite s)
  | .send _ => .next (blockedWrite s)
  | .wait _ => .next (blockedWrite s)

end Sys2Proof.Machine
end

