-- ==== Sys2Proof/Machine/Operands.lean ====
section
/-! DEFINITION. Operand assembly (30_encoding.md R118). No operand is sign-extended, scaled or
shifted. -/

namespace Sys2Proof.Machine

/-- BUILD_CMD's command byte, `ARG[7:0]` (30_encoding.md R118). -/
def cmdOperand (s : State) : Byte := s.arg.extractLsb' 0 8

/-- BUILD_ADDR's address, `ARG[31:0]` (30_encoding.md R118). -/
def addrOperand (s : State) : Word := s.arg

/-- The byte count, `LEN[8:0]` as an unsigned number (30_encoding.md R118). -/
def countOperand (s : State) : Nat := s.len.toNat

/-- The deadline, `zext_17(DEADLINE[15:0])` ticks (30_encoding.md R118). -/
def deadlineOperand (s : State) : Nat := s.deadline.toNat

end Sys2Proof.Machine
end

