-- ==== Sys2Proof/Machine/Codec.lean ====
section
/-! DEFINITION. The pure functions of the codec: the checksum (41_checksum.md R190) and the three
frames (42_frame_build.md R210, R214, R218). -/

namespace Sys2Proof.Machine

/-- The XOR of every byte, from 0x00 on (41_checksum.md R193). -/
def xorFold (bs : List Byte) : Byte := bs.foldl (· ^^^ ·) 0

/-- `checksum` (41_checksum.md R190), three cases in this order. -/
def checksum : List Byte → Byte
  | [] => 0x00
  | [x] => ~~~x
  | b0 :: b1 :: bs => xorFold (b0 :: b1 :: bs)

/-- `cmdframe` (42_frame_build.md R210). -/
def cmdframe (c : Byte) : List Byte := [c, ~~~c]

/-- The four bytes of a 32-bit value, most significant first (20_memory.md R83). -/
def bigEndian (a : Word) : List Byte :=
  [a.extractLsb' 24 8, a.extractLsb' 16 8, a.extractLsb' 8 8, a.extractLsb' 0 8]

/-- `addrframe` (42_frame_build.md R214). -/
def addrframe (a : Word) : List Byte := bigEndian a ++ [checksum (bigEndian a)]

/-- The count byte of a payload, `(|p| - 1)[7:0]` (30_encoding.md R118). -/
def countByte (p : List Byte) : Byte := BitVec.ofNat 8 (p.length - 1)

/-- `dataframe` (42_frame_build.md R218), which the spec defines for 1 to 256 payload bytes. -/
def dataframe (p : List Byte) : List Byte :=
  (countByte p :: p) ++ [checksum (countByte p :: p)]

/-- ACK (30_encoding.md R116). -/
def ackByte : Byte := 0x79

/-- NACK (30_encoding.md R116). -/
def nackByte : Byte := 0x1F

/-- The sync byte (30_encoding.md R116). -/
def syncByte : Byte := 0x7F

/-- The 32-bit value of four bytes, most significant first: `b0<<24 | b1<<16 | b2<<8 | b3`
(43_frame_validate.md R258). -/
def fromBigEndian (bs : List Byte) : Word := bs.foldl (fun v b => (v <<< 8) ||| b.setWidth 32) 0

end Sys2Proof.Machine
end

