-- ==== Sys2Proof/Machine/AckDetect.lean ====
section
/-! DEFINITION. The acknowledgment detector (44_ack_detect.md): the two waits and the tick. -/

namespace Sys2Proof.Machine

/-- `classify_Normal(s, b)` (44_ack_detect.md R288). -/
def classifyNormal (b : Byte) (s : State) : State :=
  if b = ackByte then finish .acked s
  else if b = nackByte then finish .nacked s
  else append b s

/-- `classify_First(s, b)` (44_ack_detect.md R298). -/
def classifyFirst (b : Byte) (s : State) : State :=
  if b = ackByte then finish .acked s else finish .nacked (append b s)

/-- The wait step (44_ack_detect.md R286): transport failure, then timeout, then a byte, else no
step. -/
def waitStep (classify : Byte → State → State) (s : State) : State :=
  if s.xerrIn then xportFail s
  else if s.elapsed > deadlineOperand s then finish .timedOut s
  else match s.rxq with
    | b :: rest => classify b (consume rest s)
    | [] => s

/-- ACK_WAIT (44_ack_detect.md R282 to R292): accepted in Idle, one step in `Wait(Normal)`, a
blocked command while another operation runs (40_host_access.md R158). -/
def execAckWait (s : State) : Result :=
  match s.phase with
  | .idle => .next (acceptWait .normal s)
  | .exec _ => .next (blockedWrite s)
  | .send _ => .next (blockedWrite s)
  | .wait .normal => .next (waitStep classifyNormal s)
  | .wait .first => .next (blockedWrite s)

/-- ACK_WAIT_FIRST (44_ack_detect.md R296, R298): as ACK_WAIT, in `Wait(First)`. -/
def execAckWaitFirst (s : State) : Result :=
  match s.phase with
  | .idle => .next (acceptWait .first s)
  | .exec _ => .next (blockedWrite s)
  | .send _ => .next (blockedWrite s)
  | .wait .normal => .next (blockedWrite s)
  | .wait .first => .next (waitStep classifyFirst s)

/-- A tick (44_ack_detect.md R284): it counts only in phase Wait and stops at DEADLINE + 1. -/
def tick (s : State) : State :=
  match s.phase with
  | .wait _ => if s.elapsed ≤ deadlineOperand s then { s with elapsed := s.elapsed + 1 } else s
  | .idle => s
  | .exec _ => s
  | .send _ => s

end Sys2Proof.Machine
end

