-- ==== Sys2Proof/Machine/Checksum.lean ====
section
/-! DEFINITION. The checksum operation, CKSUM (41_checksum.md). -/

namespace Sys2Proof.Machine

/-- The Exec step of CKSUM (41_checksum.md R196). -/
def cksumEffect (s : State) : Result :=
  withInput s 0 (countOperand s) fun bytes => .next (complete (setCsum (checksum bytes) s))

/-- CKSUM (41_checksum.md R196). -/
def execCksum (s : State) : Result := oneStep .cksum (acceptInput .cksum) cksumEffect s

end Sys2Proof.Machine
end

