-- ==== Sys2Proof/Machine/FrameBuild.lean ====
section
/-! DEFINITION. The frame builders, SEND and NOP (42_frame_build.md). -/

namespace Sys2Proof.Machine

/-- NOP (42_frame_build.md R236). -/
def execNop (s : State) : Result :=
  oneStep .nop (acceptExec .nop) (fun s => .next (complete s)) s

/-- The Exec step of BUILD_CMD (42_frame_build.md R212). -/
def buildCmdEffect (s : State) : Result :=
  .next (complete (setFrame (cmdframe (cmdOperand s)) s))

/-- BUILD_CMD (42_frame_build.md R212). -/
def execBuildCmd (s : State) : Result :=
  oneStep .buildCmd (acceptExec .buildCmd) buildCmdEffect s

/-- The Exec step of BUILD_ADDR (42_frame_build.md R216). -/
def buildAddrEffect (s : State) : Result :=
  .next (complete (setFrame (addrframe (addrOperand s)) s))

/-- BUILD_ADDR (42_frame_build.md R216). -/
def execBuildAddr (s : State) : Result :=
  oneStep .buildAddr (acceptExec .buildAddr) buildAddrEffect s

/-- The Exec step of BUILD_DATA (42_frame_build.md R220). -/
def buildDataEffect (s : State) : Result :=
  withInput s 0 (countOperand s) fun p => .next (complete (setFrame (dataframe p) s))

/-- BUILD_DATA (42_frame_build.md R220, R222). -/
def execBuildData (s : State) : Result :=
  oneStep .buildData (acceptPayload .buildData) buildDataEffect s

/-- The Exec step of BUILD_SYNC (42_frame_build.md R226). -/
def buildSyncEffect (s : State) : Result := .next (complete (setFrame [syncByte] s))

/-- BUILD_SYNC (42_frame_build.md R226). -/
def execBuildSync (s : State) : Result :=
  oneStep .buildSync (acceptExec .buildSync) buildSyncEffect s

/-- The sequencer step of SEND in phase `Send(i)`: with every byte gone it completes
(42_frame_build.md R232), else a failed transport ends it, else the byte goes out if the transport
is ready, else there is no step (R230). -/
def sendStep (i : Nat) (s : State) : State :=
  match s.frame[i]? with
  | none => complete s
  | some b => if s.xerrIn then xportFail s else if s.txReady then emit i b s else s

/-- SEND (42_frame_build.md R228 to R234): accepted in Idle, one step in `Send(i)`, a blocked
command while another operation runs (40_host_access.md R158). -/
def execSend (s : State) : Result :=
  match s.phase with
  | .idle => .next (acceptSend s)
  | .exec _ => .next (blockedWrite s)
  | .send i => .next (sendStep i s)
  | .wait _ => .next (blockedWrite s)

end Sys2Proof.Machine
end

