-- ==== Sys2Proof/Machine/FrameValidate.lean ====
section
/-! DEFINITION. The frame validators (43_frame_validate.md). Each reads its whole input `IBUF[0..LEN]`
at its Exec step (70_reset_and_hazards.md R377; log entry 7) and then makes its checks on those
bytes in the order of 43_frame_validate.md R250. -/

namespace Sys2Proof.Machine

/-- The checksum check, the last one: VALID if the frame's check byte `got` is `c`, else CHECKSUM
(43_frame_validate.md R250). -/
def checkVerdict (got c : Byte) (s : State) : State :=
  if got = c then verdict true .ok s else verdict false .checksum s

/-- The checks of VALIDATE_CMD on input `f`: length, then checksum (43_frame_validate.md R254). -/
def cmdVerdict (f : List Byte) (s : State) : State :=
  match f with
  | [b0, b1] => checkVerdict b1 (checksum [b0]) (setCsum (checksum [b0]) s)
  | _ => verdict false .length s

/-- The Exec step of VALIDATE_CMD (43_frame_validate.md R254). -/
def validateCmdEffect (s : State) : Result :=
  withInput s 0 (countOperand s) fun f => .next (complete (cmdVerdict f s))

/-- VALIDATE_CMD (43_frame_validate.md R254). -/
def execValidateCmd (s : State) : Result :=
  oneStep .validateCmd (acceptInput .validateCmd) validateCmdEffect s

/-- The last check of VALIDATE_ADDR: a valid frame's address goes to VADDR
(43_frame_validate.md R258). -/
def checkAddrVerdict (bs : List Byte) (got : Byte) (s : State) : State :=
  if got = checksum bs then verdict true .ok (setVaddr (fromBigEndian bs) s)
  else verdict false .checksum s

/-- The checks of VALIDATE_ADDR on input `f`: length, then checksum (43_frame_validate.md R258). -/
def addrVerdict (f : List Byte) (s : State) : State :=
  match f with
  | [b0, b1, b2, b3, b4] =>
    checkAddrVerdict [b0, b1, b2, b3] b4 (setCsum (checksum [b0, b1, b2, b3]) s)
  | _ => verdict false .length s

/-- The Exec step of VALIDATE_ADDR (43_frame_validate.md R258). -/
def validateAddrEffect (s : State) : Result :=
  withInput s 0 (countOperand s) fun f => .next (complete (addrVerdict f s))

/-- VALIDATE_ADDR (43_frame_validate.md R258). -/
def execValidateAddr (s : State) : Result :=
  oneStep .validateAddr (acceptInput .validateAddr) validateAddrEffect s

/-- The checks of VALIDATE_DATA on input `f`: length, count field, then checksum
(43_frame_validate.md R262). Past the length check `f` has a first and a last byte, so the two
default arguments are never used. -/
def dataVerdict (f : List Byte) (s : State) : State :=
  if f.length < 3 then verdict false .length s
  else if (f.headD 0).toNat ≠ f.length - 3 then verdict false .count s
  else checkVerdict (f.getLastD 0) (checksum f.dropLast) (setCsum (checksum f.dropLast) s)

/-- The Exec step of VALIDATE_DATA (43_frame_validate.md R262). -/
def validateDataEffect (s : State) : Result :=
  withInput s 0 (countOperand s) fun f => .next (complete (dataVerdict f s))

/-- VALIDATE_DATA (43_frame_validate.md R262). -/
def execValidateData (s : State) : Result :=
  oneStep .validateData (acceptInput .validateData) validateDataEffect s

end Sys2Proof.Machine
end

