-- ==== Sys2Proof/Machine/Dispatch.lean ====
section
/-! DEFINITION. One arm per operation: what operation `i` does next in state `s`. In Idle that is
the acceptance of its command word (40_host_access.md R160); while `i` is the running operation it
is the sequencer's step of it (10_state.md R46 (b)); while another operation runs, the command is a
blocked write (40_host_access.md R158). See log entry 2. -/

namespace Sys2Proof.Machine

def exec (i : Instr) (s : State) : Host.Outcome State Fault Refusal :=
  match i with
  | .nop => Sys2Proof.Machine.execNop s
  | .cksum => Sys2Proof.Machine.execCksum s
  | .buildCmd => Sys2Proof.Machine.execBuildCmd s
  | .buildAddr => Sys2Proof.Machine.execBuildAddr s
  | .buildData => Sys2Proof.Machine.execBuildData s
  | .buildSync => Sys2Proof.Machine.execBuildSync s
  | .send => Sys2Proof.Machine.execSend s
  | .ackWait => Sys2Proof.Machine.execAckWait s
  | .ackWaitFirst => Sys2Proof.Machine.execAckWaitFirst s
  | .validateCmd => Sys2Proof.Machine.execValidateCmd s
  | .validateAddr => Sys2Proof.Machine.execValidateAddr s
  | .validateData => Sys2Proof.Machine.execValidateData s

end Sys2Proof.Machine
end

