-- ==== Sys2Proof/Machine/Flags.lean ====
section
/-! DEFINITION. The STATUS word (10_state.md R41, 40_host_access.md R151) and its write
(40_host_access.md R156). FCAD has no condition codes (10_state.md R50). -/

namespace Sys2Proof.Machine

/-- `STATUS.BUSY`: 1 exactly when the phase is not Idle (10_state.md R47). -/
def busy (s : State) : Bool := decide (s.phase ≠ .idle)

/-- The code of ACKRES (10_state.md R41). -/
def AckRes.code : AckRes → BitVec 2
  | .none => 0
  | .acked => 1
  | .nacked => 2
  | .timedOut => 3

/-- The code of VERR (10_state.md R41). -/
def Verr.code : Verr → BitVec 4
  | .ok => 0
  | .length => 1
  | .count => 2
  | .checksum => 3

/-- A flag as a 32-bit word. -/
def flagWord (b : Bool) : Word := if b then 1 else 0

/-- The STATUS word, as 40_host_access.md R151 assembles it. -/
def statusWord (s : State) : Word :=
  flagWord s.dovf <<< 13 ||| flagWord s.xerr <<< 12 ||| flagWord s.lenerr <<< 11
    ||| flagWord s.illop <<< 10 ||| flagWord s.busyerr <<< 9 ||| flagWord s.done <<< 8
    ||| (s.verr.code.setWidth 32) <<< 4 ||| flagWord s.valid <<< 3
    ||| (s.ackres.code.setWidth 32) <<< 1 ||| flagWord (busy s)

/-- A STATUS write clears the W1C bits written with 1 (40_host_access.md R156). -/
def clearStatus (w : Word) (s : State) : State :=
  { s with
    done := s.done && !w.getLsbD 8
    busyerr := s.busyerr && !w.getLsbD 9
    illop := s.illop && !w.getLsbD 10
    lenerr := s.lenerr && !w.getLsbD 11
    xerr := s.xerr && !w.getLsbD 12 }

end Sys2Proof.Machine
end

