-- ==== Sys2Proof/Machine/RegisterMap.lean ====
section
/-! DEFINITION. The host register space: where each offset leads (10_state.md R40, 20_memory.md
R81, R84) and what it reads (40_host_access.md R150 to R153); FCAD's output ports. -/

namespace Sys2Proof.Machine

/-- What an offset of the host register space reaches (20_memory.md R84). -/
inductive Target where
  | reg (r : Reg)
  | ibuf (i : Nat)
  | frame (i : Nat)
  | diag (i : Nat)
  | pdiag (i : Nat)
  | unmapped
  deriving DecidableEq, Repr

/-- The register of a word number (offset / 4) (10_state.md R40). -/
def regOfWord : Nat → Option Reg
  | 0 => some .cmd
  | 1 => some .status
  | 2 => some .arg
  | 3 => some .len
  | 4 => some .deadline
  | 5 => some .csum
  | 6 => some .frameLen
  | 7 => some .txCount
  | 8 => some .diagLen
  | 9 => some .pdiagLen
  | 10 => some .diagDrop
  | 11 => some .elapsed
  | 12 => some .vaddr
  | 13 => some .config
  | _ => none

/-- The offset of a register (10_state.md R40). -/
def regOffset : Reg → Offset
  | .cmd => 0x000
  | .status => 0x004
  | .arg => 0x008
  | .len => 0x00C
  | .deadline => 0x010
  | .csum => 0x014
  | .frameLen => 0x018
  | .txCount => 0x01C
  | .diagLen => 0x020
  | .pdiagLen => 0x024
  | .diagDrop => 0x028
  | .elapsed => 0x02C
  | .vaddr => 0x030
  | .config => 0x034

/-- The word an access reaches: `o & 0x3FFC` (20_memory.md R81). -/
def alignOffset (off : Offset) : Offset := off &&& 0x3FFC

/-- The target of a word number (aligned offset / 4), by the ranges of 20_memory.md R84. -/
def targetOfWord (n : Nat) : Target :=
  if n < 0x100 then
    match regOfWord n with
    | some r => .reg r
    | none => .unmapped
  else if n < 0x100 + Config.bufCap then .ibuf (n - 0x100)
  else if n < 0x400 then .unmapped
  else if n < 0x400 + Config.bufCap then .frame (n - 0x400)
  else if n < 0x800 then .unmapped
  else if n < 0x800 + Config.diagCapMax then .diag (n - 0x800)
  else if n < 0xC00 + Config.diagCapMax then .pdiag (n - 0xC00)
  else .unmapped

/-- The target of an access at byte offset `off` (20_memory.md R81, R84). -/
def target (off : Offset) : Target := targetOfWord ((alignOffset off).toNat / 4)

/-- A number in a register field of `n` bits, with zeros above (10_state.md R40: "Bits not listed
read 0"). -/
def fieldWord (n v : Nat) : Word := (BitVec.ofNat n v).setWidth 32

/-- A register's value (40_host_access.md R151). -/
def regValue (s : State) : Reg → Word
  | .cmd => 0
  | .status => statusWord s
  | .arg => s.arg
  | .len => s.len.setWidth 32
  | .deadline => s.deadline.setWidth 32
  | .csum => s.csum.setWidth 32
  | .frameLen => fieldWord 9 s.frame.length
  | .txCount => fieldWord 9 s.txCount
  | .diagLen => fieldWord 11 s.diag.length
  | .pdiagLen => fieldWord 11 s.pdiag.length
  | .diagDrop => s.diagDrop.setWidth 32
  | .elapsed => fieldWord 17 s.elapsed
  | .vaddr => s.vaddr
  | .config => fieldWord 11 s.diagCap

/-- A cell of a buffer held as a list: 0 at and beyond the length (40_host_access.md R153). -/
def cellWord (buf : List Byte) (i : Nat) : Word :=
  match buf[i]? with
  | some b => b.setWidth 32
  | none => 0

/-- An IBUF cell's value: an unwritten one reads a free byte (40_host_access.md R152,
93_implementation_defined.md U1). -/
def ibufWord (s : State) (i : Nat) : Word :=
  match s.ibuf.read i with
  | some b => b.setWidth 32
  | none => (Config.freeByte s.freeReads).setWidth 32

/-- The value of a target. -/
def targetValue (s : State) : Target → Word
  | .reg r => regValue s r
  | .ibuf i => ibufWord s i
  | .frame i => cellWord s.frame i
  | .diag i => cellWord s.diag i
  | .pdiag i => cellWord s.pdiag i
  | .unmapped => 0

/-- `readval(s, off & 0x3FFC)` (40_host_access.md R150). -/
def readval (s : State) (off : Offset) : Word := targetValue s (target off)

/-- How many free bytes a read takes: one, at an unwritten IBUF cell (log entry 8). -/
def freeTaken (s : State) (off : Offset) : Nat :=
  match target off with
  | .ibuf i => if (s.ibuf.read i).isNone then 1 else 0
  | .reg _ => 0
  | .frame _ => 0
  | .diag _ => 0
  | .pdiag _ => 0
  | .unmapped => 0

/-- A host read: `bus_rdata <- readval` and nothing else (40_host_access.md R150). -/
def hostRead (off : Offset) (s : State) : State :=
  { s with busRdata := readval s off, freeReads := s.freeReads + freeTaken s off }

/-- `tx_valid` (10_state.md R33): 1 only in phase `Send(i)`. DEDUCED (log entry 21): there it is 1
exactly while byte `i` exists and `xport_err` is 0, so that a byte moves when `tx_ready` is 1 too
(R32, 42_frame_build.md R230). -/
def txValid (s : State) : Bool :=
  match s.phase with
  | .send i => decide (i < s.frame.length) && !s.xerrIn
  | .idle => false
  | .exec _ => false
  | .wait _ => false

/-- `tx_data` (10_state.md R33): the byte offered while `tx_valid` is 1. -/
def txData (s : State) : Option Byte :=
  match s.phase with
  | .send i => s.frame[i]?
  | .idle => none
  | .exec _ => none
  | .wait _ => none

/-- `rx_ready` (10_state.md R34): 1 only in phase `Wait(mode)`. DEDUCED (log entry 21): there it is 1
exactly while `xport_err` is 0 and the deadline has not passed, so that a byte is consumed when
`rx_valid` is 1 too (R32, 44_ack_detect.md R286). -/
def rxReady (s : State) : Bool :=
  match s.phase with
  | .wait _ => !s.xerrIn && decide (s.elapsed ≤ deadlineOperand s)
  | .idle => false
  | .exec _ => false
  | .send _ => false

/-- `rx_valid` (10_state.md R36). -/
def rxValid (s : State) : Bool := decide (s.rxq ≠ [])

/-- `rx_data` (10_state.md R36): the byte offered while `rx_valid` is 1. -/
def rxData (s : State) : Option Byte := s.rxq.head?

end Sys2Proof.Machine
end

