-- ==== Sys2Proof/Machine/Agents.lean ====
section
/-! DEFINITION. What each agent's step does (10_state.md R46): the host's accesses
(40_host_access.md), the sequencer, the transport, time, and reset (70_reset_and_hazards.md R370). -/

namespace Sys2Proof.Machine

/-- The instruction of a one-step operation. -/
def ExecOp.instr : ExecOp → Instr
  | .nop => .nop
  | .cksum => .cksum
  | .buildCmd => .buildCmd
  | .buildAddr => .buildAddr
  | .buildData => .buildData
  | .buildSync => .buildSync
  | .validateCmd => .validateCmd
  | .validateAddr => .validateAddr
  | .validateData => .validateData

/-- The operation a phase is running, if any (10_state.md R45). -/
def running : Phase → Option Instr
  | .idle => none
  | .exec op => some op.instr
  | .send _ => some .send
  | .wait .normal => some .ackWait
  | .wait .first => some .ackWaitFirst

/-- A write of command word `w` to CMD: blocked while BUSY (40_host_access.md R158); in Idle a legal
word's operation is accepted and an illegal word raises ILLOP (R160, 30_encoding.md R124). -/
def issueCommand (w : Word) (s : State) : Result :=
  if s.phase = .idle then
    match decode w with
    | .ok i => exec i s
    | .error _ => .next (refuseIllegal s)
  else .next (blockedWrite s)

/-- A write to an operand register or an IBUF cell: `f` in Idle (40_host_access.md R155), blocked
while BUSY (R158). -/
def operandWrite (f : State → State) (s : State) : Result :=
  if s.phase = .idle then .next (f s) else .next (blockedWrite s)

/-- A write to a register (40_host_access.md R155 to R160). A read-only register ignores it (R157). -/
def regWrite (r : Reg) (w : Word) (s : State) : Result :=
  match r with
  | .cmd => issueCommand w s
  | .status => .next (clearStatus w s)
  | .arg => operandWrite (setArg w) s
  | .len => operandWrite (setLen w) s
  | .deadline => operandWrite (setDeadline w) s
  | .csum => .next s
  | .frameLen => .next s
  | .txCount => .next s
  | .diagLen => .next s
  | .pdiagLen => .next s
  | .diagDrop => .next s
  | .elapsed => .next s
  | .vaddr => .next s
  | .config => .next s

/-- A write to a target: read-only windows and unmapped offsets ignore it (40_host_access.md R157,
20_memory.md R84). -/
def targetWrite (t : Target) (w : Word) (s : State) : Result :=
  match t with
  | .reg r => regWrite r w s
  | .ibuf i => operandWrite (setCell i w) s
  | .frame _ => .next s
  | .diag _ => .next s
  | .pdiag _ => .next s
  | .unmapped => .next s

/-- `MemWrite(off, 4, w)` (40_host_access.md R155 to R160). -/
def hostWrite (off : Offset) (w : Word) (s : State) : Result := targetWrite (target off) w s

/-- One step of `poll` (30_encoding.md R127): read STATUS, and leave the loop (`rest`) once bit 0
reads 0. -/
def pollStep (rest : List HostOp) (s : State) : State :=
  let s' := hostRead (regOffset .status) s
  if s'.busRdata.getLsbD 0 then s' else { s' with program := rest }

/-- The Host's step: the next access of its program; with none left it is idle (10_state.md R46). -/
def hostStep (s : State) : Result :=
  match s.program with
  | [] => .next s
  | .read off :: rest => .next (hostRead off { s with program := rest })
  | .write off w :: rest => hostWrite off w { s with program := rest }
  | .poll :: rest => .next (pollStep rest s)

/-- The Sequencer's step: a step of the running operation; in Idle it takes none
(10_state.md R46 (b), 60_exceptions.md R350). -/
def sequencerStep (s : State) : Result :=
  match running s.phase with
  | some i => exec i s
  | none => .next s

/-- The Transport's step (10_state.md R46 (c)). -/
def transportStep (t : TransportStep) (s : State) : State :=
  match t with
  | .deliver b => { s with rxq := s.rxq ++ [b] }
  | .setTxReady level => { s with txReady := level }
  | .setXportErr level => { s with xerrIn := level }

/-- Every FCAD field at its reset value; the environment, the agents and the parameter stay
(70_reset_and_hazards.md R370). -/
def resetBlock (s : State) : State :=
  { s with
    arg := 0, len := 0, deadline := 0, csum := 0
    frame := [], txCount := 0, diag := [], pdiag := [], diagDrop := 0, elapsed := 0
    vaddr := 0, ibuf := []
    ackres := .none, valid := false, verr := .ok
    done := false, busyerr := false, illop := false, lenerr := false, xerr := false, dovf := false
    phase := .idle }

/-- The Host's step while `rst` is 1: no write has an effect, and reads return the reset values
(70_reset_and_hazards.md R370). -/
def hostStepInReset (s : State) : State :=
  match s.program with
  | [] => s
  | .read off :: rest => hostRead off { s with program := rest }
  | .write _ _ :: rest => { s with program := rest }
  | .poll :: rest => pollStep rest s

/-- Any agent's step while `rst` is 1: FCAD is held at its reset values, only the environment and
the host's own program move (70_reset_and_hazards.md R370). -/
def stepInReset (a : AgentStep) (s : State) : State :=
  match a with
  | .host => hostStepInReset (resetBlock s)
  | .sequencer => resetBlock s
  | .transport t => transportStep t (resetBlock s)
  | .time => resetBlock s
  | .reset level => { resetBlock s with rst := level }

/-- Any agent's step while `rst` is 0; driving `rst` to 1 resets FCAD in that step
(70_reset_and_hazards.md R370). -/
def stepRunning (a : AgentStep) (s : State) : Result :=
  match a with
  | .host => hostStep s
  | .sequencer => sequencerStep s
  | .transport t => .next (transportStep t s)
  | .time => .next (tick s)
  | .reset level => .next (if level then { resetBlock s with rst := true } else s)

/-- One step of agent `a` (10_state.md R30, R46). Reset takes precedence (60_exceptions.md R336). -/
def agentStep (a : AgentStep) (s : State) : Result :=
  if s.rst then .next (stepInReset a s) else stepRunning a s

/-- Command word `w` issued by the very next step (log entry 3): the Host writes it to CMD, next in
the schedule, with FCAD ready for it (`rst` = 0 and Idle). -/
def placeCommand (w : Word) (s : State) : State :=
  { s with
    rst := false, phase := .idle
    program := .write (regOffset .cmd) w :: s.program
    schedule := .host :: s.schedule }

end Sys2Proof.Machine
end

