-- ==== Sys2Proof/Machine/Step.lean ====
section
/-! DEFINITION. One step of the machine, and where its next operation is placed. -/

namespace Sys2Proof.Machine

/-- One step: the next agent of the schedule acts (10_state.md R30, R46). With no agent left to act
the state stays as it is (log entry 1). -/
def step (s : State) : Host.Outcome State Fault Refusal :=
  match s.schedule with
  | [] => .next s
  | a :: rest => agentStep a { s with schedule := rest }

/-- `s` with the command word of bits `w` issued by the very next step (log entry 3). -/
def State.withFetchWord (s : State) (nbits w : Nat) : State :=
  placeCommand (BitVec.ofNat 32 (w % 2 ^ nbits)) s

end Sys2Proof.Machine
end

