-- ==== Sys2Proof/Machine/Assembly.lean ====
section
/-! DEFINITION. The host assembly notation as bus accesses (30_encoding.md R127, R128). -/

namespace Sys2Proof.Machine

/-- `base(BUF)`'s word number (30_encoding.md R127: 0x1000, 0x2000, 0x3000). -/
def bufWord : ReadBuf → Nat
  | .frame => 0x400
  | .diag => 0x800
  | .pdiag => 0xC00

/-- `wr REG, v` (30_encoding.md R127). -/
def asmWr (r : Reg) (v : Word) : HostOp := .write (regOffset r) v

/-- `wrb i, v` (30_encoding.md R127): `MemWrite(0x400 + 4·i, 4, zext_32(v))`. -/
def asmWrb (i : Nat) (v : Byte) : HostOp := .write (BitVec.ofNat 14 (0x400 + 4 * i)) (v.setWidth 32)

/-- `op M` (30_encoding.md R127): `MemWrite(0x000, 4, zext_32(OP(M)))`. -/
def asmOp (m : Instr) : HostOp := .write (regOffset .cmd) (encode m)

/-- `wrb i, b_i` for each byte of `p`, from cell `i` on (30_encoding.md R128, DATAFRAME). -/
def asmBytes : Nat → List Byte → List HostOp
  | _, [] => []
  | i, b :: p => asmWrb i b :: asmBytes (i + 1) p

/-- CMDFRAME c (30_encoding.md R128). -/
def asmCmdframe (c : Word) : List HostOp := [asmWr .arg c, asmOp .buildCmd, .poll]

/-- SENDF (30_encoding.md R128). -/
def asmSendf : List HostOp := [asmOp .send, .poll]

/-- WAITACK d (30_encoding.md R128). -/
def asmWaitack (d : Word) : List HostOp := [asmWr .deadline d, asmOp .ackWait, .poll]

/-- XCHG c, d (30_encoding.md R128). -/
def asmXchg (c d : Word) : List HostOp := asmCmdframe c ++ asmSendf ++ asmWaitack d

/-- The bus accesses of a statement (30_encoding.md R127, R128). -/
def assemble : Stmt → List HostOp
  | .wr r v => [asmWr r v]
  | .wrb i v => [asmWrb i v]
  | .rd r => [.read (regOffset r)]
  | .rdb b i => [.read (BitVec.ofNat 14 (4 * (bufWord b + i)))]
  | .op m => [asmOp m]
  | .poll => [.poll]
  | .clr m => [asmWr .status m]
  | .cmdframe c => asmCmdframe c
  | .eraseall => asmCmdframe 0xFF
  | .addrframe a => [asmWr .arg a, asmOp .buildAddr, .poll]
  | .dataframe p =>
    asmBytes 0 p ++ [asmWr .len (BitVec.ofNat 32 p.length), asmOp .buildData, .poll]
  | .syncframe => [asmOp .buildSync, .poll]
  | .sendf => asmSendf
  | .waitack d => asmWaitack d
  | .waitfirst d => [asmWr .deadline d, asmOp .ackWaitFirst, .poll]
  | .xchg c d => asmXchg c d
  | .query c d => asmXchg c d ++ asmWaitack d

/-- A host program: its statements' accesses in order. -/
def assembleAll (p : List Stmt) : List HostOp := p.flatMap assemble

/-- `for i in a..b: S`: the statements of `S` with i = a, …, b-1 in turn; nothing if a ≥ b
(30_encoding.md R127). -/
def forLoop (a b : Nat) (S : Nat → List Stmt) : List Stmt := (List.range' a (b - a)).flatMap S

/-- `wait_rx`: no host step, a schedule note that the Transport appends these bytes here
(30_encoding.md R127). -/
def waitRx (bs : List Byte) : List AgentStep := bs.map fun b => .transport (.deliver b)

end Sys2Proof.Machine
end

