-- ==== Sys2Proof/Safety.lean ====
section
/-! DEFINITION. What the statements are said in terms of: the invariant of reachable states
(10_state.md R48), the block's reset values, the input of an operation, and what a safe run is. -/

namespace Sys2Proof.Machine

/-- LEN is in the range acceptance checked for `op` (40_host_access.md R160). -/
def lenInRange (op : ExecOp) (n : Nat) : Prop :=
  match op with
  | .cksum => n ≤ Config.bufCap
  | .buildData => 1 ≤ n ∧ n ≤ Config.payloadMax
  | .validateCmd => n ≤ Config.bufCap
  | .validateAddr => n ≤ Config.bufCap
  | .validateData => n ≤ Config.bufCap
  | .nop => True
  | .buildCmd => True
  | .buildAddr => True
  | .buildSync => True

/-- Every FCAD field of 10_state.md R49 is at its reset value (70_reset_and_hazards.md R370). -/
structure BlockAtReset (s : State) : Prop where
  arg : s.arg = 0
  len : s.len = 0
  deadline : s.deadline = 0
  csum : s.csum = 0
  frame : s.frame = []
  txCount : s.txCount = 0
  diag : s.diag = []
  pdiag : s.pdiag = []
  diagDrop : s.diagDrop = 0
  elapsed : s.elapsed = 0
  vaddr : s.vaddr = 0
  ibuf : ∀ a, s.ibuf.read a = none
  ackres : s.ackres = .none
  valid : s.valid = false
  verr : s.verr = .ok
  done : s.done = false
  busyerr : s.busyerr = false
  illop : s.illop = false
  lenerr : s.lenerr = false
  xerr : s.xerr = false
  dovf : s.dovf = false
  phase : s.phase = .idle

/-- The invariant of reachable states: the bullets of 10_state.md R48, with the bound on ELAPSED
restricted to a running wait (log entry 12), and what the other rules add. -/
structure StateInv (s : State) : Prop where
  /-- `|frame| ≤ 258` (R48). -/
  frame_le : s.frame.length ≤ Config.bufCap
  /-- `TX_COUNT ≤ |frame|` (R48). -/
  txCount_le : s.txCount ≤ s.frame.length
  /-- `|diag| ≤ DIAG_CAP` (R48). -/
  diag_le : s.diag.length ≤ s.diagCap
  /-- `|pdiag| ≤ DIAG_CAP` (R48). -/
  pdiag_le : s.pdiag.length ≤ s.diagCap
  /-- ELAPSED fits its 17 bits (44_ack_detect.md R284). -/
  elapsed_le : s.elapsed ≤ 65536
  /-- `ELAPSED ≤ DEADLINE + 1` while a wait runs (R48, log entry 12). -/
  wait_elapsed : ∀ m, s.phase = .wait m → s.elapsed ≤ s.deadline.toNat + 1
  /-- ACKRES = NONE while a wait runs (R48). -/
  wait_ackres : ∀ m, s.phase = .wait m → s.ackres = .none
  /-- DOVF = 1 iff DIAG_DROP > 0 (R48). -/
  dovf_iff : s.dovf = true ↔ 0 < s.diagDrop.toNat
  /-- `i` of `Send(i)` equals TX_COUNT (10_state.md R45). -/
  send_index : ∀ i, s.phase = .send i → i = s.txCount
  /-- LEN is in range while an operation that uses it runs (40_host_access.md R158, R160). -/
  exec_len : ∀ op, s.phase = .exec op → lenInRange op s.len.toNat
  /-- DONE = 0 while BUSY = 1 (40_host_access.md R160, R161). -/
  busy_done : s.phase ≠ .idle → s.done = false
  /-- A valid frame has the verdict code OK (43_frame_validate.md R250). -/
  valid_verr : s.valid = true → s.verr = .ok
  /-- IBUF is in canonical form. -/
  ibuf_wf : s.ibuf.wf = true
  /-- `DIAG_CAP` is 16..1024 (00_scope.md R7). -/
  diagCap_range : Config.diagCapMin ≤ s.diagCap ∧ s.diagCap ≤ Config.diagCapMax
  /-- While `rst` is 1 the block is at its reset values (70_reset_and_hazards.md R370). -/
  rst_block : s.rst = true → BlockAtReset s

/-- `f` is `IBUF[0..LEN]`, every cell written (43_frame_validate.md R250). -/
def InputIs (s : State) (f : List Byte) : Prop :=
  f.length = s.len.toNat ∧ ∀ k, k < f.length → s.ibuf.read k = f[k]?

/-- The host has written every cell of `IBUF[0..LEN]` (70_reset_and_hazards.md R377). -/
def InputWritten (s : State) : Prop := ∀ k, k < s.len.toNat → (s.ibuf.read k).isSome

/-- Byte `i` of frame `f` with the bits of `d` flipped (43_frame_validate.md R266). -/
def flipBits (i : Nat) (d : Byte) (f : List Byte) : List Byte := f.modify i (· ^^^ d)

/-- The next step is a host write to STATUS with bit `k` set (40_host_access.md R156). -/
def ClearsStatusBit (s : State) (k : Nat) : Prop :=
  ∃ rest off w p, s.schedule = .host :: rest ∧ s.program = .write off w :: p ∧
    target off = .reg .status ∧ w.getLsbD k = true

/-- A run of `n` steps is safe if no step of it faults or is refused. -/
def SafeFor (n : Nat) (s : State) : Prop := ∃ t, Sys2Proof.core.run n s = .next t

end Sys2Proof.Machine
end

