-- ==== Sys2Proof/Certificates/Slice0/Obligations.lean ====
section
/-! DEFINITION. The statements for the provers. Each docstring says which rule of spec/ it
formalises, and which clause rests on the model's own choice, with its log entry. -/

open Sys2Proof Sys2Proof.Machine

/-! ## Reset and the invariant -/

/-- 10_state.md R49: the reset value of every field of the block. -/
def Obligations.ResetStateHasTheRecordsResetValues : Prop :=
  BlockAtReset State.reset

/-- 70_reset_and_hazards.md R370: a step in which `rst` = 1 resets every field, whatever the phase;
`rxq` and `txlog` stay; while `rst` = 1 no host access has an effect, no other FCAD step is enabled,
and reads return the reset values (an IBUF cell's is unspecified, R371). That `rst` is a level which
the Reset agent drives is the model's choice (log entry 11). -/
def Obligations.ResetStepRestoresTheBlockAndKeepsTheStreams : Prop :=
  (∀ s rest, s.schedule = .reset true :: rest →
    ∃ t, step s = .next t ∧ BlockAtReset t ∧ t.rst = true ∧ t.rxq = s.rxq ∧ t.txlog = s.txlog) ∧
  (∀ s a rest, s.rst = true → s.schedule = a :: rest →
    ∃ t, step s = .next t ∧ BlockAtReset t ∧ t.txlog = s.txlog ∧
      ((∀ b, a ≠ .transport (.deliver b)) → t.rxq = s.rxq)) ∧
  (∀ s off p rest, s.rst = true → s.schedule = .host :: rest → s.program = .read off :: p →
    (∀ i, target off ≠ .ibuf i) →
    ∃ t, step s = .next t ∧
      t.busRdata = if target off = .reg .config then fieldWord 11 s.diagCap else 0)

/-- 10_state.md R48 (its ELAPSED bullet is the model's choice, log entry 12): the invariant at reset. -/
def Obligations.InvariantHoldsAtReset : Prop := StateInv State.reset

/-- 10_state.md R48 (its ELAPSED bullet is the model's choice, log entry 12): every step of every
agent, from every state with the invariant, keeps it. -/
def Obligations.EveryStepKeepsTheInvariant : Prop :=
  ∀ s t, StateInv s → step s = .next t → StateInv t

/-- Log entry 12: the fourth bullet of 10_state.md R48, read as it stands, is broken by the host's
write to DEADLINE (0x010) in Idle after a wait has ended (ACKRES is not NONE): 40_host_access.md R155
against 44_ack_detect.md R284. -/
def Obligations.DeadlineWriteCanBreakTheElapsedBound : Prop :=
  ∃ s t w p rest, StateInv s ∧ s.rst = false ∧ s.phase = .idle ∧ s.ackres ≠ .none ∧
    s.schedule = .host :: rest ∧ s.program = .write 0x010 w :: p ∧
    s.elapsed ≤ s.deadline.toNat + 1 ∧ step s = .next t ∧ ¬ t.elapsed ≤ t.deadline.toNat + 1

/-- 10_state.md R48, its bullet `ELAPSED ≤ DEADLINE + 1`: every step keeps it, but for a DEADLINE write
in Idle of a value that ELAPSED already exceeds by more than 1 (40_host_access.md R155; ELAPSED keeps its
value after a wait, 44_ack_detect.md R284); and acceptance of a wait restores it, from any state. With
`StateInv.wait_elapsed` this is all of the bullet that R155 and R284 leave true (log entry 12). -/
def Obligations.OnlyADeadlineWriteBreaksTheElapsedBound : Prop :=
  (∀ s t, step s = .next t → s.elapsed ≤ s.deadline.toNat + 1 →
    t.elapsed ≤ t.deadline.toNat + 1 ∨
      ∃ rest off w p, s.rst = false ∧ s.phase = .idle ∧ s.schedule = .host :: rest ∧
        s.program = .write off w :: p ∧ target off = .reg .deadline ∧ t.elapsed = s.elapsed ∧
        (w.extractLsb' 0 16).toNat + 1 < s.elapsed) ∧
  (∀ i s t, i = .ackWait ∨ i = .ackWaitFirst → s.phase = .idle → exec i s = .next t →
    t.elapsed ≤ t.deadline.toNat + 1)

/-- 00_scope.md R7: DIAG_CAP is a parameter: no step changes it. -/
def Obligations.NoStepChangesTheDiagnosticCapacity : Prop :=
  ∀ s t, step s = .next t → t.diagCap = s.diagCap

/-! ## Encodings -/

/-- 30_encoding.md R121: the twelve OP values and no others. With RSVD = 0 (R120) each operation
has exactly one command word, so decoding and encoding agree in both directions. -/
def Obligations.OpcodeMapIsExact : Prop :=
  (opcode .nop = 0x00 ∧ opcode .cksum = 0x01 ∧ opcode .buildCmd = 0x02 ∧ opcode .buildAddr = 0x03 ∧
    opcode .buildData = 0x04 ∧ opcode .buildSync = 0x05 ∧ opcode .send = 0x08 ∧
    opcode .ackWait = 0x10 ∧ opcode .ackWaitFirst = 0x11 ∧ opcode .validateCmd = 0x20 ∧
    opcode .validateAddr = 0x21 ∧ opcode .validateData = 0x22) ∧
  (∀ w i, decode w = .ok i ↔ rsvdField w = 0 ∧ opField w = opcode i) ∧
  (∀ w i, decode w = .ok i ↔ w = encode i)

/-- 30_encoding.md R122, R124: which words are illegal, that an illegal word in Idle sets ILLOP and
DONE and changes nothing else, and that while BUSY it is a blocked write like any other. -/
def Obligations.IllegalWordsRaiseIllopOnlyInIdle : Prop :=
  (∀ w : Word, (∀ i, decode w ≠ .ok i) ↔
    w.toNat / 256 ≠ 0 ∨ w.toNat % 256 = 0x06 ∨ w.toNat % 256 = 0x07 ∨
    (0x09 ≤ w.toNat % 256 ∧ w.toNat % 256 ≤ 0x0F) ∨
    (0x12 ≤ w.toNat % 256 ∧ w.toNat % 256 ≤ 0x1F) ∨ 0x23 ≤ w.toNat % 256) ∧
  (∀ w s, (∀ i, decode w ≠ .ok i) → s.phase = .idle →
    hostWrite 0x000 w s = .next { s with illop := true, done := true }) ∧
  (∀ w s, (∀ i, decode w ≠ .ok i) → s.phase ≠ .idle →
    hostWrite 0x000 w s = .next { s with busyerr := true })

/-- Words of opcode_table.json, written out, decode to their operations. -/
def Obligations.TableWordsDecodeToTheirOperations : Prop :=
  decode 0b00000000000000000000000000000000#32 = .ok .nop ∧
  decode 0b00000000000000000000000000000001#32 = .ok .cksum ∧
  decode 0b00000000000000000000000000000100#32 = .ok .buildData ∧
  decode 0b00000000000000000000000000001000#32 = .ok .send ∧
  decode 0b00000000000000000000000000010001#32 = .ok .ackWaitFirst ∧
  decode 0b00000000000000000000000000100010#32 = .ok .validateData

/-! ## Steps -/

/-- 10_state.md R46 (a): a Host step performs the write its program names, at any offset, of any word,
in any phase (what each write does: the statements about `hostWrite`); a CMD write of a legal word in
Idle runs that word's operation in the same step (40_host_access.md R160). What the step adds is that
the host and the schedule move on. The schedule, and exec as acceptance in Idle, are the model's choice
(log entries 1, 2). -/
def Obligations.StepIssuesTheWrittenCommand : Prop :=
  (∀ s off w p rest, s.rst = false → s.schedule = .host :: rest → s.program = .write off w :: p →
    step s = hostWrite off w { s with schedule := rest, program := p }) ∧
  (∀ s off w i p rest, s.rst = false → s.phase = .idle → s.schedule = .host :: rest →
    s.program = .write off w :: p → off &&& 0x3FFC = 0x000 → decode w = .ok i →
    step s = exec i { s with schedule := rest, program := p })

/-- A sequencer step is a step of the operation the phase names, and none in Idle
(10_state.md R45, R46 (b)). The schedule, and exec as the step of a running operation, are the
model's choice (log entries 1, 2). -/
def Obligations.StepRunsTheRunningOperation : Prop :=
  (∀ s op rest, s.rst = false → s.schedule = .sequencer :: rest → s.phase = .exec op →
    step s = exec op.instr { s with schedule := rest }) ∧
  (∀ s i rest, s.rst = false → s.schedule = .sequencer :: rest → s.phase = .send i →
    step s = exec .send { s with schedule := rest }) ∧
  (∀ s rest, s.rst = false → s.schedule = .sequencer :: rest → s.phase = .wait .normal →
    step s = exec .ackWait { s with schedule := rest }) ∧
  (∀ s rest, s.rst = false → s.schedule = .sequencer :: rest → s.phase = .wait .first →
    step s = exec .ackWaitFirst { s with schedule := rest }) ∧
  (∀ s rest, s.rst = false → s.schedule = .sequencer :: rest → s.phase = .idle →
    step s = .next { s with schedule := rest })

/-- 10_state.md R37: a tick has an effect only in phase Wait, where it is 44_ack_detect.md R284's
increment, which stops at DEADLINE + 1. -/
def Obligations.TickCountsOnlyInWait : Prop :=
  (∀ s m rest, s.rst = false → s.schedule = .time :: rest → s.phase = .wait m →
    s.elapsed ≤ s.deadline.toNat →
    step s = .next { s with schedule := rest, elapsed := s.elapsed + 1 }) ∧
  (∀ s m rest, s.rst = false → s.schedule = .time :: rest → s.phase = .wait m →
    s.deadline.toNat < s.elapsed → step s = .next { s with schedule := rest }) ∧
  (∀ s rest, s.rst = false → s.schedule = .time :: rest → (∀ m, s.phase ≠ .wait m) →
    step s = .next { s with schedule := rest })

/-- 30_encoding.md R127 and 40_host_access.md R150: `poll` reads STATUS in each of its steps, ends when
BUSY reads 0, and like any read changes nothing else. That it is one element of the host's program is
the model's choice (log entry 14). -/
def Obligations.PollEndsExactlyWhenIdle : Prop :=
  (∀ s p rest, s.rst = false → s.schedule = .host :: rest → s.program = .poll :: p →
    s.phase = .idle →
    step s = .next { s with schedule := rest, program := p, busRdata := readval s 0x004 }) ∧
  (∀ s p rest, s.rst = false → s.schedule = .host :: rest → s.program = .poll :: p →
    s.phase ≠ .idle →
    step s = .next { s with schedule := rest, busRdata := readval s 0x004 })

/-! ## Host reads -/

/-- 40_host_access.md R150: a read in any phase puts `readval` of the aligned offset on the bus and
changes nothing of FCAD, its environment or the parameter; unmapped offsets read 0. (`freeReads`,
the model's own counter of unspecified reads, may advance: log entry 8.) -/
def Obligations.ReadsOnlyDriveTheBus : Prop :=
  (∀ s off p rest, s.rst = false → s.schedule = .host :: rest → s.program = .read off :: p →
    ∃ n, step s = .next
      { s with schedule := rest, program := p, busRdata := readval s (off &&& 0x3FFC), freeReads := n }) ∧
  (∀ s off, target off = .unmapped → readval s off = 0)

/-- 40_host_access.md R151 and 10_state.md R47: what each register reads, field by field, in states
with the invariant (the counts fit their fields there). -/
def Obligations.RegistersReadTheirFields : Prop :=
  ∀ s, StateInv s →
    readval s 0x000 = 0 ∧
    ((readval s 0x004).getLsbD 0 = true ↔ s.phase ≠ .idle) ∧
    (readval s 0x004).extractLsb' 1 2 = s.ackres.code ∧
    (readval s 0x004).getLsbD 3 = s.valid ∧
    (readval s 0x004).extractLsb' 4 4 = s.verr.code ∧
    (readval s 0x004).getLsbD 8 = s.done ∧
    (readval s 0x004).getLsbD 9 = s.busyerr ∧
    (readval s 0x004).getLsbD 10 = s.illop ∧
    (readval s 0x004).getLsbD 11 = s.lenerr ∧
    (readval s 0x004).getLsbD 12 = s.xerr ∧
    (readval s 0x004).getLsbD 13 = s.dovf ∧
    (∀ k, 14 ≤ k → (readval s 0x004).getLsbD k = false) ∧
    readval s 0x008 = s.arg ∧
    (readval s 0x00C).toNat = s.len.toNat ∧
    (readval s 0x010).toNat = s.deadline.toNat ∧
    (readval s 0x014).toNat = s.csum.toNat ∧
    (readval s 0x018).toNat = s.frame.length ∧
    (readval s 0x01C).toNat = s.txCount ∧
    (readval s 0x020).toNat = s.diag.length ∧
    (readval s 0x024).toNat = s.pdiag.length ∧
    (readval s 0x028).toNat = s.diagDrop.toNat ∧
    (readval s 0x02C).toNat = s.elapsed ∧
    readval s 0x030 = s.vaddr ∧
    (readval s 0x034).toNat = s.diagCap ∧
    (AckRes.none.code = 0 ∧ AckRes.acked.code = 1 ∧ AckRes.nacked.code = 2 ∧
      AckRes.timedOut.code = 3) ∧
    (Verr.ok.code = 0 ∧ Verr.length.code = 1 ∧ Verr.count.code = 2 ∧ Verr.checksum.code = 3)

/-- 40_host_access.md R152, R153: what each buffer cell reads. An unwritten IBUF cell reads some
byte (93_implementation_defined.md U1): the statement holds whichever byte that is. -/
def Obligations.BufferCellsReadTheirBytes : Prop :=
  (∀ s i, i ≤ 257 → readval s (BitVec.ofNat 14 (0x1000 + 4 * i)) =
    if h : i < s.frame.length then (s.frame[i]).setWidth 32 else 0) ∧
  (∀ s i, i ≤ 1023 → readval s (BitVec.ofNat 14 (0x2000 + 4 * i)) =
    if h : i < s.diag.length then (s.diag[i]).setWidth 32 else 0) ∧
  (∀ s i, i ≤ 1023 → readval s (BitVec.ofNat 14 (0x3000 + 4 * i)) =
    if h : i < s.pdiag.length then (s.pdiag[i]).setWidth 32 else 0) ∧
  (∀ s i b, i ≤ 257 → s.ibuf.read i = some b →
    readval s (BitVec.ofNat 14 (0x400 + 4 * i)) = b.setWidth 32) ∧
  (∀ s i, i ≤ 257 → s.ibuf.read i = none →
    ∃ b : Byte, readval s (BitVec.ofNat 14 (0x400 + 4 * i)) = b.setWidth 32)

/-- 20_memory.md R84: what each mapped offset reaches; every other offset reads 0 and ignores writes
in every phase; DIAG and PDIAG cells from DIAG_CAP on read 0. -/
def Obligations.UnmappedOffsetsReadZeroAndIgnoreWrites : Prop :=
  (∀ r, target (regOffset r) = .reg r) ∧
  (∀ i, i ≤ 257 → target (BitVec.ofNat 14 (0x400 + 4 * i)) = .ibuf i ∧
    target (BitVec.ofNat 14 (0x1000 + 4 * i)) = .frame i) ∧
  (∀ i, i ≤ 1023 → target (BitVec.ofNat 14 (0x2000 + 4 * i)) = .diag i ∧
    target (BitVec.ofNat 14 (0x3000 + 4 * i)) = .pdiag i) ∧
  (∀ off : Offset, target off = .unmapped ↔
    let a := (off &&& 0x3FFC).toNat
    ¬ (a < 0x038 ∨ (0x400 ≤ a ∧ a < 0x808) ∨ (0x1000 ≤ a ∧ a < 0x1408) ∨ 0x2000 ≤ a)) ∧
  (∀ s off w, target off = .unmapped → readval s off = 0 ∧ hostWrite off w s = .next s) ∧
  (∀ s i, StateInv s → s.diagCap ≤ i → i ≤ 1023 →
    readval s (BitVec.ofNat 14 (0x2000 + 4 * i)) = 0 ∧
    readval s (BitVec.ofNat 14 (0x3000 + 4 * i)) = 0)

/-- 20_memory.md R81: bits [1:0] of the offset are ignored, for reads and for writes. -/
def Obligations.LowOffsetBitsAreIgnored : Prop :=
  ∀ s off w, readval s off = readval s (off &&& 0x3FFC) ∧
    hostWrite off w s = hostWrite (off &&& 0x3FFC) w s

/-! ## Host writes -/

/-- 40_host_access.md R155: an operand write in Idle stores the field's bits and changes nothing
else; an IBUF write changes the one cell. -/
def Obligations.OperandWritesStoreInIdle : Prop :=
  (∀ s w, s.phase = .idle → hostWrite 0x008 w s = .next { s with arg := w }) ∧
  (∀ s w, s.phase = .idle → hostWrite 0x00C w s = .next { s with len := w.extractLsb' 0 9 }) ∧
  (∀ s w, s.phase = .idle → hostWrite 0x010 w s = .next { s with deadline := w.extractLsb' 0 16 }) ∧
  (∀ s w i, s.phase = .idle → i ≤ 257 →
    ∃ m, hostWrite (BitVec.ofNat 14 (0x400 + 4 * i)) w s = .next { s with ibuf := m } ∧
      m.read i = some (w.extractLsb' 0 8) ∧ ∀ a, a ≠ i → m.read a = s.ibuf.read a)

/-- 40_host_access.md R156: a STATUS write, in every phase, clears exactly the W1C bits written
with 1. -/
def Obligations.StatusWriteClearsExactlyTheWrittenBits : Prop :=
  ∀ s w, hostWrite 0x004 w s = .next
    { s with
      done := if w.getLsbD 8 then false else s.done
      busyerr := if w.getLsbD 9 then false else s.busyerr
      illop := if w.getLsbD 10 then false else s.illop
      lenerr := if w.getLsbD 11 then false else s.lenerr
      xerr := if w.getLsbD 12 then false else s.xerr }

/-- 40_host_access.md R157: writes to read-only registers and windows, and to unmapped offsets, are
ignored in every phase. -/
def Obligations.ReadOnlyWritesAreIgnored : Prop :=
  ∀ (s : State) (off : Offset) (w : Word),
    (let a := (off &&& 0x3FFC).toNat
     (0x014 ≤ a ∧ a < 0x400) ∨ 0x808 ≤ a) → hostWrite off w s = .next s

/-- 40_host_access.md R158: while BUSY, a write to CMD, ARG, LEN, DEADLINE or IBUF sets BUSYERR and
changes nothing else. -/
def Obligations.BlockedWritesOnlySetBusyerr : Prop :=
  ∀ (s : State) (off : Offset) (w : Word), s.phase ≠ .idle →
    (let a := (off &&& 0x3FFC).toNat
     a = 0x000 ∨ a = 0x008 ∨ a = 0x00C ∨ a = 0x010 ∨ (0x400 ≤ a ∧ a < 0x808)) →
    hostWrite off w s = .next { s with busyerr := true }

/-- 40_host_access.md R160: the acceptance of a command word in Idle, branch by branch. -/
def Obligations.AcceptanceTestsLegalityThenLength : Prop :=
  (∀ s w, s.phase = .idle → (∀ i, decode w ≠ .ok i) →
    hostWrite 0x000 w s = .next { s with illop := true, done := true }) ∧
  (∀ s op, s.phase = .idle → 258 < s.len.toNat →
    op = ExecOp.cksum ∨ op = .validateCmd ∨ op = .validateAddr ∨ op = .validateData →
    hostWrite 0x000 (encode op.instr) s = .next { s with lenerr := true, done := true }) ∧
  (∀ s op, s.phase = .idle → s.len.toNat ≤ 258 →
    op = ExecOp.cksum ∨ op = .validateCmd ∨ op = .validateAddr ∨ op = .validateData →
    hostWrite 0x000 (encode op.instr) s = .next { s with done := false, phase := .exec op }) ∧
  (∀ s, s.phase = .idle → s.len.toNat = 0 ∨ 256 < s.len.toNat →
    hostWrite 0x000 (encode .buildData) s = .next { s with lenerr := true, done := true }) ∧
  (∀ s, s.phase = .idle → 1 ≤ s.len.toNat → s.len.toNat ≤ 256 →
    hostWrite 0x000 (encode .buildData) s =
      .next { s with done := false, phase := .exec .buildData }) ∧
  (∀ s op, s.phase = .idle →
    op = ExecOp.nop ∨ op = .buildCmd ∨ op = .buildAddr ∨ op = .buildSync →
    hostWrite 0x000 (encode op.instr) s = .next { s with done := false, phase := .exec op }) ∧
  (∀ s, s.phase = .idle →
    hostWrite 0x000 (encode .send) s =
      .next { s with done := false, txCount := 0, phase := .send 0 }) ∧
  (∀ s, s.phase = .idle →
    hostWrite 0x000 (encode .ackWait) s = .next
      { s with
        done := false, pdiag := s.diag, diag := [], diagDrop := 0, dovf := false, elapsed := 0
        ackres := .none, phase := .wait .normal }) ∧
  (∀ s, s.phase = .idle →
    hostWrite 0x000 (encode .ackWaitFirst) s = .next
      { s with
        done := false, pdiag := s.diag, diag := [], diagDrop := 0, dovf := false, elapsed := 0
        ackres := .none, phase := .wait .first })

/-- 40_host_access.md R161, R162: a one-step operation completes in its one step; and whenever an
operation's step leaves the phase Idle, DONE is 1. -/
def Obligations.OperationsEndByCompletion : Prop :=
  (∀ op s t, s.phase = .exec op → exec op.instr s = .next t → t.phase = .idle ∧ t.done = true) ∧
  (∀ i s t, s.phase ≠ .idle → exec i s = .next t → t.phase = .idle → t.done = true)

/-! ## The codec's functions -/

/-- 41_checksum.md R190, R191, R192: the three cases. -/
def Obligations.ChecksumHasThreeCases : Prop :=
  checksum [] = 0x00 ∧ (∀ x, checksum [x] = x ^^^ 0xFF) ∧
  (∀ b0 b1 bs, checksum (b0 :: b1 :: bs) = bs.foldl (· ^^^ ·) (b0 ^^^ b1))

/-- 41_checksum.md R193: for two or more bytes the order does not matter, a byte that occurs twice
cancels, and the two corner cases. -/
def Obligations.ChecksumFoldIgnoresOrderAndCancelsPairs : Prop :=
  (∀ b0 b1 bs, checksum (b0 :: b1 :: bs) = (b0 :: b1 :: bs).foldl (· ^^^ ·) 0) ∧
  (∀ s t : List Byte, 2 ≤ s.length → s.Perm t → checksum s = checksum t) ∧
  (∀ x s, 2 ≤ s.length → checksum (x :: x :: s) = checksum s) ∧
  (∀ x, checksum [x, 0x00] = x ∧ checksum [x] = ~~~x) ∧ (∀ x, checksum [x, x] = 0x00)

/-- 41_checksum.md R194: the XOR of a sequence with its checksum appended, and of the three kinds
of frame. -/
def Obligations.WholeFrameXorIsConstant : Prop :=
  (∀ s : List Byte, 2 ≤ s.length → (s ++ [checksum s]).foldl (· ^^^ ·) 0 = (0x00 : Byte)) ∧
  (∀ s : List Byte, s.length = 1 → (s ++ [checksum s]).foldl (· ^^^ ·) 0 = (0xFF : Byte)) ∧
  (∀ s : List Byte, s.length = 0 →
    s ++ [checksum s] = [0x00] ∧ (s ++ [checksum s]).foldl (· ^^^ ·) 0 = (0x00 : Byte)) ∧
  (∀ a, (addrframe a).foldl (· ^^^ ·) 0 = (0x00 : Byte)) ∧
  (∀ p, 1 ≤ p.length → p.length ≤ 256 → (dataframe p).foldl (· ^^^ ·) 0 = (0x00 : Byte)) ∧
  (∀ c, (cmdframe c).foldl (· ^^^ ·) 0 = (0xFF : Byte))

/-- 42_frame_build.md R210, R214, R218 and the source's properties there: shapes, lengths, count
byte, check byte. -/
def Obligations.FramesHaveTheirShapes : Prop :=
  (∀ c, cmdframe c = [c, ~~~c] ∧ cmdframe c = [c] ++ [checksum [c]]) ∧
  (∀ a : Word, ∃ b3 b2 b1 b0 : Byte, a = b3 ++ b2 ++ b1 ++ b0 ∧
    addrframe a = [b3, b2, b1, b0, b3 ^^^ b2 ^^^ b1 ^^^ b0] ∧
    (addrframe a)[4]? = some (checksum ((addrframe a).take 4))) ∧
  (∀ p : List Byte, 1 ≤ p.length → p.length ≤ 256 →
    ∃ n c : Byte, n.toNat = p.length - 1 ∧ dataframe p = n :: p ++ [c] ∧
      c = checksum (n :: p) ∧ c = p.foldl (· ^^^ ·) n ∧ (dataframe p).length = p.length + 2)

/-! ## Checksum and frame builders -/

/-- 41_checksum.md R196: CKSUM, from its word to its result. -/
def Obligations.CksumWritesTheChecksumOfItsInput : Prop :=
  decode 0x00000001 = .ok .cksum ∧
  (∀ s, s.phase = .idle → 258 < s.len.toNat →
    exec .cksum s = .next { s with lenerr := true, done := true }) ∧
  (∀ s, s.phase = .idle → s.len.toNat ≤ 258 →
    exec .cksum s = .next { s with done := false, phase := .exec .cksum }) ∧
  (∀ s bytes, s.phase = .exec .cksum → InputIs s bytes →
    exec .cksum s = .next { s with csum := checksum bytes, phase := .idle, done := true })

/-- 42_frame_build.md R212: BUILD_CMD, from its word to its result, for every ARG. -/
def Obligations.BuildCmdFramesTheLowByteOfArg : Prop :=
  decode 0x00000002 = .ok .buildCmd ∧
  (∀ s, s.phase = .idle → exec .buildCmd s = .next { s with done := false, phase := .exec .buildCmd }) ∧
  (∀ s, s.phase = .exec .buildCmd →
    exec .buildCmd s = .next
      { s with
        frame := [s.arg.extractLsb' 0 8, ~~~ s.arg.extractLsb' 0 8], txCount := 0
        phase := .idle, done := true })

/-- 42_frame_build.md R216: BUILD_ADDR, from its word to its result, for every ARG. -/
def Obligations.BuildAddrFramesArgBigEndian : Prop :=
  decode 0x00000003 = .ok .buildAddr ∧
  (∀ s, s.phase = .idle →
    exec .buildAddr s = .next { s with done := false, phase := .exec .buildAddr }) ∧
  (∀ s (b3 b2 b1 b0 : Byte), s.phase = .exec .buildAddr →
    s.arg = (b3 ++ b2 ++ b1 ++ b0 : BitVec (8 + 8 + 8 + 8)) →
    exec .buildAddr s = .next
      { s with
        frame := [b3, b2, b1, b0, b3 ^^^ b2 ^^^ b1 ^^^ b0], txCount := 0
        phase := .idle, done := true })

/-- 42_frame_build.md R220, R222: BUILD_DATA, from its word to its result; LEN outside 1..256 is
refused with LENERR and DONE and changes nothing else. -/
def Obligations.BuildDataFramesItsInput : Prop :=
  decode 0x00000004 = .ok .buildData ∧
  (∀ s, s.phase = .idle → s.len.toNat = 0 ∨ 256 < s.len.toNat →
    exec .buildData s = .next { s with lenerr := true, done := true }) ∧
  (∀ s, s.phase = .idle → 1 ≤ s.len.toNat → s.len.toNat ≤ 256 →
    exec .buildData s = .next { s with done := false, phase := .exec .buildData }) ∧
  (∀ s p n, s.phase = .exec .buildData → 1 ≤ s.len.toNat → s.len.toNat ≤ 256 → InputIs s p →
    n = BitVec.ofNat 8 (s.len.toNat - 1) →
    exec .buildData s = .next
      { s with
        frame := n :: p ++ [p.foldl (· ^^^ ·) n], txCount := 0, phase := .idle, done := true })

/-- 42_frame_build.md R226: BUILD_SYNC, from its word to its result. -/
def Obligations.BuildSyncFramesTheSyncByte : Prop :=
  decode 0x00000005 = .ok .buildSync ∧
  (∀ s, s.phase = .idle →
    exec .buildSync s = .next { s with done := false, phase := .exec .buildSync }) ∧
  (∀ s, s.phase = .exec .buildSync →
    exec .buildSync s = .next
      { s with frame := [0x7F], txCount := 0, phase := .idle, done := true })

/-- 42_frame_build.md R236: NOP, from its word to its completion. -/
def Obligations.NopOnlyCompletes : Prop :=
  decode 0x00000000 = .ok .nop ∧
  (∀ s, s.phase = .idle → exec .nop s = .next { s with done := false, phase := .exec .nop }) ∧
  (∀ s, s.phase = .exec .nop → exec .nop s = .next { s with phase := .idle, done := true })

/-! ## SEND -/

/-- 42_frame_build.md R228, R230, R232: SEND's acceptance, its byte step and its completion step
(which needs neither `tx_ready` nor a sound transport). That the last case of R230, "no step", answers
the state unchanged is the model's choice (log entry 1). -/
def Obligations.SendStepsThroughTheFrame : Prop :=
  decode 0x00000008 = .ok .send ∧
  (∀ s, s.phase = .idle →
    exec .send s = .next { s with done := false, txCount := 0, phase := .send 0 }) ∧
  (∀ s i b, s.phase = .send i → s.frame[i]? = some b → s.xerrIn = true →
    exec .send s = .next { s with xerr := true, phase := .idle, done := true }) ∧
  (∀ s i b, s.phase = .send i → s.frame[i]? = some b → s.xerrIn = false → s.txReady = true →
    exec .send s = .next
      { s with txlog := s.txlog ++ [b], txCount := i + 1, phase := .send (i + 1) }) ∧
  (∀ s i b, s.phase = .send i → s.frame[i]? = some b → s.xerrIn = false → s.txReady = false →
    exec .send s = .next s) ∧
  (∀ s i, s.phase = .send i → i = s.frame.length →
    exec .send s = .next { s with phase := .idle, done := true })

/-- 42_frame_build.md R230, R232, R92, R238: with a ready and sound transport, the sequencer steps of
a SEND at byte `i` append exactly the rest of FRAME to the TX stream, in order, and complete with
TX_COUNT = FRAME_LEN. The schedule it supposes is a list of the model's (log entry 1). -/
def Obligations.SendTransmitsTheWholeFrameInOrder : Prop :=
  ∀ (s : State) (i : Nat) (rest : List AgentStep),
    s.rst = false → s.xerrIn = false → s.txReady = true → s.phase = .send i → i = s.txCount →
    i ≤ s.frame.length →
    s.schedule = List.replicate (s.frame.length - i + 1) .sequencer ++ rest →
    Sys2Proof.core.run (s.frame.length - i + 1) s = .next
      { s with
        txlog := s.txlog ++ s.frame.drop i, txCount := s.frame.length
        phase := .idle, done := true, schedule := rest }

/-! ## Validators -/

/-- 43_frame_validate.md R254: VALIDATE_CMD, from its word to its verdict on a written input (where a
cell of it is unwritten: OperationsStopOnlyOnUnwrittenInput). -/
def Obligations.ValidateCmdChecksTheComplement : Prop :=
  decode 0x00000020 = .ok .validateCmd ∧
  (∀ s, s.phase = .idle → 258 < s.len.toNat →
    exec .validateCmd s = .next { s with lenerr := true, done := true }) ∧
  (∀ s, s.phase = .idle → s.len.toNat ≤ 258 →
    exec .validateCmd s = .next { s with done := false, phase := .exec .validateCmd }) ∧
  (∀ s, s.phase = .exec .validateCmd → s.len.toNat ≠ 2 → InputWritten s →
    exec .validateCmd s = .next
      { s with valid := false, verr := .length, phase := .idle, done := true }) ∧
  (∀ s b0 b1, s.phase = .exec .validateCmd → s.len.toNat = 2 → s.ibuf.read 0 = some b0 →
    s.ibuf.read 1 = some b1 →
    exec .validateCmd s = .next
      (if b1 = ~~~b0 then
        { s with csum := ~~~b0, valid := true, verr := .ok, phase := .idle, done := true }
      else
        { s with csum := ~~~b0, valid := false, verr := .checksum, phase := .idle, done := true }))

/-- 43_frame_validate.md R258: VALIDATE_ADDR, from its word to its verdict and VADDR, on a written input
(where a cell of it is unwritten: OperationsStopOnlyOnUnwrittenInput). -/
def Obligations.ValidateAddrChecksTheXorAndDecodes : Prop :=
  decode 0x00000021 = .ok .validateAddr ∧
  (∀ s, s.phase = .idle → 258 < s.len.toNat →
    exec .validateAddr s = .next { s with lenerr := true, done := true }) ∧
  (∀ s, s.phase = .idle → s.len.toNat ≤ 258 →
    exec .validateAddr s = .next { s with done := false, phase := .exec .validateAddr }) ∧
  (∀ s, s.phase = .exec .validateAddr → s.len.toNat ≠ 5 → InputWritten s →
    exec .validateAddr s = .next
      { s with valid := false, verr := .length, phase := .idle, done := true }) ∧
  (∀ s b0 b1 b2 b3 b4 c, s.phase = .exec .validateAddr → s.len.toNat = 5 →
    s.ibuf.read 0 = some b0 → s.ibuf.read 1 = some b1 → s.ibuf.read 2 = some b2 →
    s.ibuf.read 3 = some b3 → s.ibuf.read 4 = some b4 → c = b0 ^^^ b1 ^^^ b2 ^^^ b3 →
    exec .validateAddr s = .next
      (if b4 = c then
        { s with
          csum := c, vaddr := b0 ++ b1 ++ b2 ++ b3, valid := true, verr := .ok
          phase := .idle, done := true }
      else
        { s with csum := c, valid := false, verr := .checksum, phase := .idle, done := true }))

/-- 43_frame_validate.md R262: VALIDATE_DATA, from its word to its verdict on a written input (where a
cell of it is unwritten: OperationsStopOnlyOnUnwrittenInput). -/
def Obligations.ValidateDataChecksLengthCountChecksum : Prop :=
  decode 0x00000022 = .ok .validateData ∧
  (∀ s, s.phase = .idle → 258 < s.len.toNat →
    exec .validateData s = .next { s with lenerr := true, done := true }) ∧
  (∀ s, s.phase = .idle → s.len.toNat ≤ 258 →
    exec .validateData s = .next { s with done := false, phase := .exec .validateData }) ∧
  (∀ s, s.phase = .exec .validateData → s.len.toNat < 3 → InputWritten s →
    exec .validateData s = .next
      { s with valid := false, verr := .length, phase := .idle, done := true }) ∧
  (∀ s b0, s.phase = .exec .validateData → 3 ≤ s.len.toNat → InputWritten s →
    s.ibuf.read 0 = some b0 → b0.toNat ≠ s.len.toNat - 3 →
    exec .validateData s = .next
      { s with valid := false, verr := .count, phase := .idle, done := true }) ∧
  (∀ s n body got c, s.phase = .exec .validateData → 3 ≤ s.len.toNat →
    InputIs s (n :: body ++ [got]) → n.toNat = s.len.toNat - 3 → c = body.foldl (· ^^^ ·) n →
    exec .validateData s = .next
      (if got = c then
        { s with csum := c, valid := true, verr := .ok, phase := .idle, done := true }
      else
        { s with csum := c, valid := false, verr := .checksum, phase := .idle, done := true }))

/-- 43_frame_validate.md R264: each validator accepts exactly the frames its builder makes. -/
def Obligations.ValidatorsAcceptExactlyTheBuiltFrames : Prop :=
  (∀ s f, s.phase = .exec .validateCmd → InputIs s f →
    ∃ t, exec .validateCmd s = .next t ∧ (t.valid = true ↔ ∃ c, f = cmdframe c)) ∧
  (∀ s f, s.phase = .exec .validateAddr → InputIs s f →
    ∃ t, exec .validateAddr s = .next t ∧ (t.valid = true ↔ ∃ a, f = addrframe a) ∧
      ∀ a, f = addrframe a → t.vaddr = a) ∧
  (∀ s f, s.phase = .exec .validateData → InputIs s f →
    ∃ t, exec .validateData s = .next t ∧
      (t.valid = true ↔ ∃ p, 1 ≤ p.length ∧ p.length ≤ 256 ∧ f = dataframe p))

/-- 43_frame_validate.md R266: what the check byte detects. Any change within one byte is detected
(a change of a data frame's count byte as COUNT); the same bits changed in two bytes are not, unless
one is a data frame's count byte. -/
def Obligations.CheckByteDetectsOneByteChanges : Prop :=
  (∀ s a i d, s.phase = .exec .validateAddr → i < 5 → d ≠ 0 →
    InputIs s (flipBits i d (addrframe a)) →
    ∃ t, exec .validateAddr s = .next t ∧ t.valid = false ∧ t.verr = .checksum) ∧
  (∀ s p i d, s.phase = .exec .validateData → 1 ≤ p.length → p.length ≤ 256 →
    i < p.length + 2 → d ≠ 0 → InputIs s (flipBits i d (dataframe p)) →
    ∃ t, exec .validateData s = .next t ∧ t.valid = false ∧
      t.verr = if i = 0 then .count else .checksum) ∧
  (∀ s c i d, s.phase = .exec .validateCmd → i < 2 → d ≠ 0 →
    InputIs s (flipBits i d (cmdframe c)) →
    ∃ t, exec .validateCmd s = .next t ∧ t.valid = false ∧ t.verr = .checksum) ∧
  (∀ s a i j d, s.phase = .exec .validateAddr → i < j → j < 5 →
    InputIs s (flipBits i d (flipBits j d (addrframe a))) →
    ∃ t, exec .validateAddr s = .next t ∧ t.valid = true) ∧
  (∀ s p i j d, s.phase = .exec .validateData → 1 ≤ p.length → p.length ≤ 256 →
    i < j → j < p.length + 2 → d ≠ 0 → InputIs s (flipBits i d (flipBits j d (dataframe p))) →
    ∃ t, exec .validateData s = .next t ∧ (t.valid = true ↔ i ≠ 0))

/-! ## Waits -/

/-- 44_ack_detect.md R282, R296: both waits' words and acceptance: the previous buffer moves to
PDIAG, the wait's own results start empty, and nothing else changes. A deadline of 0 times out after
one tick. -/
def Obligations.WaitAcceptanceStartsAFreshBuffer : Prop :=
  decode 0x00000010 = .ok .ackWait ∧ decode 0x00000011 = .ok .ackWaitFirst ∧
  (∀ s, s.phase = .idle →
    exec .ackWait s = .next
      { s with
        done := false, pdiag := s.diag, diag := [], diagDrop := 0, dovf := false, elapsed := 0
        ackres := .none, phase := .wait .normal }) ∧
  (∀ s, s.phase = .idle →
    exec .ackWaitFirst s = .next
      { s with
        done := false, pdiag := s.diag, diag := [], diagDrop := 0, dovf := false, elapsed := 0
        ackres := .none, phase := .wait .first }) ∧
  (∀ s, s.phase = .wait .normal → s.xerrIn = false → s.deadline = 0 → s.elapsed = 1 →
    exec .ackWait s = .next { s with ackres := .timedOut, phase := .idle, done := true })

/-- 44_ack_detect.md R286, R288, R290: the step of ACK_WAIT makes the first decision whose condition
holds; an "other" byte goes to DIAG, or is dropped and counted; an ending decision is R292's finish or
60_exceptions.md R334. That case 4 of R286, "no step", answers the state unchanged is the model's
choice (log entry 1). -/
def Obligations.AckWaitDecidesFailureThenTimeoutThenByte : Prop :=
  ∀ s, s.phase = .wait .normal →
    (s.xerrIn = true →
      exec .ackWait s = .next
        { s with xerr := true, ackres := .timedOut, phase := .idle, done := true }) ∧
    (s.xerrIn = false → s.deadline.toNat < s.elapsed →
      exec .ackWait s = .next { s with ackres := .timedOut, phase := .idle, done := true }) ∧
    (s.xerrIn = false → s.elapsed ≤ s.deadline.toNat → s.rxq = [] → exec .ackWait s = .next s) ∧
    (∀ b rest, s.xerrIn = false → s.elapsed ≤ s.deadline.toNat → s.rxq = b :: rest →
      (b = 0x79 → exec .ackWait s = .next
        { s with rxq := rest, ackres := .acked, phase := .idle, done := true }) ∧
      (b = 0x1F → exec .ackWait s = .next
        { s with rxq := rest, ackres := .nacked, phase := .idle, done := true }) ∧
      (b ≠ 0x79 → b ≠ 0x1F → s.diag.length < s.diagCap → exec .ackWait s = .next
        { s with rxq := rest, diag := s.diag ++ [b] }) ∧
      (b ≠ 0x79 → b ≠ 0x1F → s.diagCap ≤ s.diag.length → exec .ackWait s = .next
        { s with
          rxq := rest, dovf := true
          diagDrop := BitVec.ofNat 16 (min (s.diagDrop.toNat + 1) 0xFFFF) }))

/-- 44_ack_detect.md R298 with the decisions of R286, the append of R290, the finish of R292 and
60_exceptions.md R334: the step of ACK_WAIT_FIRST: the first byte taken ends the wait, and a byte other
than ACK goes to DIAG, or is dropped and counted. That case 4 of R286, "no step", answers the state
unchanged is the model's choice (log entry 1). -/
def Obligations.AckWaitFirstEndsAtTheFirstByte : Prop :=
  ∀ s, s.phase = .wait .first →
    (s.xerrIn = true →
      exec .ackWaitFirst s = .next
        { s with xerr := true, ackres := .timedOut, phase := .idle, done := true }) ∧
    (s.xerrIn = false → s.deadline.toNat < s.elapsed →
      exec .ackWaitFirst s = .next { s with ackres := .timedOut, phase := .idle, done := true }) ∧
    (s.xerrIn = false → s.elapsed ≤ s.deadline.toNat → s.rxq = [] →
      exec .ackWaitFirst s = .next s) ∧
    (∀ b rest, s.xerrIn = false → s.elapsed ≤ s.deadline.toNat → s.rxq = b :: rest →
      (b = 0x79 → exec .ackWaitFirst s = .next
        { s with rxq := rest, ackres := .acked, phase := .idle, done := true }) ∧
      (b ≠ 0x79 → s.diag.length < s.diagCap → exec .ackWaitFirst s = .next
        { s with
          rxq := rest, diag := s.diag ++ [b], ackres := .nacked, phase := .idle, done := true }) ∧
      (b ≠ 0x79 → s.diagCap ≤ s.diag.length → exec .ackWaitFirst s = .next
        { s with
          rxq := rest, dovf := true
          diagDrop := BitVec.ofNat 16 (min (s.diagDrop.toNat + 1) 0xFFFF)
          ackres := .nacked, phase := .idle, done := true }))

/-- 44_ack_detect.md R288, R290, R292, R294 over a whole run: given bytes that are neither ACK nor
NACK and then a terminator, the wait ends with the terminator's result, DIAG holds the bytes as far
as it has room, the rest are counted, and nothing beyond the terminator is taken. The schedule it
supposes is a list of the model's (log entry 1). -/
def Obligations.WaitCollectsUntilItsTerminator : Prop :=
  ∀ (s : State) (xs rest : List Byte) (b : Byte) (r : AckRes) (sched : List AgentStep),
    s.rst = false → s.xerrIn = false → s.phase = .wait .normal → s.elapsed ≤ s.deadline.toNat →
    s.rxq = xs ++ b :: rest → (∀ x ∈ xs, x ≠ 0x79 ∧ x ≠ 0x1F) →
    (b = 0x79 ∧ r = .acked) ∨ (b = 0x1F ∧ r = .nacked) →
    s.diag.length ≤ s.diagCap →
    s.schedule = List.replicate (xs.length + 1) .sequencer ++ sched →
    Sys2Proof.core.run (xs.length + 1) s = .next
      { s with
        rxq := rest, diag := s.diag ++ xs.take (s.diagCap - s.diag.length)
        diagDrop := BitVec.ofNat 16
          (min (s.diagDrop.toNat + (xs.length - (s.diagCap - s.diag.length))) 0xFFFF)
        dovf := s.dovf || decide (s.diagCap - s.diag.length < xs.length)
        ackres := r, phase := .idle, done := true, schedule := sched }

/-- 44_ack_detect.md R284, R286, R294 over a whole run: once DEADLINE + 1 ticks have come, the next
sequencer step of a wait of either mode times out and takes no byte, whatever `rxq` holds. The order of
ticks and sequencer steps is the schedule's (log entry 1), and 92_eei_decisions.md D18 and D19 warn that
a claim about a byte at the last tick may differ on an implementation by one tick: the statement is
about this model's atomic steps only (log entry 22). -/
def Obligations.WaitTimesOutAfterItsDeadline : Prop :=
  ∀ (s : State) (m : WaitMode) (sched : List AgentStep),
    s.rst = false → s.xerrIn = false → s.phase = .wait m → s.elapsed ≤ s.deadline.toNat →
    s.schedule =
      List.replicate (s.deadline.toNat + 1 - s.elapsed) .time ++ .sequencer :: sched →
    Sys2Proof.core.run (s.deadline.toNat + 1 - s.elapsed + 1) s = .next
      { s with
        elapsed := s.deadline.toNat + 1, ackres := .timedOut, phase := .idle, done := true
        schedule := sched }

/-- 60_exceptions.md R334: what a failed transport does to a SEND and to a wait of either mode. -/
def Obligations.TransportFailureEndsSendAndWait : Prop :=
  (∀ s i, s.phase = .send i → i < s.frame.length → s.xerrIn = true →
    exec .send s = .next { s with xerr := true, phase := .idle, done := true }) ∧
  (∀ s, s.phase = .wait .normal → s.xerrIn = true →
    exec .ackWait s = .next
      { s with xerr := true, ackres := .timedOut, phase := .idle, done := true }) ∧
  (∀ s, s.phase = .wait .first → s.xerrIn = true →
    exec .ackWaitFirst s = .next
      { s with xerr := true, ackres := .timedOut, phase := .idle, done := true })

/-! ## What an operation leaves unchanged -/

/-- 10_state.md R38: operations read ARG, LEN and DEADLINE and never write them. -/
def Obligations.OperationsNeverWriteTheOperandRegisters : Prop :=
  ∀ i s t, exec i s = .next t → t.arg = s.arg ∧ t.len = s.len ∧ t.deadline = s.deadline

/-- Frame of every operation (70_reset_and_hazards.md R377: "FCAD does not clear IBUF"): no operation
stores to IBUF, drives an input, moves the host or the schedule, or changes the parameter. That
`bus_rdata` keeps its value outside a read is the model's choice (log entry 9). -/
def Obligations.OperationsLeaveInputAndEnvironmentAlone : Prop :=
  ∀ i s t, exec i s = .next t →
    (∀ a, t.ibuf.read a = s.ibuf.read a) ∧ t.rst = s.rst ∧ t.txReady = s.txReady ∧
    t.xerrIn = s.xerrIn ∧ t.busRdata = s.busRdata ∧ t.program = s.program ∧
    t.schedule = s.schedule ∧ t.diagCap = s.diagCap ∧ t.freeReads = s.freeReads

/-- Frame of every operation (10_state.md R50, 43_frame_validate.md R250, 44_ack_detect.md R304):
each result belongs to the operations that write it, and every other operation leaves it. -/
def Obligations.EachResultIsWrittenOnlyByItsOperations : Prop :=
  ∀ i s t, exec i s = .next t →
    t.illop = s.illop ∧
    (i ≠ .ackWait → i ≠ .ackWaitFirst →
      t.ackres = s.ackres ∧ t.diag = s.diag ∧ t.pdiag = s.pdiag ∧ t.diagDrop = s.diagDrop ∧
      t.dovf = s.dovf ∧ t.elapsed = s.elapsed ∧ t.rxq = s.rxq) ∧
    (i ≠ .validateCmd → i ≠ .validateAddr → i ≠ .validateData →
      t.valid = s.valid ∧ t.verr = s.verr ∧ (i ≠ .cksum → t.csum = s.csum)) ∧
    (i ≠ .validateAddr → t.vaddr = s.vaddr) ∧
    (i ≠ .buildCmd → i ≠ .buildAddr → i ≠ .buildData → i ≠ .buildSync →
      t.frame = s.frame ∧ (i ≠ .send → t.txCount = s.txCount)) ∧
    (i ≠ .send → t.txlog = s.txlog ∧ (i ≠ .ackWait → i ≠ .ackWaitFirst → t.xerr = s.xerr)) ∧
    (i ≠ .cksum → i ≠ .buildData → i ≠ .validateCmd → i ≠ .validateAddr → i ≠ .validateData →
      t.lenerr = s.lenerr)

/-! ## Rules about every step -/

/-- 60_exceptions.md R332: ILLOP, LENERR, BUSYERR and XERR stay set until a STATUS write with their
bit set, or reset; no operation reads them, so none stops a command; DONE is the one W1C bit that acceptance also clears. -/
def Obligations.ErrorBitsAreStickyAndNeverRead : Prop :=
  (∀ s t, step s = .next t → s.rst = false → (∀ rest, s.schedule ≠ .reset true :: rest) →
    (s.busyerr = true → ¬ ClearsStatusBit s 9 → t.busyerr = true) ∧
    (s.illop = true → ¬ ClearsStatusBit s 10 → t.illop = true) ∧
    (s.lenerr = true → ¬ ClearsStatusBit s 11 → t.lenerr = true) ∧
    (s.xerr = true → ¬ ClearsStatusBit s 12 → t.xerr = true)) ∧
  (∀ i s t a b c d, exec i s = .next t →
    ∃ u, exec i { s with illop := a, lenerr := b, busyerr := c, xerr := d } = .next u ∧
      { u with illop := t.illop, lenerr := t.lenerr, busyerr := t.busyerr, xerr := t.xerr } = t) ∧
  (∀ i s t, s.phase = .idle → exec i s = .next t → t.phase ≠ .idle →
    t.done = false ∧ t.illop = s.illop ∧ t.lenerr = s.lenerr ∧
    t.busyerr = s.busyerr ∧ t.xerr = s.xerr)

/-- 20_memory.md R92: the TX stream grows only by the SEND's byte at its index, one per step, and the
index moves on; the RX stream loses only its front byte, in a wait, and otherwise keeps its order. -/
def Obligations.StreamsMoveOneByteAtATimeInOrder : Prop :=
  ∀ s t, step s = .next t →
    (t.txlog = s.txlog ∨ ∃ i b, s.phase = .send i ∧ s.frame[i]? = some b ∧
      t.txlog = s.txlog ++ [b] ∧ t.phase = .send (i + 1) ∧ t.frame = s.frame) ∧
    (t.rxq = s.rxq ∨ (∃ m b, s.phase = .wait m ∧ s.rxq = b :: t.rxq) ∨
      ∃ b rest, s.schedule = .transport (.deliver b) :: rest ∧ t.rxq = s.rxq ++ [b])

/-- 10_state.md R36 and R46 (c): a Transport step appends its byte to `rxq`, or changes the level of
`tx_ready` or of `xport_err`, and nothing else changes (but that the schedule moves on: log entry 1). -/
def Obligations.TransportStepsChangeOnlyTheirOwnSignal : Prop :=
  (∀ s b rest, s.rst = false → s.schedule = .transport (.deliver b) :: rest →
    step s = .next { s with schedule := rest, rxq := s.rxq ++ [b] }) ∧
  (∀ s level rest, s.rst = false → s.schedule = .transport (.setTxReady level) :: rest →
    step s = .next { s with schedule := rest, txReady := level }) ∧
  (∀ s level rest, s.rst = false → s.schedule = .transport (.setXportErr level) :: rest →
    step s = .next { s with schedule := rest, xerrIn := level })

/-- 10_state.md R32, R33, R34 (and R36 for `rx_valid`): when the ports are driven, and that in a
Sequencer step a byte moves on a port exactly when the port's valid and ready are both 1, whatever the
Sequencer's step else decides. R33 and R34 say "only while": when `tx_valid` and `rx_ready` are 1 inside
Send(i) and a wait is read from R32 with 42_frame_build.md R230 and 44_ack_detect.md R286 (log entry 21). -/
def Obligations.BytesMoveOnlyByTheHandshake : Prop :=
  (∀ s, txValid s = true ↔ s.xerrIn = false ∧ ∃ i, s.phase = .send i ∧ i < s.frame.length) ∧
  (∀ s i, s.phase = .send i → txData s = s.frame[i]?) ∧
  (∀ s, rxReady s = true ↔
    s.xerrIn = false ∧ s.elapsed ≤ s.deadline.toNat ∧ ∃ m, s.phase = .wait m) ∧
  (∀ i s t, exec i s = .next t →
    (t.txlog ≠ s.txlog → txValid s = true ∧ s.txReady = true ∧
      ∃ b, txData s = some b ∧ t.txlog = s.txlog ++ [b]) ∧
    (t.rxq ≠ s.rxq → rxReady s = true ∧ rxValid s = true ∧
      ∃ b, rxData s = some b ∧ s.rxq = b :: t.rxq)) ∧
  (∀ s rest, s.rst = false → s.schedule = .sequencer :: rest → txValid s = true →
    s.txReady = true →
    ∃ b t, txData s = some b ∧ step s = .next t ∧ t.txlog = s.txlog ++ [b]) ∧
  (∀ s rest, s.rst = false → s.schedule = .sequencer :: rest → rxReady s = true →
    rxValid s = true →
    ∃ b t, rxData s = some b ∧ step s = .next t ∧ s.rxq = b :: t.rxq)

/-- 10_state.md R35: `xport_err` is sampled only by sequencer steps in `Send` and `Wait`: any other
step does the same whatever its level. -/
def Obligations.TransportErrorMattersOnlyInSendAndWait : Prop :=
  (∀ s t level, step s = .next t →
    (∀ rest, s.schedule = .sequencer :: rest →
      (∀ i, s.phase ≠ .send i) ∧ ∀ m, s.phase ≠ .wait m) →
    (∀ rest l, s.schedule ≠ .transport (.setXportErr l) :: rest) →
    step { s with xerrIn := level } = .next { t with xerrIn := level }) ∧
  (∀ s rest i, s.rst = false → s.xerrIn = true → s.schedule = .sequencer :: rest →
    s.phase = .send i → i < s.frame.length →
    ∃ t, step s = .next t ∧ t.xerr = true ∧ t.phase = .idle) ∧
  (∀ s rest m, s.rst = false → s.xerrIn = true → s.schedule = .sequencer :: rest →
    s.phase = .wait m →
    ∃ t, step s = .next t ∧ t.xerr = true ∧ t.ackres = .timedOut ∧ t.phase = .idle)

/-- 70_reset_and_hazards.md R372: no step but the sequencer's and a reset changes the phase of a
running operation. -/
def Obligations.OnlyTheSequencerOrResetEndsAnOperation : Prop :=
  ∀ s t, step s = .next t → s.phase ≠ .idle → s.rst = false →
    (∀ rest, s.schedule ≠ .sequencer :: rest) → (∀ rest, s.schedule ≠ .reset true :: rest) →
    t.phase = s.phase

/-- 93_implementation_defined.md U1 (treatment: fault; log entry 6) and 70_reset_and_hazards.md R377: an
operation stops only where its input has a cell not written since reset; CKSUM, BUILD_DATA and the
VALIDATE operations stop there always, since each reads cells 0..LEN-1 at its Exec step; nothing is
refused. That a VALIDATE operation reads the cells whose bytes its verdict does not need is R377's word
against the pseudocode's (log entry 7). -/
def Obligations.OperationsStopOnlyOnUnwrittenInput : Prop :=
  (∀ i s f, exec i s = .fault f → ∃ k, k < s.len.toNat ∧ s.ibuf.read k = none) ∧
  (∀ i s r, exec i s ≠ .refused r) ∧
  (∀ s k, s.phase = .exec .cksum → k < s.len.toNat → s.ibuf.read k = none →
    exec .cksum s = .fault .ibufUnwritten) ∧
  (∀ s k, s.phase = .exec .buildData → k < s.len.toNat → s.ibuf.read k = none →
    exec .buildData s = .fault .ibufUnwritten) ∧
  (∀ s k, s.phase = .exec .validateCmd → k < s.len.toNat → s.ibuf.read k = none →
    exec .validateCmd s = .fault .ibufUnwritten) ∧
  (∀ s k, s.phase = .exec .validateAddr → k < s.len.toNat → s.ibuf.read k = none →
    exec .validateAddr s = .fault .ibufUnwritten) ∧
  (∀ s k, s.phase = .exec .validateData → k < s.len.toNat → s.ibuf.read k = none →
    exec .validateData s = .fault .ibufUnwritten)

/-- 70_reset_and_hazards.md R377: with `IBUF[0..LEN]` written, every operation answers a next state,
in every phase. -/
def Obligations.EveryOperationRunsOnWrittenInput : Prop :=
  ∀ i s, InputWritten s → ∃ t, exec i s = .next t

/-- 30_encoding.md R127: well-formed `wrb` and `rdb` statements reach the cells they name, and
`op M` is the write that issues M. -/
def Obligations.AssembledStatementsReachTheirTargets : Prop :=
  (∀ i v, (Stmt.wrb i v).wellFormed = true →
    ∃ off, assemble (.wrb i v) = [.write off (v.setWidth 32)] ∧ target off = .ibuf i) ∧
  (∀ i, (Stmt.rdb .frame i).wellFormed = true →
    ∃ off, assemble (.rdb .frame i) = [.read off] ∧ target off = .frame i) ∧
  (∀ i, (Stmt.rdb .diag i).wellFormed = true →
    ∃ off, assemble (.rdb .diag i) = [.read off] ∧ target off = .diag i) ∧
  (∀ i, (Stmt.rdb .pdiag i).wellFormed = true →
    ∃ off, assemble (.rdb .pdiag i) = [.read off] ∧ target off = .pdiag i) ∧
  (∀ m, ∃ off w, assemble (.op m) = [.write off w] ∧ target off = .reg .cmd ∧ decode w = .ok m)
end

