-- ==== Sys2Proof/Laws/Codec.lean ====
section
/-! SUPPORT. The algebra of the XOR fold (41_checksum.md R193) and of the frames' lengths. -/

namespace Sys2Proof.Machine

theorem foldl_xor (bs : List Byte) (v : Byte) : bs.foldl (· ^^^ ·) v = v ^^^ xorFold bs := by
  induction bs generalizing v with
  | nil => simp [xorFold]
  | cons b bs ih =>
    simp only [xorFold, List.foldl_cons]
    rw [ih, ih (0 ^^^ b)]
    simp [BitVec.xor_assoc]

@[simp] theorem xorFold_nil : xorFold [] = 0 := rfl

@[simp] theorem xorFold_cons (b : Byte) (bs : List Byte) :
    xorFold (b :: bs) = b ^^^ xorFold bs := by
  rw [xorFold, List.foldl_cons, foldl_xor]
  simp

@[simp] theorem xorFold_append (s t : List Byte) :
    xorFold (s ++ t) = xorFold s ^^^ xorFold t := by
  induction s with
  | nil => simp
  | cons b s ih => simp [ih, BitVec.xor_assoc]

/-- The order of the bytes does not change the XOR. -/
theorem xorFold_perm {s t : List Byte} (h : s.Perm t) : xorFold s = xorFold t := by
  induction h with
  | nil => rfl
  | cons b _ ih => simp [ih]
  | swap a b s =>
    simp only [xorFold_cons, ← BitVec.xor_assoc]
    rw [BitVec.xor_comm a b]
  | trans _ _ ih₁ ih₂ => exact ih₁.trans ih₂

@[simp] theorem checksum_nil : checksum [] = 0 := rfl

@[simp] theorem checksum_single (x : Byte) : checksum [x] = ~~~x := rfl

/-- The fold case of the checksum (41_checksum.md R193). -/
theorem checksum_fold {s : List Byte} (h : 2 ≤ s.length) : checksum s = xorFold s := by
  match s, h with
  | b0 :: b1 :: bs, _ => rfl

@[simp] theorem cmdframe_length (c : Byte) : (cmdframe c).length = 2 := rfl

@[simp] theorem addrframe_length (a : Word) : (addrframe a).length = 5 := rfl

@[simp] theorem dataframe_length (p : List Byte) : (dataframe p).length = p.length + 2 := by
  simp [dataframe]

/-- A data frame's check byte is a fold: its input has at least two bytes (30_encoding.md R113). -/
theorem dataframe_checksum {p : List Byte} (h : 1 ≤ p.length) :
    checksum (countByte p :: p) = countByte p ^^^ xorFold p := by
  rw [checksum_fold (by simp; omega), xorFold_cons]

end Sys2Proof.Machine
end

