-- ==== Sys2Proof/Laws/Memory.lean ====
section
/-! SUPPORT. IBUF: read after write, the canonical form, and what a range of cells reads as. -/

namespace Sys2Proof.Machine

/-- A cell just written reads as the byte written, every other cell as before. -/
theorem Memory.read_write (m : Memory) (a : Nat) (b : Byte) (c : Nat) :
    (m.write a b).read c = if c = a then some b else m.read c := by
  induction m with
  | nil => simp [Memory.write, Memory.read, eq_comm]
  | cons e m ih =>
    obtain ⟨k, x⟩ := e
    simp only [Memory.write]
    split
    · simp [Memory.read, eq_comm]
    · split
      · rename_i h
        subst h
        by_cases hc : a = c <;> simp [Memory.read, hc, eq_comm]
      · by_cases hc : c = a
        · subst hc
          simp [Memory.read, eq_comm, *]
        · simp [Memory.read, ih, hc]

theorem Memory.read_write_same (m : Memory) (a : Nat) (b : Byte) :
    (m.write a b).read a = some b := by simp [Memory.read_write]

theorem Memory.read_write_ne (m : Memory) {a c : Nat} (b : Byte) (h : c ≠ a) :
    (m.write a b).read c = m.read c := by simp [Memory.read_write, h]

theorem Memory.wfFrom_mono {lo lo' : Nat} {m : Memory} (h : lo' ≤ lo) (hm : m.wfFrom lo = true) :
    m.wfFrom lo' = true := by
  cases m with
  | nil => rfl
  | cons e m =>
    obtain ⟨k, x⟩ := e
    simp only [Memory.wfFrom, Bool.and_eq_true, decide_eq_true_eq] at hm ⊢
    exact ⟨⟨by omega, hm.1.2⟩, hm.2⟩

theorem Memory.wfFrom_write {m : Memory} {a : Nat} (b : Byte) (ha : a < Config.bufCap) :
    ∀ {lo : Nat}, lo ≤ a → m.wfFrom lo = true → (m.write a b).wfFrom lo = true := by
  induction m with
  | nil =>
    intro lo hlo _
    simp [Memory.write, Memory.wfFrom, hlo, ha]
  | cons e m ih =>
    obtain ⟨k, x⟩ := e
    intro lo hlo hm
    simp only [Memory.wfFrom, Bool.and_eq_true, decide_eq_true_eq] at hm
    obtain ⟨⟨h1, h2⟩, h3⟩ := hm
    simp only [Memory.write]
    split
    · simp only [Memory.wfFrom, Bool.and_eq_true, decide_eq_true_eq]
      exact ⟨⟨hlo, ha⟩, ⟨by omega, h2⟩, h3⟩
    · split
      · rename_i h
        subst h
        simp only [Memory.wfFrom, Bool.and_eq_true, decide_eq_true_eq]
        exact ⟨⟨hlo, ha⟩, h3⟩
      · simp only [Memory.wfFrom, Bool.and_eq_true, decide_eq_true_eq]
        exact ⟨⟨h1, h2⟩, ih (by omega) h3⟩

/-- The one operation that changes IBUF cell by cell keeps its canonical form. -/
theorem Memory.wf_write {m : Memory} {a : Nat} (b : Byte) (ha : a < Config.bufCap)
    (hm : m.wf = true) : (m.write a b).wf = true :=
  Memory.wfFrom_write b ha (Nat.zero_le _) hm

theorem Memory.wf_nil : Memory.wf [] = true := rfl

/-- `readRange` answers exactly the list of the cells' bytes. -/
theorem Memory.readRange_eq_some {m : Memory} {n : Nat} : ∀ {a : Nat} {bs : List Byte},
    m.readRange a n = some bs ↔ bs.length = n ∧ ∀ k, k < bs.length → m.read (a + k) = bs[k]? := by
  induction n with
  | zero =>
    intro a bs
    simp only [Memory.readRange, Option.some.injEq]
    constructor
    · rintro rfl; simp
    · intro h; exact (List.eq_nil_of_length_eq_zero h.1).symm
  | succ n ih =>
    intro a bs
    constructor
    · intro h
      simp only [Memory.readRange] at h
      split at h
      · rename_i b bs' hb hbs
        cases h
        obtain ⟨hl, hk⟩ := ih.mp hbs
        refine ⟨by simp [hl], ?_⟩
        intro k hk'
        cases k with
        | zero => simpa using hb
        | succ k =>
          have := hk k (by simpa using hk')
          rw [show a + (k + 1) = a + 1 + k by omega, this]
          simp
      · cases h
    · rintro ⟨hl, hk⟩
      cases bs with
      | nil => simp at hl
      | cons b bs =>
        have h0 : m.read a = some b := by simpa using hk 0 (by simp)
        have h1 : m.readRange (a + 1) n = some bs := ih.mpr ⟨by simpa using hl, by
          intro k hk'
          have := hk (k + 1) (by simpa using hk')
          rw [show a + 1 + k = a + (k + 1) by omega, this]
          simp⟩
        simp [Memory.readRange, h0, h1]

/-- `readRange` fails exactly where a cell of the range has not been written. -/
theorem Memory.readRange_eq_none {m : Memory} {n : Nat} : ∀ {a : Nat},
    m.readRange a n = none ↔ ∃ k, k < n ∧ m.read (a + k) = none := by
  induction n with
  | zero => intro a; simp [Memory.readRange]
  | succ n ih =>
    intro a
    cases h0 : m.read a with
    | none =>
      simp only [Memory.readRange, h0, true_iff]
      exact ⟨0, by omega, by simpa using h0⟩
    | some b =>
      have h : m.readRange a (n + 1) = none ↔ m.readRange (a + 1) n = none := by
        simp only [Memory.readRange, h0]
        cases m.readRange (a + 1) n <;> simp
      rw [h, ih]
      constructor
      · rintro ⟨k, hk, hr⟩
        exact ⟨k + 1, by omega, by rw [show a + (k + 1) = a + 1 + k by omega]; exact hr⟩
      · rintro ⟨k, hk, hr⟩
        cases k with
        | zero => simp [h0] at hr
        | succ k => exact ⟨k, by omega, by rw [show a + 1 + k = a + (k + 1) by omega]; exact hr⟩

end Sys2Proof.Machine
end

