-- ==== Sys2Proof/Laws/State.lean ====
section
/-! SUPPORT. What each named update of the state leaves in each field, one lemma per field per
update, so that no proof unfolds a record update. -/

namespace Sys2Proof.Machine

/-! ## complete -/

@[simp] theorem complete_arg (s : State) : (complete s).arg = s.arg := rfl
@[simp] theorem complete_len (s : State) : (complete s).len = s.len := rfl
@[simp] theorem complete_deadline (s : State) : (complete s).deadline = s.deadline := rfl
@[simp] theorem complete_csum (s : State) : (complete s).csum = s.csum := rfl
@[simp] theorem complete_frame (s : State) : (complete s).frame = s.frame := rfl
@[simp] theorem complete_txCount (s : State) : (complete s).txCount = s.txCount := rfl
@[simp] theorem complete_diag (s : State) : (complete s).diag = s.diag := rfl
@[simp] theorem complete_pdiag (s : State) : (complete s).pdiag = s.pdiag := rfl
@[simp] theorem complete_diagDrop (s : State) : (complete s).diagDrop = s.diagDrop := rfl
@[simp] theorem complete_elapsed (s : State) : (complete s).elapsed = s.elapsed := rfl
@[simp] theorem complete_vaddr (s : State) : (complete s).vaddr = s.vaddr := rfl
@[simp] theorem complete_ibuf (s : State) : (complete s).ibuf = s.ibuf := rfl
@[simp] theorem complete_ackres (s : State) : (complete s).ackres = s.ackres := rfl
@[simp] theorem complete_valid (s : State) : (complete s).valid = s.valid := rfl
@[simp] theorem complete_verr (s : State) : (complete s).verr = s.verr := rfl
@[simp] theorem complete_done (s : State) : (complete s).done = true := rfl
@[simp] theorem complete_busyerr (s : State) : (complete s).busyerr = s.busyerr := rfl
@[simp] theorem complete_illop (s : State) : (complete s).illop = s.illop := rfl
@[simp] theorem complete_lenerr (s : State) : (complete s).lenerr = s.lenerr := rfl
@[simp] theorem complete_xerr (s : State) : (complete s).xerr = s.xerr := rfl
@[simp] theorem complete_dovf (s : State) : (complete s).dovf = s.dovf := rfl
@[simp] theorem complete_phase (s : State) : (complete s).phase = .idle := rfl
@[simp] theorem complete_diagCap (s : State) : (complete s).diagCap = s.diagCap := rfl
@[simp] theorem complete_rst (s : State) : (complete s).rst = s.rst := rfl
@[simp] theorem complete_rxq (s : State) : (complete s).rxq = s.rxq := rfl
@[simp] theorem complete_txReady (s : State) : (complete s).txReady = s.txReady := rfl
@[simp] theorem complete_txlog (s : State) : (complete s).txlog = s.txlog := rfl
@[simp] theorem complete_xerrIn (s : State) : (complete s).xerrIn = s.xerrIn := rfl
@[simp] theorem complete_busRdata (s : State) : (complete s).busRdata = s.busRdata := rfl
@[simp] theorem complete_program (s : State) : (complete s).program = s.program := rfl
@[simp] theorem complete_schedule (s : State) : (complete s).schedule = s.schedule := rfl
@[simp] theorem complete_freeReads (s : State) : (complete s).freeReads = s.freeReads := rfl

/-! ## blockedWrite -/

@[simp] theorem blockedWrite_arg (s : State) : (blockedWrite s).arg = s.arg := rfl
@[simp] theorem blockedWrite_len (s : State) : (blockedWrite s).len = s.len := rfl
@[simp] theorem blockedWrite_deadline (s : State) : (blockedWrite s).deadline = s.deadline := rfl
@[simp] theorem blockedWrite_csum (s : State) : (blockedWrite s).csum = s.csum := rfl
@[simp] theorem blockedWrite_frame (s : State) : (blockedWrite s).frame = s.frame := rfl
@[simp] theorem blockedWrite_txCount (s : State) : (blockedWrite s).txCount = s.txCount := rfl
@[simp] theorem blockedWrite_diag (s : State) : (blockedWrite s).diag = s.diag := rfl
@[simp] theorem blockedWrite_pdiag (s : State) : (blockedWrite s).pdiag = s.pdiag := rfl
@[simp] theorem blockedWrite_diagDrop (s : State) : (blockedWrite s).diagDrop = s.diagDrop := rfl
@[simp] theorem blockedWrite_elapsed (s : State) : (blockedWrite s).elapsed = s.elapsed := rfl
@[simp] theorem blockedWrite_vaddr (s : State) : (blockedWrite s).vaddr = s.vaddr := rfl
@[simp] theorem blockedWrite_ibuf (s : State) : (blockedWrite s).ibuf = s.ibuf := rfl
@[simp] theorem blockedWrite_ackres (s : State) : (blockedWrite s).ackres = s.ackres := rfl
@[simp] theorem blockedWrite_valid (s : State) : (blockedWrite s).valid = s.valid := rfl
@[simp] theorem blockedWrite_verr (s : State) : (blockedWrite s).verr = s.verr := rfl
@[simp] theorem blockedWrite_done (s : State) : (blockedWrite s).done = s.done := rfl
@[simp] theorem blockedWrite_busyerr (s : State) : (blockedWrite s).busyerr = true := rfl
@[simp] theorem blockedWrite_illop (s : State) : (blockedWrite s).illop = s.illop := rfl
@[simp] theorem blockedWrite_lenerr (s : State) : (blockedWrite s).lenerr = s.lenerr := rfl
@[simp] theorem blockedWrite_xerr (s : State) : (blockedWrite s).xerr = s.xerr := rfl
@[simp] theorem blockedWrite_dovf (s : State) : (blockedWrite s).dovf = s.dovf := rfl
@[simp] theorem blockedWrite_phase (s : State) : (blockedWrite s).phase = s.phase := rfl
@[simp] theorem blockedWrite_diagCap (s : State) : (blockedWrite s).diagCap = s.diagCap := rfl
@[simp] theorem blockedWrite_rst (s : State) : (blockedWrite s).rst = s.rst := rfl
@[simp] theorem blockedWrite_rxq (s : State) : (blockedWrite s).rxq = s.rxq := rfl
@[simp] theorem blockedWrite_txReady (s : State) : (blockedWrite s).txReady = s.txReady := rfl
@[simp] theorem blockedWrite_txlog (s : State) : (blockedWrite s).txlog = s.txlog := rfl
@[simp] theorem blockedWrite_xerrIn (s : State) : (blockedWrite s).xerrIn = s.xerrIn := rfl
@[simp] theorem blockedWrite_busRdata (s : State) : (blockedWrite s).busRdata = s.busRdata := rfl
@[simp] theorem blockedWrite_program (s : State) : (blockedWrite s).program = s.program := rfl
@[simp] theorem blockedWrite_schedule (s : State) : (blockedWrite s).schedule = s.schedule := rfl
@[simp] theorem blockedWrite_freeReads (s : State) : (blockedWrite s).freeReads = s.freeReads := rfl

/-! ## refuseIllegal -/

@[simp] theorem refuseIllegal_arg (s : State) : (refuseIllegal s).arg = s.arg := rfl
@[simp] theorem refuseIllegal_len (s : State) : (refuseIllegal s).len = s.len := rfl
@[simp] theorem refuseIllegal_deadline (s : State) : (refuseIllegal s).deadline = s.deadline := rfl
@[simp] theorem refuseIllegal_csum (s : State) : (refuseIllegal s).csum = s.csum := rfl
@[simp] theorem refuseIllegal_frame (s : State) : (refuseIllegal s).frame = s.frame := rfl
@[simp] theorem refuseIllegal_txCount (s : State) : (refuseIllegal s).txCount = s.txCount := rfl
@[simp] theorem refuseIllegal_diag (s : State) : (refuseIllegal s).diag = s.diag := rfl
@[simp] theorem refuseIllegal_pdiag (s : State) : (refuseIllegal s).pdiag = s.pdiag := rfl
@[simp] theorem refuseIllegal_diagDrop (s : State) : (refuseIllegal s).diagDrop = s.diagDrop := rfl
@[simp] theorem refuseIllegal_elapsed (s : State) : (refuseIllegal s).elapsed = s.elapsed := rfl
@[simp] theorem refuseIllegal_vaddr (s : State) : (refuseIllegal s).vaddr = s.vaddr := rfl
@[simp] theorem refuseIllegal_ibuf (s : State) : (refuseIllegal s).ibuf = s.ibuf := rfl
@[simp] theorem refuseIllegal_ackres (s : State) : (refuseIllegal s).ackres = s.ackres := rfl
@[simp] theorem refuseIllegal_valid (s : State) : (refuseIllegal s).valid = s.valid := rfl
@[simp] theorem refuseIllegal_verr (s : State) : (refuseIllegal s).verr = s.verr := rfl
@[simp] theorem refuseIllegal_done (s : State) : (refuseIllegal s).done = true := rfl
@[simp] theorem refuseIllegal_busyerr (s : State) : (refuseIllegal s).busyerr = s.busyerr := rfl
@[simp] theorem refuseIllegal_illop (s : State) : (refuseIllegal s).illop = true := rfl
@[simp] theorem refuseIllegal_lenerr (s : State) : (refuseIllegal s).lenerr = s.lenerr := rfl
@[simp] theorem refuseIllegal_xerr (s : State) : (refuseIllegal s).xerr = s.xerr := rfl
@[simp] theorem refuseIllegal_dovf (s : State) : (refuseIllegal s).dovf = s.dovf := rfl
@[simp] theorem refuseIllegal_phase (s : State) : (refuseIllegal s).phase = s.phase := rfl
@[simp] theorem refuseIllegal_diagCap (s : State) : (refuseIllegal s).diagCap = s.diagCap := rfl
@[simp] theorem refuseIllegal_rst (s : State) : (refuseIllegal s).rst = s.rst := rfl
@[simp] theorem refuseIllegal_rxq (s : State) : (refuseIllegal s).rxq = s.rxq := rfl
@[simp] theorem refuseIllegal_txReady (s : State) : (refuseIllegal s).txReady = s.txReady := rfl
@[simp] theorem refuseIllegal_txlog (s : State) : (refuseIllegal s).txlog = s.txlog := rfl
@[simp] theorem refuseIllegal_xerrIn (s : State) : (refuseIllegal s).xerrIn = s.xerrIn := rfl
@[simp] theorem refuseIllegal_busRdata (s : State) : (refuseIllegal s).busRdata = s.busRdata := rfl
@[simp] theorem refuseIllegal_program (s : State) : (refuseIllegal s).program = s.program := rfl
@[simp] theorem refuseIllegal_schedule (s : State) : (refuseIllegal s).schedule = s.schedule := rfl
@[simp] theorem refuseIllegal_freeReads (s : State) :
    (refuseIllegal s).freeReads = s.freeReads := rfl

/-! ## refuseLength -/

@[simp] theorem refuseLength_arg (s : State) : (refuseLength s).arg = s.arg := rfl
@[simp] theorem refuseLength_len (s : State) : (refuseLength s).len = s.len := rfl
@[simp] theorem refuseLength_deadline (s : State) : (refuseLength s).deadline = s.deadline := rfl
@[simp] theorem refuseLength_csum (s : State) : (refuseLength s).csum = s.csum := rfl
@[simp] theorem refuseLength_frame (s : State) : (refuseLength s).frame = s.frame := rfl
@[simp] theorem refuseLength_txCount (s : State) : (refuseLength s).txCount = s.txCount := rfl
@[simp] theorem refuseLength_diag (s : State) : (refuseLength s).diag = s.diag := rfl
@[simp] theorem refuseLength_pdiag (s : State) : (refuseLength s).pdiag = s.pdiag := rfl
@[simp] theorem refuseLength_diagDrop (s : State) : (refuseLength s).diagDrop = s.diagDrop := rfl
@[simp] theorem refuseLength_elapsed (s : State) : (refuseLength s).elapsed = s.elapsed := rfl
@[simp] theorem refuseLength_vaddr (s : State) : (refuseLength s).vaddr = s.vaddr := rfl
@[simp] theorem refuseLength_ibuf (s : State) : (refuseLength s).ibuf = s.ibuf := rfl
@[simp] theorem refuseLength_ackres (s : State) : (refuseLength s).ackres = s.ackres := rfl
@[simp] theorem refuseLength_valid (s : State) : (refuseLength s).valid = s.valid := rfl
@[simp] theorem refuseLength_verr (s : State) : (refuseLength s).verr = s.verr := rfl
@[simp] theorem refuseLength_done (s : State) : (refuseLength s).done = true := rfl
@[simp] theorem refuseLength_busyerr (s : State) : (refuseLength s).busyerr = s.busyerr := rfl
@[simp] theorem refuseLength_illop (s : State) : (refuseLength s).illop = s.illop := rfl
@[simp] theorem refuseLength_lenerr (s : State) : (refuseLength s).lenerr = true := rfl
@[simp] theorem refuseLength_xerr (s : State) : (refuseLength s).xerr = s.xerr := rfl
@[simp] theorem refuseLength_dovf (s : State) : (refuseLength s).dovf = s.dovf := rfl
@[simp] theorem refuseLength_phase (s : State) : (refuseLength s).phase = s.phase := rfl
@[simp] theorem refuseLength_diagCap (s : State) : (refuseLength s).diagCap = s.diagCap := rfl
@[simp] theorem refuseLength_rst (s : State) : (refuseLength s).rst = s.rst := rfl
@[simp] theorem refuseLength_rxq (s : State) : (refuseLength s).rxq = s.rxq := rfl
@[simp] theorem refuseLength_txReady (s : State) : (refuseLength s).txReady = s.txReady := rfl
@[simp] theorem refuseLength_txlog (s : State) : (refuseLength s).txlog = s.txlog := rfl
@[simp] theorem refuseLength_xerrIn (s : State) : (refuseLength s).xerrIn = s.xerrIn := rfl
@[simp] theorem refuseLength_busRdata (s : State) : (refuseLength s).busRdata = s.busRdata := rfl
@[simp] theorem refuseLength_program (s : State) : (refuseLength s).program = s.program := rfl
@[simp] theorem refuseLength_schedule (s : State) : (refuseLength s).schedule = s.schedule := rfl
@[simp] theorem refuseLength_freeReads (s : State) : (refuseLength s).freeReads = s.freeReads := rfl

/-! ## acceptExec -/

@[simp] theorem acceptExec_arg (op : ExecOp) (s : State) : (acceptExec op s).arg = s.arg := rfl
@[simp] theorem acceptExec_len (op : ExecOp) (s : State) : (acceptExec op s).len = s.len := rfl
@[simp] theorem acceptExec_deadline (op : ExecOp) (s : State) :
    (acceptExec op s).deadline = s.deadline := rfl
@[simp] theorem acceptExec_csum (op : ExecOp) (s : State) : (acceptExec op s).csum = s.csum := rfl
@[simp] theorem acceptExec_frame (op : ExecOp) (s : State) :
    (acceptExec op s).frame = s.frame := rfl
@[simp] theorem acceptExec_txCount (op : ExecOp) (s : State) :
    (acceptExec op s).txCount = s.txCount := rfl
@[simp] theorem acceptExec_diag (op : ExecOp) (s : State) : (acceptExec op s).diag = s.diag := rfl
@[simp] theorem acceptExec_pdiag (op : ExecOp) (s : State) :
    (acceptExec op s).pdiag = s.pdiag := rfl
@[simp] theorem acceptExec_diagDrop (op : ExecOp) (s : State) :
    (acceptExec op s).diagDrop = s.diagDrop := rfl
@[simp] theorem acceptExec_elapsed (op : ExecOp) (s : State) :
    (acceptExec op s).elapsed = s.elapsed := rfl
@[simp] theorem acceptExec_vaddr (op : ExecOp) (s : State) :
    (acceptExec op s).vaddr = s.vaddr := rfl
@[simp] theorem acceptExec_ibuf (op : ExecOp) (s : State) : (acceptExec op s).ibuf = s.ibuf := rfl
@[simp] theorem acceptExec_ackres (op : ExecOp) (s : State) :
    (acceptExec op s).ackres = s.ackres := rfl
@[simp] theorem acceptExec_valid (op : ExecOp) (s : State) :
    (acceptExec op s).valid = s.valid := rfl
@[simp] theorem acceptExec_verr (op : ExecOp) (s : State) : (acceptExec op s).verr = s.verr := rfl
@[simp] theorem acceptExec_done (op : ExecOp) (s : State) : (acceptExec op s).done = false := rfl
@[simp] theorem acceptExec_busyerr (op : ExecOp) (s : State) :
    (acceptExec op s).busyerr = s.busyerr := rfl
@[simp] theorem acceptExec_illop (op : ExecOp) (s : State) :
    (acceptExec op s).illop = s.illop := rfl
@[simp] theorem acceptExec_lenerr (op : ExecOp) (s : State) :
    (acceptExec op s).lenerr = s.lenerr := rfl
@[simp] theorem acceptExec_xerr (op : ExecOp) (s : State) : (acceptExec op s).xerr = s.xerr := rfl
@[simp] theorem acceptExec_dovf (op : ExecOp) (s : State) : (acceptExec op s).dovf = s.dovf := rfl
@[simp] theorem acceptExec_phase (op : ExecOp) (s : State) :
    (acceptExec op s).phase = .exec op := rfl
@[simp] theorem acceptExec_diagCap (op : ExecOp) (s : State) :
    (acceptExec op s).diagCap = s.diagCap := rfl
@[simp] theorem acceptExec_rst (op : ExecOp) (s : State) : (acceptExec op s).rst = s.rst := rfl
@[simp] theorem acceptExec_rxq (op : ExecOp) (s : State) : (acceptExec op s).rxq = s.rxq := rfl
@[simp] theorem acceptExec_txReady (op : ExecOp) (s : State) :
    (acceptExec op s).txReady = s.txReady := rfl
@[simp] theorem acceptExec_txlog (op : ExecOp) (s : State) :
    (acceptExec op s).txlog = s.txlog := rfl
@[simp] theorem acceptExec_xerrIn (op : ExecOp) (s : State) :
    (acceptExec op s).xerrIn = s.xerrIn := rfl
@[simp] theorem acceptExec_busRdata (op : ExecOp) (s : State) :
    (acceptExec op s).busRdata = s.busRdata := rfl
@[simp] theorem acceptExec_program (op : ExecOp) (s : State) :
    (acceptExec op s).program = s.program := rfl
@[simp] theorem acceptExec_schedule (op : ExecOp) (s : State) :
    (acceptExec op s).schedule = s.schedule := rfl
@[simp] theorem acceptExec_freeReads (op : ExecOp) (s : State) :
    (acceptExec op s).freeReads = s.freeReads := rfl

/-! ## acceptSend -/

@[simp] theorem acceptSend_arg (s : State) : (acceptSend s).arg = s.arg := rfl
@[simp] theorem acceptSend_len (s : State) : (acceptSend s).len = s.len := rfl
@[simp] theorem acceptSend_deadline (s : State) : (acceptSend s).deadline = s.deadline := rfl
@[simp] theorem acceptSend_csum (s : State) : (acceptSend s).csum = s.csum := rfl
@[simp] theorem acceptSend_frame (s : State) : (acceptSend s).frame = s.frame := rfl
@[simp] theorem acceptSend_txCount (s : State) : (acceptSend s).txCount = 0 := rfl
@[simp] theorem acceptSend_diag (s : State) : (acceptSend s).diag = s.diag := rfl
@[simp] theorem acceptSend_pdiag (s : State) : (acceptSend s).pdiag = s.pdiag := rfl
@[simp] theorem acceptSend_diagDrop (s : State) : (acceptSend s).diagDrop = s.diagDrop := rfl
@[simp] theorem acceptSend_elapsed (s : State) : (acceptSend s).elapsed = s.elapsed := rfl
@[simp] theorem acceptSend_vaddr (s : State) : (acceptSend s).vaddr = s.vaddr := rfl
@[simp] theorem acceptSend_ibuf (s : State) : (acceptSend s).ibuf = s.ibuf := rfl
@[simp] theorem acceptSend_ackres (s : State) : (acceptSend s).ackres = s.ackres := rfl
@[simp] theorem acceptSend_valid (s : State) : (acceptSend s).valid = s.valid := rfl
@[simp] theorem acceptSend_verr (s : State) : (acceptSend s).verr = s.verr := rfl
@[simp] theorem acceptSend_done (s : State) : (acceptSend s).done = false := rfl
@[simp] theorem acceptSend_busyerr (s : State) : (acceptSend s).busyerr = s.busyerr := rfl
@[simp] theorem acceptSend_illop (s : State) : (acceptSend s).illop = s.illop := rfl
@[simp] theorem acceptSend_lenerr (s : State) : (acceptSend s).lenerr = s.lenerr := rfl
@[simp] theorem acceptSend_xerr (s : State) : (acceptSend s).xerr = s.xerr := rfl
@[simp] theorem acceptSend_dovf (s : State) : (acceptSend s).dovf = s.dovf := rfl
@[simp] theorem acceptSend_phase (s : State) : (acceptSend s).phase = .send 0 := rfl
@[simp] theorem acceptSend_diagCap (s : State) : (acceptSend s).diagCap = s.diagCap := rfl
@[simp] theorem acceptSend_rst (s : State) : (acceptSend s).rst = s.rst := rfl
@[simp] theorem acceptSend_rxq (s : State) : (acceptSend s).rxq = s.rxq := rfl
@[simp] theorem acceptSend_txReady (s : State) : (acceptSend s).txReady = s.txReady := rfl
@[simp] theorem acceptSend_txlog (s : State) : (acceptSend s).txlog = s.txlog := rfl
@[simp] theorem acceptSend_xerrIn (s : State) : (acceptSend s).xerrIn = s.xerrIn := rfl
@[simp] theorem acceptSend_busRdata (s : State) : (acceptSend s).busRdata = s.busRdata := rfl
@[simp] theorem acceptSend_program (s : State) : (acceptSend s).program = s.program := rfl
@[simp] theorem acceptSend_schedule (s : State) : (acceptSend s).schedule = s.schedule := rfl
@[simp] theorem acceptSend_freeReads (s : State) : (acceptSend s).freeReads = s.freeReads := rfl

/-! ## acceptWait -/

@[simp] theorem acceptWait_arg (m : WaitMode) (s : State) : (acceptWait m s).arg = s.arg := rfl
@[simp] theorem acceptWait_len (m : WaitMode) (s : State) : (acceptWait m s).len = s.len := rfl
@[simp] theorem acceptWait_deadline (m : WaitMode) (s : State) :
    (acceptWait m s).deadline = s.deadline := rfl
@[simp] theorem acceptWait_csum (m : WaitMode) (s : State) : (acceptWait m s).csum = s.csum := rfl
@[simp] theorem acceptWait_frame (m : WaitMode) (s : State) :
    (acceptWait m s).frame = s.frame := rfl
@[simp] theorem acceptWait_txCount (m : WaitMode) (s : State) :
    (acceptWait m s).txCount = s.txCount := rfl
@[simp] theorem acceptWait_diag (m : WaitMode) (s : State) : (acceptWait m s).diag = [] := rfl
@[simp] theorem acceptWait_pdiag (m : WaitMode) (s : State) : (acceptWait m s).pdiag = s.diag := rfl
@[simp] theorem acceptWait_diagDrop (m : WaitMode) (s : State) :
    (acceptWait m s).diagDrop = 0 := rfl
@[simp] theorem acceptWait_elapsed (m : WaitMode) (s : State) : (acceptWait m s).elapsed = 0 := rfl
@[simp] theorem acceptWait_vaddr (m : WaitMode) (s : State) :
    (acceptWait m s).vaddr = s.vaddr := rfl
@[simp] theorem acceptWait_ibuf (m : WaitMode) (s : State) : (acceptWait m s).ibuf = s.ibuf := rfl
@[simp] theorem acceptWait_ackres (m : WaitMode) (s : State) :
    (acceptWait m s).ackres = .none := rfl
@[simp] theorem acceptWait_valid (m : WaitMode) (s : State) :
    (acceptWait m s).valid = s.valid := rfl
@[simp] theorem acceptWait_verr (m : WaitMode) (s : State) : (acceptWait m s).verr = s.verr := rfl
@[simp] theorem acceptWait_done (m : WaitMode) (s : State) : (acceptWait m s).done = false := rfl
@[simp] theorem acceptWait_busyerr (m : WaitMode) (s : State) :
    (acceptWait m s).busyerr = s.busyerr := rfl
@[simp] theorem acceptWait_illop (m : WaitMode) (s : State) :
    (acceptWait m s).illop = s.illop := rfl
@[simp] theorem acceptWait_lenerr (m : WaitMode) (s : State) :
    (acceptWait m s).lenerr = s.lenerr := rfl
@[simp] theorem acceptWait_xerr (m : WaitMode) (s : State) : (acceptWait m s).xerr = s.xerr := rfl
@[simp] theorem acceptWait_dovf (m : WaitMode) (s : State) : (acceptWait m s).dovf = false := rfl
@[simp] theorem acceptWait_phase (m : WaitMode) (s : State) :
    (acceptWait m s).phase = .wait m := rfl
@[simp] theorem acceptWait_diagCap (m : WaitMode) (s : State) :
    (acceptWait m s).diagCap = s.diagCap := rfl
@[simp] theorem acceptWait_rst (m : WaitMode) (s : State) : (acceptWait m s).rst = s.rst := rfl
@[simp] theorem acceptWait_rxq (m : WaitMode) (s : State) : (acceptWait m s).rxq = s.rxq := rfl
@[simp] theorem acceptWait_txReady (m : WaitMode) (s : State) :
    (acceptWait m s).txReady = s.txReady := rfl
@[simp] theorem acceptWait_txlog (m : WaitMode) (s : State) :
    (acceptWait m s).txlog = s.txlog := rfl
@[simp] theorem acceptWait_xerrIn (m : WaitMode) (s : State) :
    (acceptWait m s).xerrIn = s.xerrIn := rfl
@[simp] theorem acceptWait_busRdata (m : WaitMode) (s : State) :
    (acceptWait m s).busRdata = s.busRdata := rfl
@[simp] theorem acceptWait_program (m : WaitMode) (s : State) :
    (acceptWait m s).program = s.program := rfl
@[simp] theorem acceptWait_schedule (m : WaitMode) (s : State) :
    (acceptWait m s).schedule = s.schedule := rfl
@[simp] theorem acceptWait_freeReads (m : WaitMode) (s : State) :
    (acceptWait m s).freeReads = s.freeReads := rfl

/-! ## setFrame -/

@[simp] theorem setFrame_arg (f : List Byte) (s : State) : (setFrame f s).arg = s.arg := rfl
@[simp] theorem setFrame_len (f : List Byte) (s : State) : (setFrame f s).len = s.len := rfl
@[simp] theorem setFrame_deadline (f : List Byte) (s : State) :
    (setFrame f s).deadline = s.deadline := rfl
@[simp] theorem setFrame_csum (f : List Byte) (s : State) : (setFrame f s).csum = s.csum := rfl
@[simp] theorem setFrame_frame (f : List Byte) (s : State) : (setFrame f s).frame = f := rfl
@[simp] theorem setFrame_txCount (f : List Byte) (s : State) : (setFrame f s).txCount = 0 := rfl
@[simp] theorem setFrame_diag (f : List Byte) (s : State) : (setFrame f s).diag = s.diag := rfl
@[simp] theorem setFrame_pdiag (f : List Byte) (s : State) : (setFrame f s).pdiag = s.pdiag := rfl
@[simp] theorem setFrame_diagDrop (f : List Byte) (s : State) :
    (setFrame f s).diagDrop = s.diagDrop := rfl
@[simp] theorem setFrame_elapsed (f : List Byte) (s : State) :
    (setFrame f s).elapsed = s.elapsed := rfl
@[simp] theorem setFrame_vaddr (f : List Byte) (s : State) : (setFrame f s).vaddr = s.vaddr := rfl
@[simp] theorem setFrame_ibuf (f : List Byte) (s : State) : (setFrame f s).ibuf = s.ibuf := rfl
@[simp] theorem setFrame_ackres (f : List Byte) (s : State) :
    (setFrame f s).ackres = s.ackres := rfl
@[simp] theorem setFrame_valid (f : List Byte) (s : State) : (setFrame f s).valid = s.valid := rfl
@[simp] theorem setFrame_verr (f : List Byte) (s : State) : (setFrame f s).verr = s.verr := rfl
@[simp] theorem setFrame_done (f : List Byte) (s : State) : (setFrame f s).done = s.done := rfl
@[simp] theorem setFrame_busyerr (f : List Byte) (s : State) :
    (setFrame f s).busyerr = s.busyerr := rfl
@[simp] theorem setFrame_illop (f : List Byte) (s : State) : (setFrame f s).illop = s.illop := rfl
@[simp] theorem setFrame_lenerr (f : List Byte) (s : State) :
    (setFrame f s).lenerr = s.lenerr := rfl
@[simp] theorem setFrame_xerr (f : List Byte) (s : State) : (setFrame f s).xerr = s.xerr := rfl
@[simp] theorem setFrame_dovf (f : List Byte) (s : State) : (setFrame f s).dovf = s.dovf := rfl
@[simp] theorem setFrame_phase (f : List Byte) (s : State) : (setFrame f s).phase = s.phase := rfl
@[simp] theorem setFrame_diagCap (f : List Byte) (s : State) :
    (setFrame f s).diagCap = s.diagCap := rfl
@[simp] theorem setFrame_rst (f : List Byte) (s : State) : (setFrame f s).rst = s.rst := rfl
@[simp] theorem setFrame_rxq (f : List Byte) (s : State) : (setFrame f s).rxq = s.rxq := rfl
@[simp] theorem setFrame_txReady (f : List Byte) (s : State) :
    (setFrame f s).txReady = s.txReady := rfl
@[simp] theorem setFrame_txlog (f : List Byte) (s : State) : (setFrame f s).txlog = s.txlog := rfl
@[simp] theorem setFrame_xerrIn (f : List Byte) (s : State) :
    (setFrame f s).xerrIn = s.xerrIn := rfl
@[simp] theorem setFrame_busRdata (f : List Byte) (s : State) :
    (setFrame f s).busRdata = s.busRdata := rfl
@[simp] theorem setFrame_program (f : List Byte) (s : State) :
    (setFrame f s).program = s.program := rfl
@[simp] theorem setFrame_schedule (f : List Byte) (s : State) :
    (setFrame f s).schedule = s.schedule := rfl
@[simp] theorem setFrame_freeReads (f : List Byte) (s : State) :
    (setFrame f s).freeReads = s.freeReads := rfl

/-! ## setCsum -/

@[simp] theorem setCsum_arg (c : Byte) (s : State) : (setCsum c s).arg = s.arg := rfl
@[simp] theorem setCsum_len (c : Byte) (s : State) : (setCsum c s).len = s.len := rfl
@[simp] theorem setCsum_deadline (c : Byte) (s : State) : (setCsum c s).deadline = s.deadline := rfl
@[simp] theorem setCsum_csum (c : Byte) (s : State) : (setCsum c s).csum = c := rfl
@[simp] theorem setCsum_frame (c : Byte) (s : State) : (setCsum c s).frame = s.frame := rfl
@[simp] theorem setCsum_txCount (c : Byte) (s : State) : (setCsum c s).txCount = s.txCount := rfl
@[simp] theorem setCsum_diag (c : Byte) (s : State) : (setCsum c s).diag = s.diag := rfl
@[simp] theorem setCsum_pdiag (c : Byte) (s : State) : (setCsum c s).pdiag = s.pdiag := rfl
@[simp] theorem setCsum_diagDrop (c : Byte) (s : State) : (setCsum c s).diagDrop = s.diagDrop := rfl
@[simp] theorem setCsum_elapsed (c : Byte) (s : State) : (setCsum c s).elapsed = s.elapsed := rfl
@[simp] theorem setCsum_vaddr (c : Byte) (s : State) : (setCsum c s).vaddr = s.vaddr := rfl
@[simp] theorem setCsum_ibuf (c : Byte) (s : State) : (setCsum c s).ibuf = s.ibuf := rfl
@[simp] theorem setCsum_ackres (c : Byte) (s : State) : (setCsum c s).ackres = s.ackres := rfl
@[simp] theorem setCsum_valid (c : Byte) (s : State) : (setCsum c s).valid = s.valid := rfl
@[simp] theorem setCsum_verr (c : Byte) (s : State) : (setCsum c s).verr = s.verr := rfl
@[simp] theorem setCsum_done (c : Byte) (s : State) : (setCsum c s).done = s.done := rfl
@[simp] theorem setCsum_busyerr (c : Byte) (s : State) : (setCsum c s).busyerr = s.busyerr := rfl
@[simp] theorem setCsum_illop (c : Byte) (s : State) : (setCsum c s).illop = s.illop := rfl
@[simp] theorem setCsum_lenerr (c : Byte) (s : State) : (setCsum c s).lenerr = s.lenerr := rfl
@[simp] theorem setCsum_xerr (c : Byte) (s : State) : (setCsum c s).xerr = s.xerr := rfl
@[simp] theorem setCsum_dovf (c : Byte) (s : State) : (setCsum c s).dovf = s.dovf := rfl
@[simp] theorem setCsum_phase (c : Byte) (s : State) : (setCsum c s).phase = s.phase := rfl
@[simp] theorem setCsum_diagCap (c : Byte) (s : State) : (setCsum c s).diagCap = s.diagCap := rfl
@[simp] theorem setCsum_rst (c : Byte) (s : State) : (setCsum c s).rst = s.rst := rfl
@[simp] theorem setCsum_rxq (c : Byte) (s : State) : (setCsum c s).rxq = s.rxq := rfl
@[simp] theorem setCsum_txReady (c : Byte) (s : State) : (setCsum c s).txReady = s.txReady := rfl
@[simp] theorem setCsum_txlog (c : Byte) (s : State) : (setCsum c s).txlog = s.txlog := rfl
@[simp] theorem setCsum_xerrIn (c : Byte) (s : State) : (setCsum c s).xerrIn = s.xerrIn := rfl
@[simp] theorem setCsum_busRdata (c : Byte) (s : State) : (setCsum c s).busRdata = s.busRdata := rfl
@[simp] theorem setCsum_program (c : Byte) (s : State) : (setCsum c s).program = s.program := rfl
@[simp] theorem setCsum_schedule (c : Byte) (s : State) : (setCsum c s).schedule = s.schedule := rfl
@[simp] theorem setCsum_freeReads (c : Byte) (s : State) :
    (setCsum c s).freeReads = s.freeReads := rfl

/-! ## setVaddr -/

@[simp] theorem setVaddr_arg (a : Word) (s : State) : (setVaddr a s).arg = s.arg := rfl
@[simp] theorem setVaddr_len (a : Word) (s : State) : (setVaddr a s).len = s.len := rfl
@[simp] theorem setVaddr_deadline (a : Word) (s : State) :
    (setVaddr a s).deadline = s.deadline := rfl
@[simp] theorem setVaddr_csum (a : Word) (s : State) : (setVaddr a s).csum = s.csum := rfl
@[simp] theorem setVaddr_frame (a : Word) (s : State) : (setVaddr a s).frame = s.frame := rfl
@[simp] theorem setVaddr_txCount (a : Word) (s : State) : (setVaddr a s).txCount = s.txCount := rfl
@[simp] theorem setVaddr_diag (a : Word) (s : State) : (setVaddr a s).diag = s.diag := rfl
@[simp] theorem setVaddr_pdiag (a : Word) (s : State) : (setVaddr a s).pdiag = s.pdiag := rfl
@[simp] theorem setVaddr_diagDrop (a : Word) (s : State) :
    (setVaddr a s).diagDrop = s.diagDrop := rfl
@[simp] theorem setVaddr_elapsed (a : Word) (s : State) : (setVaddr a s).elapsed = s.elapsed := rfl
@[simp] theorem setVaddr_vaddr (a : Word) (s : State) : (setVaddr a s).vaddr = a := rfl
@[simp] theorem setVaddr_ibuf (a : Word) (s : State) : (setVaddr a s).ibuf = s.ibuf := rfl
@[simp] theorem setVaddr_ackres (a : Word) (s : State) : (setVaddr a s).ackres = s.ackres := rfl
@[simp] theorem setVaddr_valid (a : Word) (s : State) : (setVaddr a s).valid = s.valid := rfl
@[simp] theorem setVaddr_verr (a : Word) (s : State) : (setVaddr a s).verr = s.verr := rfl
@[simp] theorem setVaddr_done (a : Word) (s : State) : (setVaddr a s).done = s.done := rfl
@[simp] theorem setVaddr_busyerr (a : Word) (s : State) : (setVaddr a s).busyerr = s.busyerr := rfl
@[simp] theorem setVaddr_illop (a : Word) (s : State) : (setVaddr a s).illop = s.illop := rfl
@[simp] theorem setVaddr_lenerr (a : Word) (s : State) : (setVaddr a s).lenerr = s.lenerr := rfl
@[simp] theorem setVaddr_xerr (a : Word) (s : State) : (setVaddr a s).xerr = s.xerr := rfl
@[simp] theorem setVaddr_dovf (a : Word) (s : State) : (setVaddr a s).dovf = s.dovf := rfl
@[simp] theorem setVaddr_phase (a : Word) (s : State) : (setVaddr a s).phase = s.phase := rfl
@[simp] theorem setVaddr_diagCap (a : Word) (s : State) : (setVaddr a s).diagCap = s.diagCap := rfl
@[simp] theorem setVaddr_rst (a : Word) (s : State) : (setVaddr a s).rst = s.rst := rfl
@[simp] theorem setVaddr_rxq (a : Word) (s : State) : (setVaddr a s).rxq = s.rxq := rfl
@[simp] theorem setVaddr_txReady (a : Word) (s : State) : (setVaddr a s).txReady = s.txReady := rfl
@[simp] theorem setVaddr_txlog (a : Word) (s : State) : (setVaddr a s).txlog = s.txlog := rfl
@[simp] theorem setVaddr_xerrIn (a : Word) (s : State) : (setVaddr a s).xerrIn = s.xerrIn := rfl
@[simp] theorem setVaddr_busRdata (a : Word) (s : State) :
    (setVaddr a s).busRdata = s.busRdata := rfl
@[simp] theorem setVaddr_program (a : Word) (s : State) : (setVaddr a s).program = s.program := rfl
@[simp] theorem setVaddr_schedule (a : Word) (s : State) :
    (setVaddr a s).schedule = s.schedule := rfl
@[simp] theorem setVaddr_freeReads (a : Word) (s : State) :
    (setVaddr a s).freeReads = s.freeReads := rfl

/-! ## verdict -/

@[simp] theorem verdict_arg (ok : Bool) (v : Verr) (s : State) : (verdict ok v s).arg = s.arg := rfl
@[simp] theorem verdict_len (ok : Bool) (v : Verr) (s : State) : (verdict ok v s).len = s.len := rfl
@[simp] theorem verdict_deadline (ok : Bool) (v : Verr) (s : State) :
    (verdict ok v s).deadline = s.deadline := rfl
@[simp] theorem verdict_csum (ok : Bool) (v : Verr) (s : State) :
    (verdict ok v s).csum = s.csum := rfl
@[simp] theorem verdict_frame (ok : Bool) (v : Verr) (s : State) :
    (verdict ok v s).frame = s.frame := rfl
@[simp] theorem verdict_txCount (ok : Bool) (v : Verr) (s : State) :
    (verdict ok v s).txCount = s.txCount := rfl
@[simp] theorem verdict_diag (ok : Bool) (v : Verr) (s : State) :
    (verdict ok v s).diag = s.diag := rfl
@[simp] theorem verdict_pdiag (ok : Bool) (v : Verr) (s : State) :
    (verdict ok v s).pdiag = s.pdiag := rfl
@[simp] theorem verdict_diagDrop (ok : Bool) (v : Verr) (s : State) :
    (verdict ok v s).diagDrop = s.diagDrop := rfl
@[simp] theorem verdict_elapsed (ok : Bool) (v : Verr) (s : State) :
    (verdict ok v s).elapsed = s.elapsed := rfl
@[simp] theorem verdict_vaddr (ok : Bool) (v : Verr) (s : State) :
    (verdict ok v s).vaddr = s.vaddr := rfl
@[simp] theorem verdict_ibuf (ok : Bool) (v : Verr) (s : State) :
    (verdict ok v s).ibuf = s.ibuf := rfl
@[simp] theorem verdict_ackres (ok : Bool) (v : Verr) (s : State) :
    (verdict ok v s).ackres = s.ackres := rfl
@[simp] theorem verdict_valid (ok : Bool) (v : Verr) (s : State) :
    (verdict ok v s).valid = ok := rfl
@[simp] theorem verdict_verr (ok : Bool) (v : Verr) (s : State) : (verdict ok v s).verr = v := rfl
@[simp] theorem verdict_done (ok : Bool) (v : Verr) (s : State) :
    (verdict ok v s).done = s.done := rfl
@[simp] theorem verdict_busyerr (ok : Bool) (v : Verr) (s : State) :
    (verdict ok v s).busyerr = s.busyerr := rfl
@[simp] theorem verdict_illop (ok : Bool) (v : Verr) (s : State) :
    (verdict ok v s).illop = s.illop := rfl
@[simp] theorem verdict_lenerr (ok : Bool) (v : Verr) (s : State) :
    (verdict ok v s).lenerr = s.lenerr := rfl
@[simp] theorem verdict_xerr (ok : Bool) (v : Verr) (s : State) :
    (verdict ok v s).xerr = s.xerr := rfl
@[simp] theorem verdict_dovf (ok : Bool) (v : Verr) (s : State) :
    (verdict ok v s).dovf = s.dovf := rfl
@[simp] theorem verdict_phase (ok : Bool) (v : Verr) (s : State) :
    (verdict ok v s).phase = s.phase := rfl
@[simp] theorem verdict_diagCap (ok : Bool) (v : Verr) (s : State) :
    (verdict ok v s).diagCap = s.diagCap := rfl
@[simp] theorem verdict_rst (ok : Bool) (v : Verr) (s : State) : (verdict ok v s).rst = s.rst := rfl
@[simp] theorem verdict_rxq (ok : Bool) (v : Verr) (s : State) : (verdict ok v s).rxq = s.rxq := rfl
@[simp] theorem verdict_txReady (ok : Bool) (v : Verr) (s : State) :
    (verdict ok v s).txReady = s.txReady := rfl
@[simp] theorem verdict_txlog (ok : Bool) (v : Verr) (s : State) :
    (verdict ok v s).txlog = s.txlog := rfl
@[simp] theorem verdict_xerrIn (ok : Bool) (v : Verr) (s : State) :
    (verdict ok v s).xerrIn = s.xerrIn := rfl
@[simp] theorem verdict_busRdata (ok : Bool) (v : Verr) (s : State) :
    (verdict ok v s).busRdata = s.busRdata := rfl
@[simp] theorem verdict_program (ok : Bool) (v : Verr) (s : State) :
    (verdict ok v s).program = s.program := rfl
@[simp] theorem verdict_schedule (ok : Bool) (v : Verr) (s : State) :
    (verdict ok v s).schedule = s.schedule := rfl
@[simp] theorem verdict_freeReads (ok : Bool) (v : Verr) (s : State) :
    (verdict ok v s).freeReads = s.freeReads := rfl

/-! ## emit -/

@[simp] theorem emit_arg (i : Nat) (b : Byte) (s : State) : (emit i b s).arg = s.arg := rfl
@[simp] theorem emit_len (i : Nat) (b : Byte) (s : State) : (emit i b s).len = s.len := rfl
@[simp] theorem emit_deadline (i : Nat) (b : Byte) (s : State) :
    (emit i b s).deadline = s.deadline := rfl
@[simp] theorem emit_csum (i : Nat) (b : Byte) (s : State) : (emit i b s).csum = s.csum := rfl
@[simp] theorem emit_frame (i : Nat) (b : Byte) (s : State) : (emit i b s).frame = s.frame := rfl
@[simp] theorem emit_txCount (i : Nat) (b : Byte) (s : State) : (emit i b s).txCount = i + 1 := rfl
@[simp] theorem emit_diag (i : Nat) (b : Byte) (s : State) : (emit i b s).diag = s.diag := rfl
@[simp] theorem emit_pdiag (i : Nat) (b : Byte) (s : State) : (emit i b s).pdiag = s.pdiag := rfl
@[simp] theorem emit_diagDrop (i : Nat) (b : Byte) (s : State) :
    (emit i b s).diagDrop = s.diagDrop := rfl
@[simp] theorem emit_elapsed (i : Nat) (b : Byte) (s : State) :
    (emit i b s).elapsed = s.elapsed := rfl
@[simp] theorem emit_vaddr (i : Nat) (b : Byte) (s : State) : (emit i b s).vaddr = s.vaddr := rfl
@[simp] theorem emit_ibuf (i : Nat) (b : Byte) (s : State) : (emit i b s).ibuf = s.ibuf := rfl
@[simp] theorem emit_ackres (i : Nat) (b : Byte) (s : State) : (emit i b s).ackres = s.ackres := rfl
@[simp] theorem emit_valid (i : Nat) (b : Byte) (s : State) : (emit i b s).valid = s.valid := rfl
@[simp] theorem emit_verr (i : Nat) (b : Byte) (s : State) : (emit i b s).verr = s.verr := rfl
@[simp] theorem emit_done (i : Nat) (b : Byte) (s : State) : (emit i b s).done = s.done := rfl
@[simp] theorem emit_busyerr (i : Nat) (b : Byte) (s : State) :
    (emit i b s).busyerr = s.busyerr := rfl
@[simp] theorem emit_illop (i : Nat) (b : Byte) (s : State) : (emit i b s).illop = s.illop := rfl
@[simp] theorem emit_lenerr (i : Nat) (b : Byte) (s : State) : (emit i b s).lenerr = s.lenerr := rfl
@[simp] theorem emit_xerr (i : Nat) (b : Byte) (s : State) : (emit i b s).xerr = s.xerr := rfl
@[simp] theorem emit_dovf (i : Nat) (b : Byte) (s : State) : (emit i b s).dovf = s.dovf := rfl
@[simp] theorem emit_phase (i : Nat) (b : Byte) (s : State) :
    (emit i b s).phase = .send (i + 1) := rfl
@[simp] theorem emit_diagCap (i : Nat) (b : Byte) (s : State) :
    (emit i b s).diagCap = s.diagCap := rfl
@[simp] theorem emit_rst (i : Nat) (b : Byte) (s : State) : (emit i b s).rst = s.rst := rfl
@[simp] theorem emit_rxq (i : Nat) (b : Byte) (s : State) : (emit i b s).rxq = s.rxq := rfl
@[simp] theorem emit_txReady (i : Nat) (b : Byte) (s : State) :
    (emit i b s).txReady = s.txReady := rfl
@[simp] theorem emit_txlog (i : Nat) (b : Byte) (s : State) :
    (emit i b s).txlog = s.txlog ++ [b] := rfl
@[simp] theorem emit_xerrIn (i : Nat) (b : Byte) (s : State) : (emit i b s).xerrIn = s.xerrIn := rfl
@[simp] theorem emit_busRdata (i : Nat) (b : Byte) (s : State) :
    (emit i b s).busRdata = s.busRdata := rfl
@[simp] theorem emit_program (i : Nat) (b : Byte) (s : State) :
    (emit i b s).program = s.program := rfl
@[simp] theorem emit_schedule (i : Nat) (b : Byte) (s : State) :
    (emit i b s).schedule = s.schedule := rfl
@[simp] theorem emit_freeReads (i : Nat) (b : Byte) (s : State) :
    (emit i b s).freeReads = s.freeReads := rfl

/-! ## consume -/

@[simp] theorem consume_arg (rest : List Byte) (s : State) : (consume rest s).arg = s.arg := rfl
@[simp] theorem consume_len (rest : List Byte) (s : State) : (consume rest s).len = s.len := rfl
@[simp] theorem consume_deadline (rest : List Byte) (s : State) :
    (consume rest s).deadline = s.deadline := rfl
@[simp] theorem consume_csum (rest : List Byte) (s : State) : (consume rest s).csum = s.csum := rfl
@[simp] theorem consume_frame (rest : List Byte) (s : State) :
    (consume rest s).frame = s.frame := rfl
@[simp] theorem consume_txCount (rest : List Byte) (s : State) :
    (consume rest s).txCount = s.txCount := rfl
@[simp] theorem consume_diag (rest : List Byte) (s : State) : (consume rest s).diag = s.diag := rfl
@[simp] theorem consume_pdiag (rest : List Byte) (s : State) :
    (consume rest s).pdiag = s.pdiag := rfl
@[simp] theorem consume_diagDrop (rest : List Byte) (s : State) :
    (consume rest s).diagDrop = s.diagDrop := rfl
@[simp] theorem consume_elapsed (rest : List Byte) (s : State) :
    (consume rest s).elapsed = s.elapsed := rfl
@[simp] theorem consume_vaddr (rest : List Byte) (s : State) :
    (consume rest s).vaddr = s.vaddr := rfl
@[simp] theorem consume_ibuf (rest : List Byte) (s : State) : (consume rest s).ibuf = s.ibuf := rfl
@[simp] theorem consume_ackres (rest : List Byte) (s : State) :
    (consume rest s).ackres = s.ackres := rfl
@[simp] theorem consume_valid (rest : List Byte) (s : State) :
    (consume rest s).valid = s.valid := rfl
@[simp] theorem consume_verr (rest : List Byte) (s : State) : (consume rest s).verr = s.verr := rfl
@[simp] theorem consume_done (rest : List Byte) (s : State) : (consume rest s).done = s.done := rfl
@[simp] theorem consume_busyerr (rest : List Byte) (s : State) :
    (consume rest s).busyerr = s.busyerr := rfl
@[simp] theorem consume_illop (rest : List Byte) (s : State) :
    (consume rest s).illop = s.illop := rfl
@[simp] theorem consume_lenerr (rest : List Byte) (s : State) :
    (consume rest s).lenerr = s.lenerr := rfl
@[simp] theorem consume_xerr (rest : List Byte) (s : State) : (consume rest s).xerr = s.xerr := rfl
@[simp] theorem consume_dovf (rest : List Byte) (s : State) : (consume rest s).dovf = s.dovf := rfl
@[simp] theorem consume_phase (rest : List Byte) (s : State) :
    (consume rest s).phase = s.phase := rfl
@[simp] theorem consume_diagCap (rest : List Byte) (s : State) :
    (consume rest s).diagCap = s.diagCap := rfl
@[simp] theorem consume_rst (rest : List Byte) (s : State) : (consume rest s).rst = s.rst := rfl
@[simp] theorem consume_rxq (rest : List Byte) (s : State) : (consume rest s).rxq = rest := rfl
@[simp] theorem consume_txReady (rest : List Byte) (s : State) :
    (consume rest s).txReady = s.txReady := rfl
@[simp] theorem consume_txlog (rest : List Byte) (s : State) :
    (consume rest s).txlog = s.txlog := rfl
@[simp] theorem consume_xerrIn (rest : List Byte) (s : State) :
    (consume rest s).xerrIn = s.xerrIn := rfl
@[simp] theorem consume_busRdata (rest : List Byte) (s : State) :
    (consume rest s).busRdata = s.busRdata := rfl
@[simp] theorem consume_program (rest : List Byte) (s : State) :
    (consume rest s).program = s.program := rfl
@[simp] theorem consume_schedule (rest : List Byte) (s : State) :
    (consume rest s).schedule = s.schedule := rfl
@[simp] theorem consume_freeReads (rest : List Byte) (s : State) :
    (consume rest s).freeReads = s.freeReads := rfl

/-! ## finish -/

@[simp] theorem finish_arg (r : AckRes) (s : State) : (finish r s).arg = s.arg := rfl
@[simp] theorem finish_len (r : AckRes) (s : State) : (finish r s).len = s.len := rfl
@[simp] theorem finish_deadline (r : AckRes) (s : State) : (finish r s).deadline = s.deadline := rfl
@[simp] theorem finish_csum (r : AckRes) (s : State) : (finish r s).csum = s.csum := rfl
@[simp] theorem finish_frame (r : AckRes) (s : State) : (finish r s).frame = s.frame := rfl
@[simp] theorem finish_txCount (r : AckRes) (s : State) : (finish r s).txCount = s.txCount := rfl
@[simp] theorem finish_diag (r : AckRes) (s : State) : (finish r s).diag = s.diag := rfl
@[simp] theorem finish_pdiag (r : AckRes) (s : State) : (finish r s).pdiag = s.pdiag := rfl
@[simp] theorem finish_diagDrop (r : AckRes) (s : State) : (finish r s).diagDrop = s.diagDrop := rfl
@[simp] theorem finish_elapsed (r : AckRes) (s : State) : (finish r s).elapsed = s.elapsed := rfl
@[simp] theorem finish_vaddr (r : AckRes) (s : State) : (finish r s).vaddr = s.vaddr := rfl
@[simp] theorem finish_ibuf (r : AckRes) (s : State) : (finish r s).ibuf = s.ibuf := rfl
@[simp] theorem finish_ackres (r : AckRes) (s : State) : (finish r s).ackres = r := rfl
@[simp] theorem finish_valid (r : AckRes) (s : State) : (finish r s).valid = s.valid := rfl
@[simp] theorem finish_verr (r : AckRes) (s : State) : (finish r s).verr = s.verr := rfl
@[simp] theorem finish_done (r : AckRes) (s : State) : (finish r s).done = true := rfl
@[simp] theorem finish_busyerr (r : AckRes) (s : State) : (finish r s).busyerr = s.busyerr := rfl
@[simp] theorem finish_illop (r : AckRes) (s : State) : (finish r s).illop = s.illop := rfl
@[simp] theorem finish_lenerr (r : AckRes) (s : State) : (finish r s).lenerr = s.lenerr := rfl
@[simp] theorem finish_xerr (r : AckRes) (s : State) : (finish r s).xerr = s.xerr := rfl
@[simp] theorem finish_dovf (r : AckRes) (s : State) : (finish r s).dovf = s.dovf := rfl
@[simp] theorem finish_phase (r : AckRes) (s : State) : (finish r s).phase = .idle := rfl
@[simp] theorem finish_diagCap (r : AckRes) (s : State) : (finish r s).diagCap = s.diagCap := rfl
@[simp] theorem finish_rst (r : AckRes) (s : State) : (finish r s).rst = s.rst := rfl
@[simp] theorem finish_rxq (r : AckRes) (s : State) : (finish r s).rxq = s.rxq := rfl
@[simp] theorem finish_txReady (r : AckRes) (s : State) : (finish r s).txReady = s.txReady := rfl
@[simp] theorem finish_txlog (r : AckRes) (s : State) : (finish r s).txlog = s.txlog := rfl
@[simp] theorem finish_xerrIn (r : AckRes) (s : State) : (finish r s).xerrIn = s.xerrIn := rfl
@[simp] theorem finish_busRdata (r : AckRes) (s : State) : (finish r s).busRdata = s.busRdata := rfl
@[simp] theorem finish_program (r : AckRes) (s : State) : (finish r s).program = s.program := rfl
@[simp] theorem finish_schedule (r : AckRes) (s : State) : (finish r s).schedule = s.schedule := rfl
@[simp] theorem finish_freeReads (r : AckRes) (s : State) :
    (finish r s).freeReads = s.freeReads := rfl

/-! ## setArg -/

@[simp] theorem setArg_arg (w : Word) (s : State) : (setArg w s).arg = w := rfl
@[simp] theorem setArg_len (w : Word) (s : State) : (setArg w s).len = s.len := rfl
@[simp] theorem setArg_deadline (w : Word) (s : State) : (setArg w s).deadline = s.deadline := rfl
@[simp] theorem setArg_csum (w : Word) (s : State) : (setArg w s).csum = s.csum := rfl
@[simp] theorem setArg_frame (w : Word) (s : State) : (setArg w s).frame = s.frame := rfl
@[simp] theorem setArg_txCount (w : Word) (s : State) : (setArg w s).txCount = s.txCount := rfl
@[simp] theorem setArg_diag (w : Word) (s : State) : (setArg w s).diag = s.diag := rfl
@[simp] theorem setArg_pdiag (w : Word) (s : State) : (setArg w s).pdiag = s.pdiag := rfl
@[simp] theorem setArg_diagDrop (w : Word) (s : State) : (setArg w s).diagDrop = s.diagDrop := rfl
@[simp] theorem setArg_elapsed (w : Word) (s : State) : (setArg w s).elapsed = s.elapsed := rfl
@[simp] theorem setArg_vaddr (w : Word) (s : State) : (setArg w s).vaddr = s.vaddr := rfl
@[simp] theorem setArg_ibuf (w : Word) (s : State) : (setArg w s).ibuf = s.ibuf := rfl
@[simp] theorem setArg_ackres (w : Word) (s : State) : (setArg w s).ackres = s.ackres := rfl
@[simp] theorem setArg_valid (w : Word) (s : State) : (setArg w s).valid = s.valid := rfl
@[simp] theorem setArg_verr (w : Word) (s : State) : (setArg w s).verr = s.verr := rfl
@[simp] theorem setArg_done (w : Word) (s : State) : (setArg w s).done = s.done := rfl
@[simp] theorem setArg_busyerr (w : Word) (s : State) : (setArg w s).busyerr = s.busyerr := rfl
@[simp] theorem setArg_illop (w : Word) (s : State) : (setArg w s).illop = s.illop := rfl
@[simp] theorem setArg_lenerr (w : Word) (s : State) : (setArg w s).lenerr = s.lenerr := rfl
@[simp] theorem setArg_xerr (w : Word) (s : State) : (setArg w s).xerr = s.xerr := rfl
@[simp] theorem setArg_dovf (w : Word) (s : State) : (setArg w s).dovf = s.dovf := rfl
@[simp] theorem setArg_phase (w : Word) (s : State) : (setArg w s).phase = s.phase := rfl
@[simp] theorem setArg_diagCap (w : Word) (s : State) : (setArg w s).diagCap = s.diagCap := rfl
@[simp] theorem setArg_rst (w : Word) (s : State) : (setArg w s).rst = s.rst := rfl
@[simp] theorem setArg_rxq (w : Word) (s : State) : (setArg w s).rxq = s.rxq := rfl
@[simp] theorem setArg_txReady (w : Word) (s : State) : (setArg w s).txReady = s.txReady := rfl
@[simp] theorem setArg_txlog (w : Word) (s : State) : (setArg w s).txlog = s.txlog := rfl
@[simp] theorem setArg_xerrIn (w : Word) (s : State) : (setArg w s).xerrIn = s.xerrIn := rfl
@[simp] theorem setArg_busRdata (w : Word) (s : State) : (setArg w s).busRdata = s.busRdata := rfl
@[simp] theorem setArg_program (w : Word) (s : State) : (setArg w s).program = s.program := rfl
@[simp] theorem setArg_schedule (w : Word) (s : State) : (setArg w s).schedule = s.schedule := rfl
@[simp] theorem setArg_freeReads (w : Word) (s : State) :
    (setArg w s).freeReads = s.freeReads := rfl

/-! ## setLen -/

@[simp] theorem setLen_arg (w : Word) (s : State) : (setLen w s).arg = s.arg := rfl
@[simp] theorem setLen_len (w : Word) (s : State) : (setLen w s).len = w.extractLsb' 0 9 := rfl
@[simp] theorem setLen_deadline (w : Word) (s : State) : (setLen w s).deadline = s.deadline := rfl
@[simp] theorem setLen_csum (w : Word) (s : State) : (setLen w s).csum = s.csum := rfl
@[simp] theorem setLen_frame (w : Word) (s : State) : (setLen w s).frame = s.frame := rfl
@[simp] theorem setLen_txCount (w : Word) (s : State) : (setLen w s).txCount = s.txCount := rfl
@[simp] theorem setLen_diag (w : Word) (s : State) : (setLen w s).diag = s.diag := rfl
@[simp] theorem setLen_pdiag (w : Word) (s : State) : (setLen w s).pdiag = s.pdiag := rfl
@[simp] theorem setLen_diagDrop (w : Word) (s : State) : (setLen w s).diagDrop = s.diagDrop := rfl
@[simp] theorem setLen_elapsed (w : Word) (s : State) : (setLen w s).elapsed = s.elapsed := rfl
@[simp] theorem setLen_vaddr (w : Word) (s : State) : (setLen w s).vaddr = s.vaddr := rfl
@[simp] theorem setLen_ibuf (w : Word) (s : State) : (setLen w s).ibuf = s.ibuf := rfl
@[simp] theorem setLen_ackres (w : Word) (s : State) : (setLen w s).ackres = s.ackres := rfl
@[simp] theorem setLen_valid (w : Word) (s : State) : (setLen w s).valid = s.valid := rfl
@[simp] theorem setLen_verr (w : Word) (s : State) : (setLen w s).verr = s.verr := rfl
@[simp] theorem setLen_done (w : Word) (s : State) : (setLen w s).done = s.done := rfl
@[simp] theorem setLen_busyerr (w : Word) (s : State) : (setLen w s).busyerr = s.busyerr := rfl
@[simp] theorem setLen_illop (w : Word) (s : State) : (setLen w s).illop = s.illop := rfl
@[simp] theorem setLen_lenerr (w : Word) (s : State) : (setLen w s).lenerr = s.lenerr := rfl
@[simp] theorem setLen_xerr (w : Word) (s : State) : (setLen w s).xerr = s.xerr := rfl
@[simp] theorem setLen_dovf (w : Word) (s : State) : (setLen w s).dovf = s.dovf := rfl
@[simp] theorem setLen_phase (w : Word) (s : State) : (setLen w s).phase = s.phase := rfl
@[simp] theorem setLen_diagCap (w : Word) (s : State) : (setLen w s).diagCap = s.diagCap := rfl
@[simp] theorem setLen_rst (w : Word) (s : State) : (setLen w s).rst = s.rst := rfl
@[simp] theorem setLen_rxq (w : Word) (s : State) : (setLen w s).rxq = s.rxq := rfl
@[simp] theorem setLen_txReady (w : Word) (s : State) : (setLen w s).txReady = s.txReady := rfl
@[simp] theorem setLen_txlog (w : Word) (s : State) : (setLen w s).txlog = s.txlog := rfl
@[simp] theorem setLen_xerrIn (w : Word) (s : State) : (setLen w s).xerrIn = s.xerrIn := rfl
@[simp] theorem setLen_busRdata (w : Word) (s : State) : (setLen w s).busRdata = s.busRdata := rfl
@[simp] theorem setLen_program (w : Word) (s : State) : (setLen w s).program = s.program := rfl
@[simp] theorem setLen_schedule (w : Word) (s : State) : (setLen w s).schedule = s.schedule := rfl
@[simp] theorem setLen_freeReads (w : Word) (s : State) :
    (setLen w s).freeReads = s.freeReads := rfl

/-! ## setDeadline -/

@[simp] theorem setDeadline_arg (w : Word) (s : State) : (setDeadline w s).arg = s.arg := rfl
@[simp] theorem setDeadline_len (w : Word) (s : State) : (setDeadline w s).len = s.len := rfl
@[simp] theorem setDeadline_deadline (w : Word) (s : State) :
    (setDeadline w s).deadline = w.extractLsb' 0 16 := rfl
@[simp] theorem setDeadline_csum (w : Word) (s : State) : (setDeadline w s).csum = s.csum := rfl
@[simp] theorem setDeadline_frame (w : Word) (s : State) : (setDeadline w s).frame = s.frame := rfl
@[simp] theorem setDeadline_txCount (w : Word) (s : State) :
    (setDeadline w s).txCount = s.txCount := rfl
@[simp] theorem setDeadline_diag (w : Word) (s : State) : (setDeadline w s).diag = s.diag := rfl
@[simp] theorem setDeadline_pdiag (w : Word) (s : State) : (setDeadline w s).pdiag = s.pdiag := rfl
@[simp] theorem setDeadline_diagDrop (w : Word) (s : State) :
    (setDeadline w s).diagDrop = s.diagDrop := rfl
@[simp] theorem setDeadline_elapsed (w : Word) (s : State) :
    (setDeadline w s).elapsed = s.elapsed := rfl
@[simp] theorem setDeadline_vaddr (w : Word) (s : State) : (setDeadline w s).vaddr = s.vaddr := rfl
@[simp] theorem setDeadline_ibuf (w : Word) (s : State) : (setDeadline w s).ibuf = s.ibuf := rfl
@[simp] theorem setDeadline_ackres (w : Word) (s : State) :
    (setDeadline w s).ackres = s.ackres := rfl
@[simp] theorem setDeadline_valid (w : Word) (s : State) : (setDeadline w s).valid = s.valid := rfl
@[simp] theorem setDeadline_verr (w : Word) (s : State) : (setDeadline w s).verr = s.verr := rfl
@[simp] theorem setDeadline_done (w : Word) (s : State) : (setDeadline w s).done = s.done := rfl
@[simp] theorem setDeadline_busyerr (w : Word) (s : State) :
    (setDeadline w s).busyerr = s.busyerr := rfl
@[simp] theorem setDeadline_illop (w : Word) (s : State) : (setDeadline w s).illop = s.illop := rfl
@[simp] theorem setDeadline_lenerr (w : Word) (s : State) :
    (setDeadline w s).lenerr = s.lenerr := rfl
@[simp] theorem setDeadline_xerr (w : Word) (s : State) : (setDeadline w s).xerr = s.xerr := rfl
@[simp] theorem setDeadline_dovf (w : Word) (s : State) : (setDeadline w s).dovf = s.dovf := rfl
@[simp] theorem setDeadline_phase (w : Word) (s : State) : (setDeadline w s).phase = s.phase := rfl
@[simp] theorem setDeadline_diagCap (w : Word) (s : State) :
    (setDeadline w s).diagCap = s.diagCap := rfl
@[simp] theorem setDeadline_rst (w : Word) (s : State) : (setDeadline w s).rst = s.rst := rfl
@[simp] theorem setDeadline_rxq (w : Word) (s : State) : (setDeadline w s).rxq = s.rxq := rfl
@[simp] theorem setDeadline_txReady (w : Word) (s : State) :
    (setDeadline w s).txReady = s.txReady := rfl
@[simp] theorem setDeadline_txlog (w : Word) (s : State) : (setDeadline w s).txlog = s.txlog := rfl
@[simp] theorem setDeadline_xerrIn (w : Word) (s : State) :
    (setDeadline w s).xerrIn = s.xerrIn := rfl
@[simp] theorem setDeadline_busRdata (w : Word) (s : State) :
    (setDeadline w s).busRdata = s.busRdata := rfl
@[simp] theorem setDeadline_program (w : Word) (s : State) :
    (setDeadline w s).program = s.program := rfl
@[simp] theorem setDeadline_schedule (w : Word) (s : State) :
    (setDeadline w s).schedule = s.schedule := rfl
@[simp] theorem setDeadline_freeReads (w : Word) (s : State) :
    (setDeadline w s).freeReads = s.freeReads := rfl

/-! ## setCell -/

@[simp] theorem setCell_arg (i : Nat) (w : Word) (s : State) : (setCell i w s).arg = s.arg := rfl
@[simp] theorem setCell_len (i : Nat) (w : Word) (s : State) : (setCell i w s).len = s.len := rfl
@[simp] theorem setCell_deadline (i : Nat) (w : Word) (s : State) :
    (setCell i w s).deadline = s.deadline := rfl
@[simp] theorem setCell_csum (i : Nat) (w : Word) (s : State) : (setCell i w s).csum = s.csum := rfl
@[simp] theorem setCell_frame (i : Nat) (w : Word) (s : State) :
    (setCell i w s).frame = s.frame := rfl
@[simp] theorem setCell_txCount (i : Nat) (w : Word) (s : State) :
    (setCell i w s).txCount = s.txCount := rfl
@[simp] theorem setCell_diag (i : Nat) (w : Word) (s : State) : (setCell i w s).diag = s.diag := rfl
@[simp] theorem setCell_pdiag (i : Nat) (w : Word) (s : State) :
    (setCell i w s).pdiag = s.pdiag := rfl
@[simp] theorem setCell_diagDrop (i : Nat) (w : Word) (s : State) :
    (setCell i w s).diagDrop = s.diagDrop := rfl
@[simp] theorem setCell_elapsed (i : Nat) (w : Word) (s : State) :
    (setCell i w s).elapsed = s.elapsed := rfl
@[simp] theorem setCell_vaddr (i : Nat) (w : Word) (s : State) :
    (setCell i w s).vaddr = s.vaddr := rfl
@[simp] theorem setCell_ibuf (i : Nat) (w : Word) (s : State) :
    (setCell i w s).ibuf = s.ibuf.write i (w.extractLsb' 0 8) := rfl
@[simp] theorem setCell_ackres (i : Nat) (w : Word) (s : State) :
    (setCell i w s).ackres = s.ackres := rfl
@[simp] theorem setCell_valid (i : Nat) (w : Word) (s : State) :
    (setCell i w s).valid = s.valid := rfl
@[simp] theorem setCell_verr (i : Nat) (w : Word) (s : State) : (setCell i w s).verr = s.verr := rfl
@[simp] theorem setCell_done (i : Nat) (w : Word) (s : State) : (setCell i w s).done = s.done := rfl
@[simp] theorem setCell_busyerr (i : Nat) (w : Word) (s : State) :
    (setCell i w s).busyerr = s.busyerr := rfl
@[simp] theorem setCell_illop (i : Nat) (w : Word) (s : State) :
    (setCell i w s).illop = s.illop := rfl
@[simp] theorem setCell_lenerr (i : Nat) (w : Word) (s : State) :
    (setCell i w s).lenerr = s.lenerr := rfl
@[simp] theorem setCell_xerr (i : Nat) (w : Word) (s : State) : (setCell i w s).xerr = s.xerr := rfl
@[simp] theorem setCell_dovf (i : Nat) (w : Word) (s : State) : (setCell i w s).dovf = s.dovf := rfl
@[simp] theorem setCell_phase (i : Nat) (w : Word) (s : State) :
    (setCell i w s).phase = s.phase := rfl
@[simp] theorem setCell_diagCap (i : Nat) (w : Word) (s : State) :
    (setCell i w s).diagCap = s.diagCap := rfl
@[simp] theorem setCell_rst (i : Nat) (w : Word) (s : State) : (setCell i w s).rst = s.rst := rfl
@[simp] theorem setCell_rxq (i : Nat) (w : Word) (s : State) : (setCell i w s).rxq = s.rxq := rfl
@[simp] theorem setCell_txReady (i : Nat) (w : Word) (s : State) :
    (setCell i w s).txReady = s.txReady := rfl
@[simp] theorem setCell_txlog (i : Nat) (w : Word) (s : State) :
    (setCell i w s).txlog = s.txlog := rfl
@[simp] theorem setCell_xerrIn (i : Nat) (w : Word) (s : State) :
    (setCell i w s).xerrIn = s.xerrIn := rfl
@[simp] theorem setCell_busRdata (i : Nat) (w : Word) (s : State) :
    (setCell i w s).busRdata = s.busRdata := rfl
@[simp] theorem setCell_program (i : Nat) (w : Word) (s : State) :
    (setCell i w s).program = s.program := rfl
@[simp] theorem setCell_schedule (i : Nat) (w : Word) (s : State) :
    (setCell i w s).schedule = s.schedule := rfl
@[simp] theorem setCell_freeReads (i : Nat) (w : Word) (s : State) :
    (setCell i w s).freeReads = s.freeReads := rfl

/-! ## clearStatus -/

@[simp] theorem clearStatus_arg (w : Word) (s : State) : (clearStatus w s).arg = s.arg := rfl
@[simp] theorem clearStatus_len (w : Word) (s : State) : (clearStatus w s).len = s.len := rfl
@[simp] theorem clearStatus_deadline (w : Word) (s : State) :
    (clearStatus w s).deadline = s.deadline := rfl
@[simp] theorem clearStatus_csum (w : Word) (s : State) : (clearStatus w s).csum = s.csum := rfl
@[simp] theorem clearStatus_frame (w : Word) (s : State) : (clearStatus w s).frame = s.frame := rfl
@[simp] theorem clearStatus_txCount (w : Word) (s : State) :
    (clearStatus w s).txCount = s.txCount := rfl
@[simp] theorem clearStatus_diag (w : Word) (s : State) : (clearStatus w s).diag = s.diag := rfl
@[simp] theorem clearStatus_pdiag (w : Word) (s : State) : (clearStatus w s).pdiag = s.pdiag := rfl
@[simp] theorem clearStatus_diagDrop (w : Word) (s : State) :
    (clearStatus w s).diagDrop = s.diagDrop := rfl
@[simp] theorem clearStatus_elapsed (w : Word) (s : State) :
    (clearStatus w s).elapsed = s.elapsed := rfl
@[simp] theorem clearStatus_vaddr (w : Word) (s : State) : (clearStatus w s).vaddr = s.vaddr := rfl
@[simp] theorem clearStatus_ibuf (w : Word) (s : State) : (clearStatus w s).ibuf = s.ibuf := rfl
@[simp] theorem clearStatus_ackres (w : Word) (s : State) :
    (clearStatus w s).ackres = s.ackres := rfl
@[simp] theorem clearStatus_valid (w : Word) (s : State) : (clearStatus w s).valid = s.valid := rfl
@[simp] theorem clearStatus_verr (w : Word) (s : State) : (clearStatus w s).verr = s.verr := rfl
@[simp] theorem clearStatus_done (w : Word) (s : State) :
    (clearStatus w s).done = (s.done && !w.getLsbD 8) := rfl
@[simp] theorem clearStatus_busyerr (w : Word) (s : State) :
    (clearStatus w s).busyerr = (s.busyerr && !w.getLsbD 9) := rfl
@[simp] theorem clearStatus_illop (w : Word) (s : State) :
    (clearStatus w s).illop = (s.illop && !w.getLsbD 10) := rfl
@[simp] theorem clearStatus_lenerr (w : Word) (s : State) :
    (clearStatus w s).lenerr = (s.lenerr && !w.getLsbD 11) := rfl
@[simp] theorem clearStatus_xerr (w : Word) (s : State) :
    (clearStatus w s).xerr = (s.xerr && !w.getLsbD 12) := rfl
@[simp] theorem clearStatus_dovf (w : Word) (s : State) : (clearStatus w s).dovf = s.dovf := rfl
@[simp] theorem clearStatus_phase (w : Word) (s : State) : (clearStatus w s).phase = s.phase := rfl
@[simp] theorem clearStatus_diagCap (w : Word) (s : State) :
    (clearStatus w s).diagCap = s.diagCap := rfl
@[simp] theorem clearStatus_rst (w : Word) (s : State) : (clearStatus w s).rst = s.rst := rfl
@[simp] theorem clearStatus_rxq (w : Word) (s : State) : (clearStatus w s).rxq = s.rxq := rfl
@[simp] theorem clearStatus_txReady (w : Word) (s : State) :
    (clearStatus w s).txReady = s.txReady := rfl
@[simp] theorem clearStatus_txlog (w : Word) (s : State) : (clearStatus w s).txlog = s.txlog := rfl
@[simp] theorem clearStatus_xerrIn (w : Word) (s : State) :
    (clearStatus w s).xerrIn = s.xerrIn := rfl
@[simp] theorem clearStatus_busRdata (w : Word) (s : State) :
    (clearStatus w s).busRdata = s.busRdata := rfl
@[simp] theorem clearStatus_program (w : Word) (s : State) :
    (clearStatus w s).program = s.program := rfl
@[simp] theorem clearStatus_schedule (w : Word) (s : State) :
    (clearStatus w s).schedule = s.schedule := rfl
@[simp] theorem clearStatus_freeReads (w : Word) (s : State) :
    (clearStatus w s).freeReads = s.freeReads := rfl

/-! ## hostRead -/

@[simp] theorem hostRead_arg (off : Offset) (s : State) : (hostRead off s).arg = s.arg := rfl
@[simp] theorem hostRead_len (off : Offset) (s : State) : (hostRead off s).len = s.len := rfl
@[simp] theorem hostRead_deadline (off : Offset) (s : State) :
    (hostRead off s).deadline = s.deadline := rfl
@[simp] theorem hostRead_csum (off : Offset) (s : State) : (hostRead off s).csum = s.csum := rfl
@[simp] theorem hostRead_frame (off : Offset) (s : State) : (hostRead off s).frame = s.frame := rfl
@[simp] theorem hostRead_txCount (off : Offset) (s : State) :
    (hostRead off s).txCount = s.txCount := rfl
@[simp] theorem hostRead_diag (off : Offset) (s : State) : (hostRead off s).diag = s.diag := rfl
@[simp] theorem hostRead_pdiag (off : Offset) (s : State) : (hostRead off s).pdiag = s.pdiag := rfl
@[simp] theorem hostRead_diagDrop (off : Offset) (s : State) :
    (hostRead off s).diagDrop = s.diagDrop := rfl
@[simp] theorem hostRead_elapsed (off : Offset) (s : State) :
    (hostRead off s).elapsed = s.elapsed := rfl
@[simp] theorem hostRead_vaddr (off : Offset) (s : State) : (hostRead off s).vaddr = s.vaddr := rfl
@[simp] theorem hostRead_ibuf (off : Offset) (s : State) : (hostRead off s).ibuf = s.ibuf := rfl
@[simp] theorem hostRead_ackres (off : Offset) (s : State) :
    (hostRead off s).ackres = s.ackres := rfl
@[simp] theorem hostRead_valid (off : Offset) (s : State) : (hostRead off s).valid = s.valid := rfl
@[simp] theorem hostRead_verr (off : Offset) (s : State) : (hostRead off s).verr = s.verr := rfl
@[simp] theorem hostRead_done (off : Offset) (s : State) : (hostRead off s).done = s.done := rfl
@[simp] theorem hostRead_busyerr (off : Offset) (s : State) :
    (hostRead off s).busyerr = s.busyerr := rfl
@[simp] theorem hostRead_illop (off : Offset) (s : State) : (hostRead off s).illop = s.illop := rfl
@[simp] theorem hostRead_lenerr (off : Offset) (s : State) :
    (hostRead off s).lenerr = s.lenerr := rfl
@[simp] theorem hostRead_xerr (off : Offset) (s : State) : (hostRead off s).xerr = s.xerr := rfl
@[simp] theorem hostRead_dovf (off : Offset) (s : State) : (hostRead off s).dovf = s.dovf := rfl
@[simp] theorem hostRead_phase (off : Offset) (s : State) : (hostRead off s).phase = s.phase := rfl
@[simp] theorem hostRead_diagCap (off : Offset) (s : State) :
    (hostRead off s).diagCap = s.diagCap := rfl
@[simp] theorem hostRead_rst (off : Offset) (s : State) : (hostRead off s).rst = s.rst := rfl
@[simp] theorem hostRead_rxq (off : Offset) (s : State) : (hostRead off s).rxq = s.rxq := rfl
@[simp] theorem hostRead_txReady (off : Offset) (s : State) :
    (hostRead off s).txReady = s.txReady := rfl
@[simp] theorem hostRead_txlog (off : Offset) (s : State) : (hostRead off s).txlog = s.txlog := rfl
@[simp] theorem hostRead_xerrIn (off : Offset) (s : State) :
    (hostRead off s).xerrIn = s.xerrIn := rfl
@[simp] theorem hostRead_busRdata (off : Offset) (s : State) :
    (hostRead off s).busRdata = readval s off := rfl
@[simp] theorem hostRead_program (off : Offset) (s : State) :
    (hostRead off s).program = s.program := rfl
@[simp] theorem hostRead_schedule (off : Offset) (s : State) :
    (hostRead off s).schedule = s.schedule := rfl
@[simp] theorem hostRead_freeReads (off : Offset) (s : State) :
    (hostRead off s).freeReads = s.freeReads + freeTaken s off := rfl

/-! ## resetBlock -/

@[simp] theorem resetBlock_arg (s : State) : (resetBlock s).arg = 0 := rfl
@[simp] theorem resetBlock_len (s : State) : (resetBlock s).len = 0 := rfl
@[simp] theorem resetBlock_deadline (s : State) : (resetBlock s).deadline = 0 := rfl
@[simp] theorem resetBlock_csum (s : State) : (resetBlock s).csum = 0 := rfl
@[simp] theorem resetBlock_frame (s : State) : (resetBlock s).frame = [] := rfl
@[simp] theorem resetBlock_txCount (s : State) : (resetBlock s).txCount = 0 := rfl
@[simp] theorem resetBlock_diag (s : State) : (resetBlock s).diag = [] := rfl
@[simp] theorem resetBlock_pdiag (s : State) : (resetBlock s).pdiag = [] := rfl
@[simp] theorem resetBlock_diagDrop (s : State) : (resetBlock s).diagDrop = 0 := rfl
@[simp] theorem resetBlock_elapsed (s : State) : (resetBlock s).elapsed = 0 := rfl
@[simp] theorem resetBlock_vaddr (s : State) : (resetBlock s).vaddr = 0 := rfl
@[simp] theorem resetBlock_ibuf (s : State) : (resetBlock s).ibuf = [] := rfl
@[simp] theorem resetBlock_ackres (s : State) : (resetBlock s).ackres = .none := rfl
@[simp] theorem resetBlock_valid (s : State) : (resetBlock s).valid = false := rfl
@[simp] theorem resetBlock_verr (s : State) : (resetBlock s).verr = .ok := rfl
@[simp] theorem resetBlock_done (s : State) : (resetBlock s).done = false := rfl
@[simp] theorem resetBlock_busyerr (s : State) : (resetBlock s).busyerr = false := rfl
@[simp] theorem resetBlock_illop (s : State) : (resetBlock s).illop = false := rfl
@[simp] theorem resetBlock_lenerr (s : State) : (resetBlock s).lenerr = false := rfl
@[simp] theorem resetBlock_xerr (s : State) : (resetBlock s).xerr = false := rfl
@[simp] theorem resetBlock_dovf (s : State) : (resetBlock s).dovf = false := rfl
@[simp] theorem resetBlock_phase (s : State) : (resetBlock s).phase = .idle := rfl
@[simp] theorem resetBlock_diagCap (s : State) : (resetBlock s).diagCap = s.diagCap := rfl
@[simp] theorem resetBlock_rst (s : State) : (resetBlock s).rst = s.rst := rfl
@[simp] theorem resetBlock_rxq (s : State) : (resetBlock s).rxq = s.rxq := rfl
@[simp] theorem resetBlock_txReady (s : State) : (resetBlock s).txReady = s.txReady := rfl
@[simp] theorem resetBlock_txlog (s : State) : (resetBlock s).txlog = s.txlog := rfl
@[simp] theorem resetBlock_xerrIn (s : State) : (resetBlock s).xerrIn = s.xerrIn := rfl
@[simp] theorem resetBlock_busRdata (s : State) : (resetBlock s).busRdata = s.busRdata := rfl
@[simp] theorem resetBlock_program (s : State) : (resetBlock s).program = s.program := rfl
@[simp] theorem resetBlock_schedule (s : State) : (resetBlock s).schedule = s.schedule := rfl
@[simp] theorem resetBlock_freeReads (s : State) : (resetBlock s).freeReads = s.freeReads := rfl

/-! ## append -/

@[simp] theorem append_arg (b : Byte) (s : State) : (append b s).arg = s.arg := by
  unfold append; split <;> rfl
@[simp] theorem append_len (b : Byte) (s : State) : (append b s).len = s.len := by
  unfold append; split <;> rfl
@[simp] theorem append_deadline (b : Byte) (s : State) : (append b s).deadline = s.deadline := by
  unfold append; split <;> rfl
@[simp] theorem append_csum (b : Byte) (s : State) : (append b s).csum = s.csum := by
  unfold append; split <;> rfl
@[simp] theorem append_frame (b : Byte) (s : State) : (append b s).frame = s.frame := by
  unfold append; split <;> rfl
@[simp] theorem append_txCount (b : Byte) (s : State) : (append b s).txCount = s.txCount := by
  unfold append; split <;> rfl
@[simp] theorem append_pdiag (b : Byte) (s : State) : (append b s).pdiag = s.pdiag := by
  unfold append; split <;> rfl
@[simp] theorem append_elapsed (b : Byte) (s : State) : (append b s).elapsed = s.elapsed := by
  unfold append; split <;> rfl
@[simp] theorem append_vaddr (b : Byte) (s : State) : (append b s).vaddr = s.vaddr := by
  unfold append; split <;> rfl
@[simp] theorem append_ibuf (b : Byte) (s : State) : (append b s).ibuf = s.ibuf := by
  unfold append; split <;> rfl
@[simp] theorem append_ackres (b : Byte) (s : State) : (append b s).ackres = s.ackres := by
  unfold append; split <;> rfl
@[simp] theorem append_valid (b : Byte) (s : State) : (append b s).valid = s.valid := by
  unfold append; split <;> rfl
@[simp] theorem append_verr (b : Byte) (s : State) : (append b s).verr = s.verr := by
  unfold append; split <;> rfl
@[simp] theorem append_done (b : Byte) (s : State) : (append b s).done = s.done := by
  unfold append; split <;> rfl
@[simp] theorem append_busyerr (b : Byte) (s : State) : (append b s).busyerr = s.busyerr := by
  unfold append; split <;> rfl
@[simp] theorem append_illop (b : Byte) (s : State) : (append b s).illop = s.illop := by
  unfold append; split <;> rfl
@[simp] theorem append_lenerr (b : Byte) (s : State) : (append b s).lenerr = s.lenerr := by
  unfold append; split <;> rfl
@[simp] theorem append_xerr (b : Byte) (s : State) : (append b s).xerr = s.xerr := by
  unfold append; split <;> rfl
@[simp] theorem append_phase (b : Byte) (s : State) : (append b s).phase = s.phase := by
  unfold append; split <;> rfl
@[simp] theorem append_diagCap (b : Byte) (s : State) : (append b s).diagCap = s.diagCap := by
  unfold append; split <;> rfl
@[simp] theorem append_rst (b : Byte) (s : State) : (append b s).rst = s.rst := by
  unfold append; split <;> rfl
@[simp] theorem append_rxq (b : Byte) (s : State) : (append b s).rxq = s.rxq := by
  unfold append; split <;> rfl
@[simp] theorem append_txReady (b : Byte) (s : State) : (append b s).txReady = s.txReady := by
  unfold append; split <;> rfl
@[simp] theorem append_txlog (b : Byte) (s : State) : (append b s).txlog = s.txlog := by
  unfold append; split <;> rfl
@[simp] theorem append_xerrIn (b : Byte) (s : State) : (append b s).xerrIn = s.xerrIn := by
  unfold append; split <;> rfl
@[simp] theorem append_busRdata (b : Byte) (s : State) : (append b s).busRdata = s.busRdata := by
  unfold append; split <;> rfl
@[simp] theorem append_program (b : Byte) (s : State) : (append b s).program = s.program := by
  unfold append; split <;> rfl
@[simp] theorem append_schedule (b : Byte) (s : State) : (append b s).schedule = s.schedule := by
  unfold append; split <;> rfl
@[simp] theorem append_freeReads (b : Byte) (s : State) : (append b s).freeReads = s.freeReads := by
  unfold append; split <;> rfl

/-! ## xportFail -/

@[simp] theorem xportFail_arg (s : State) : (xportFail s).arg = s.arg := by
  unfold xportFail; split <;> rfl
@[simp] theorem xportFail_len (s : State) : (xportFail s).len = s.len := by
  unfold xportFail; split <;> rfl
@[simp] theorem xportFail_deadline (s : State) : (xportFail s).deadline = s.deadline := by
  unfold xportFail; split <;> rfl
@[simp] theorem xportFail_csum (s : State) : (xportFail s).csum = s.csum := by
  unfold xportFail; split <;> rfl
@[simp] theorem xportFail_frame (s : State) : (xportFail s).frame = s.frame := by
  unfold xportFail; split <;> rfl
@[simp] theorem xportFail_txCount (s : State) : (xportFail s).txCount = s.txCount := by
  unfold xportFail; split <;> rfl
@[simp] theorem xportFail_diag (s : State) : (xportFail s).diag = s.diag := by
  unfold xportFail; split <;> rfl
@[simp] theorem xportFail_pdiag (s : State) : (xportFail s).pdiag = s.pdiag := by
  unfold xportFail; split <;> rfl
@[simp] theorem xportFail_diagDrop (s : State) : (xportFail s).diagDrop = s.diagDrop := by
  unfold xportFail; split <;> rfl
@[simp] theorem xportFail_elapsed (s : State) : (xportFail s).elapsed = s.elapsed := by
  unfold xportFail; split <;> rfl
@[simp] theorem xportFail_vaddr (s : State) : (xportFail s).vaddr = s.vaddr := by
  unfold xportFail; split <;> rfl
@[simp] theorem xportFail_ibuf (s : State) : (xportFail s).ibuf = s.ibuf := by
  unfold xportFail; split <;> rfl
@[simp] theorem xportFail_valid (s : State) : (xportFail s).valid = s.valid := by
  unfold xportFail; split <;> rfl
@[simp] theorem xportFail_verr (s : State) : (xportFail s).verr = s.verr := by
  unfold xportFail; split <;> rfl
@[simp] theorem xportFail_done (s : State) : (xportFail s).done = true := by
  unfold xportFail; split <;> rfl
@[simp] theorem xportFail_busyerr (s : State) : (xportFail s).busyerr = s.busyerr := by
  unfold xportFail; split <;> rfl
@[simp] theorem xportFail_illop (s : State) : (xportFail s).illop = s.illop := by
  unfold xportFail; split <;> rfl
@[simp] theorem xportFail_lenerr (s : State) : (xportFail s).lenerr = s.lenerr := by
  unfold xportFail; split <;> rfl
@[simp] theorem xportFail_xerr (s : State) : (xportFail s).xerr = true := by
  unfold xportFail; split <;> rfl
@[simp] theorem xportFail_dovf (s : State) : (xportFail s).dovf = s.dovf := by
  unfold xportFail; split <;> rfl
@[simp] theorem xportFail_phase (s : State) : (xportFail s).phase = .idle := by
  unfold xportFail; split <;> rfl
@[simp] theorem xportFail_diagCap (s : State) : (xportFail s).diagCap = s.diagCap := by
  unfold xportFail; split <;> rfl
@[simp] theorem xportFail_rst (s : State) : (xportFail s).rst = s.rst := by
  unfold xportFail; split <;> rfl
@[simp] theorem xportFail_rxq (s : State) : (xportFail s).rxq = s.rxq := by
  unfold xportFail; split <;> rfl
@[simp] theorem xportFail_txReady (s : State) : (xportFail s).txReady = s.txReady := by
  unfold xportFail; split <;> rfl
@[simp] theorem xportFail_txlog (s : State) : (xportFail s).txlog = s.txlog := by
  unfold xportFail; split <;> rfl
@[simp] theorem xportFail_xerrIn (s : State) : (xportFail s).xerrIn = s.xerrIn := by
  unfold xportFail; split <;> rfl
@[simp] theorem xportFail_busRdata (s : State) : (xportFail s).busRdata = s.busRdata := by
  unfold xportFail; split <;> rfl
@[simp] theorem xportFail_program (s : State) : (xportFail s).program = s.program := by
  unfold xportFail; split <;> rfl
@[simp] theorem xportFail_schedule (s : State) : (xportFail s).schedule = s.schedule := by
  unfold xportFail; split <;> rfl
@[simp] theorem xportFail_freeReads (s : State) : (xportFail s).freeReads = s.freeReads := by
  unfold xportFail; split <;> rfl

/-! ## checkVerdict -/

@[simp] theorem checkVerdict_arg (got c : Byte) (s : State) :
    (checkVerdict got c s).arg = s.arg := by
  unfold checkVerdict; split <;> rfl
@[simp] theorem checkVerdict_len (got c : Byte) (s : State) :
    (checkVerdict got c s).len = s.len := by
  unfold checkVerdict; split <;> rfl
@[simp] theorem checkVerdict_deadline (got c : Byte) (s : State) :
    (checkVerdict got c s).deadline = s.deadline := by
  unfold checkVerdict; split <;> rfl
@[simp] theorem checkVerdict_csum (got c : Byte) (s : State) :
    (checkVerdict got c s).csum = s.csum := by
  unfold checkVerdict; split <;> rfl
@[simp] theorem checkVerdict_frame (got c : Byte) (s : State) :
    (checkVerdict got c s).frame = s.frame := by
  unfold checkVerdict; split <;> rfl
@[simp] theorem checkVerdict_txCount (got c : Byte) (s : State) :
    (checkVerdict got c s).txCount = s.txCount := by
  unfold checkVerdict; split <;> rfl
@[simp] theorem checkVerdict_diag (got c : Byte) (s : State) :
    (checkVerdict got c s).diag = s.diag := by
  unfold checkVerdict; split <;> rfl
@[simp] theorem checkVerdict_pdiag (got c : Byte) (s : State) :
    (checkVerdict got c s).pdiag = s.pdiag := by
  unfold checkVerdict; split <;> rfl
@[simp] theorem checkVerdict_diagDrop (got c : Byte) (s : State) :
    (checkVerdict got c s).diagDrop = s.diagDrop := by
  unfold checkVerdict; split <;> rfl
@[simp] theorem checkVerdict_elapsed (got c : Byte) (s : State) :
    (checkVerdict got c s).elapsed = s.elapsed := by
  unfold checkVerdict; split <;> rfl
@[simp] theorem checkVerdict_vaddr (got c : Byte) (s : State) :
    (checkVerdict got c s).vaddr = s.vaddr := by
  unfold checkVerdict; split <;> rfl
@[simp] theorem checkVerdict_ibuf (got c : Byte) (s : State) :
    (checkVerdict got c s).ibuf = s.ibuf := by
  unfold checkVerdict; split <;> rfl
@[simp] theorem checkVerdict_ackres (got c : Byte) (s : State) :
    (checkVerdict got c s).ackres = s.ackres := by
  unfold checkVerdict; split <;> rfl
@[simp] theorem checkVerdict_done (got c : Byte) (s : State) :
    (checkVerdict got c s).done = s.done := by
  unfold checkVerdict; split <;> rfl
@[simp] theorem checkVerdict_busyerr (got c : Byte) (s : State) :
    (checkVerdict got c s).busyerr = s.busyerr := by
  unfold checkVerdict; split <;> rfl
@[simp] theorem checkVerdict_illop (got c : Byte) (s : State) :
    (checkVerdict got c s).illop = s.illop := by
  unfold checkVerdict; split <;> rfl
@[simp] theorem checkVerdict_lenerr (got c : Byte) (s : State) :
    (checkVerdict got c s).lenerr = s.lenerr := by
  unfold checkVerdict; split <;> rfl
@[simp] theorem checkVerdict_xerr (got c : Byte) (s : State) :
    (checkVerdict got c s).xerr = s.xerr := by
  unfold checkVerdict; split <;> rfl
@[simp] theorem checkVerdict_dovf (got c : Byte) (s : State) :
    (checkVerdict got c s).dovf = s.dovf := by
  unfold checkVerdict; split <;> rfl
@[simp] theorem checkVerdict_phase (got c : Byte) (s : State) :
    (checkVerdict got c s).phase = s.phase := by
  unfold checkVerdict; split <;> rfl
@[simp] theorem checkVerdict_diagCap (got c : Byte) (s : State) :
    (checkVerdict got c s).diagCap = s.diagCap := by
  unfold checkVerdict; split <;> rfl
@[simp] theorem checkVerdict_rst (got c : Byte) (s : State) :
    (checkVerdict got c s).rst = s.rst := by
  unfold checkVerdict; split <;> rfl
@[simp] theorem checkVerdict_rxq (got c : Byte) (s : State) :
    (checkVerdict got c s).rxq = s.rxq := by
  unfold checkVerdict; split <;> rfl
@[simp] theorem checkVerdict_txReady (got c : Byte) (s : State) :
    (checkVerdict got c s).txReady = s.txReady := by
  unfold checkVerdict; split <;> rfl
@[simp] theorem checkVerdict_txlog (got c : Byte) (s : State) :
    (checkVerdict got c s).txlog = s.txlog := by
  unfold checkVerdict; split <;> rfl
@[simp] theorem checkVerdict_xerrIn (got c : Byte) (s : State) :
    (checkVerdict got c s).xerrIn = s.xerrIn := by
  unfold checkVerdict; split <;> rfl
@[simp] theorem checkVerdict_busRdata (got c : Byte) (s : State) :
    (checkVerdict got c s).busRdata = s.busRdata := by
  unfold checkVerdict; split <;> rfl
@[simp] theorem checkVerdict_program (got c : Byte) (s : State) :
    (checkVerdict got c s).program = s.program := by
  unfold checkVerdict; split <;> rfl
@[simp] theorem checkVerdict_schedule (got c : Byte) (s : State) :
    (checkVerdict got c s).schedule = s.schedule := by
  unfold checkVerdict; split <;> rfl
@[simp] theorem checkVerdict_freeReads (got c : Byte) (s : State) :
    (checkVerdict got c s).freeReads = s.freeReads := by
  unfold checkVerdict; split <;> rfl

/-! ## checkAddrVerdict -/

@[simp] theorem checkAddrVerdict_arg (bs : List Byte) (got : Byte) (s : State) :
    (checkAddrVerdict bs got s).arg = s.arg := by
  unfold checkAddrVerdict; split <;> rfl
@[simp] theorem checkAddrVerdict_len (bs : List Byte) (got : Byte) (s : State) :
    (checkAddrVerdict bs got s).len = s.len := by
  unfold checkAddrVerdict; split <;> rfl
@[simp] theorem checkAddrVerdict_deadline (bs : List Byte) (got : Byte) (s : State) :
    (checkAddrVerdict bs got s).deadline = s.deadline := by
  unfold checkAddrVerdict; split <;> rfl
@[simp] theorem checkAddrVerdict_csum (bs : List Byte) (got : Byte) (s : State) :
    (checkAddrVerdict bs got s).csum = s.csum := by
  unfold checkAddrVerdict; split <;> rfl
@[simp] theorem checkAddrVerdict_frame (bs : List Byte) (got : Byte) (s : State) :
    (checkAddrVerdict bs got s).frame = s.frame := by
  unfold checkAddrVerdict; split <;> rfl
@[simp] theorem checkAddrVerdict_txCount (bs : List Byte) (got : Byte) (s : State) :
    (checkAddrVerdict bs got s).txCount = s.txCount := by
  unfold checkAddrVerdict; split <;> rfl
@[simp] theorem checkAddrVerdict_diag (bs : List Byte) (got : Byte) (s : State) :
    (checkAddrVerdict bs got s).diag = s.diag := by
  unfold checkAddrVerdict; split <;> rfl
@[simp] theorem checkAddrVerdict_pdiag (bs : List Byte) (got : Byte) (s : State) :
    (checkAddrVerdict bs got s).pdiag = s.pdiag := by
  unfold checkAddrVerdict; split <;> rfl
@[simp] theorem checkAddrVerdict_diagDrop (bs : List Byte) (got : Byte) (s : State) :
    (checkAddrVerdict bs got s).diagDrop = s.diagDrop := by
  unfold checkAddrVerdict; split <;> rfl
@[simp] theorem checkAddrVerdict_elapsed (bs : List Byte) (got : Byte) (s : State) :
    (checkAddrVerdict bs got s).elapsed = s.elapsed := by
  unfold checkAddrVerdict; split <;> rfl
@[simp] theorem checkAddrVerdict_ibuf (bs : List Byte) (got : Byte) (s : State) :
    (checkAddrVerdict bs got s).ibuf = s.ibuf := by
  unfold checkAddrVerdict; split <;> rfl
@[simp] theorem checkAddrVerdict_ackres (bs : List Byte) (got : Byte) (s : State) :
    (checkAddrVerdict bs got s).ackres = s.ackres := by
  unfold checkAddrVerdict; split <;> rfl
@[simp] theorem checkAddrVerdict_done (bs : List Byte) (got : Byte) (s : State) :
    (checkAddrVerdict bs got s).done = s.done := by
  unfold checkAddrVerdict; split <;> rfl
@[simp] theorem checkAddrVerdict_busyerr (bs : List Byte) (got : Byte) (s : State) :
    (checkAddrVerdict bs got s).busyerr = s.busyerr := by
  unfold checkAddrVerdict; split <;> rfl
@[simp] theorem checkAddrVerdict_illop (bs : List Byte) (got : Byte) (s : State) :
    (checkAddrVerdict bs got s).illop = s.illop := by
  unfold checkAddrVerdict; split <;> rfl
@[simp] theorem checkAddrVerdict_lenerr (bs : List Byte) (got : Byte) (s : State) :
    (checkAddrVerdict bs got s).lenerr = s.lenerr := by
  unfold checkAddrVerdict; split <;> rfl
@[simp] theorem checkAddrVerdict_xerr (bs : List Byte) (got : Byte) (s : State) :
    (checkAddrVerdict bs got s).xerr = s.xerr := by
  unfold checkAddrVerdict; split <;> rfl
@[simp] theorem checkAddrVerdict_dovf (bs : List Byte) (got : Byte) (s : State) :
    (checkAddrVerdict bs got s).dovf = s.dovf := by
  unfold checkAddrVerdict; split <;> rfl
@[simp] theorem checkAddrVerdict_phase (bs : List Byte) (got : Byte) (s : State) :
    (checkAddrVerdict bs got s).phase = s.phase := by
  unfold checkAddrVerdict; split <;> rfl
@[simp] theorem checkAddrVerdict_diagCap (bs : List Byte) (got : Byte) (s : State) :
    (checkAddrVerdict bs got s).diagCap = s.diagCap := by
  unfold checkAddrVerdict; split <;> rfl
@[simp] theorem checkAddrVerdict_rst (bs : List Byte) (got : Byte) (s : State) :
    (checkAddrVerdict bs got s).rst = s.rst := by
  unfold checkAddrVerdict; split <;> rfl
@[simp] theorem checkAddrVerdict_rxq (bs : List Byte) (got : Byte) (s : State) :
    (checkAddrVerdict bs got s).rxq = s.rxq := by
  unfold checkAddrVerdict; split <;> rfl
@[simp] theorem checkAddrVerdict_txReady (bs : List Byte) (got : Byte) (s : State) :
    (checkAddrVerdict bs got s).txReady = s.txReady := by
  unfold checkAddrVerdict; split <;> rfl
@[simp] theorem checkAddrVerdict_txlog (bs : List Byte) (got : Byte) (s : State) :
    (checkAddrVerdict bs got s).txlog = s.txlog := by
  unfold checkAddrVerdict; split <;> rfl
@[simp] theorem checkAddrVerdict_xerrIn (bs : List Byte) (got : Byte) (s : State) :
    (checkAddrVerdict bs got s).xerrIn = s.xerrIn := by
  unfold checkAddrVerdict; split <;> rfl
@[simp] theorem checkAddrVerdict_busRdata (bs : List Byte) (got : Byte) (s : State) :
    (checkAddrVerdict bs got s).busRdata = s.busRdata := by
  unfold checkAddrVerdict; split <;> rfl
@[simp] theorem checkAddrVerdict_program (bs : List Byte) (got : Byte) (s : State) :
    (checkAddrVerdict bs got s).program = s.program := by
  unfold checkAddrVerdict; split <;> rfl
@[simp] theorem checkAddrVerdict_schedule (bs : List Byte) (got : Byte) (s : State) :
    (checkAddrVerdict bs got s).schedule = s.schedule := by
  unfold checkAddrVerdict; split <;> rfl
@[simp] theorem checkAddrVerdict_freeReads (bs : List Byte) (got : Byte) (s : State) :
    (checkAddrVerdict bs got s).freeReads = s.freeReads := by
  unfold checkAddrVerdict; split <;> rfl

/-! ## tick -/

@[simp] theorem tick_arg (s : State) :
    (tick s).arg = s.arg := by
  unfold tick; split <;> (try split) <;> rfl
@[simp] theorem tick_len (s : State) :
    (tick s).len = s.len := by
  unfold tick; split <;> (try split) <;> rfl
@[simp] theorem tick_deadline (s : State) :
    (tick s).deadline = s.deadline := by
  unfold tick; split <;> (try split) <;> rfl
@[simp] theorem tick_csum (s : State) :
    (tick s).csum = s.csum := by
  unfold tick; split <;> (try split) <;> rfl
@[simp] theorem tick_frame (s : State) :
    (tick s).frame = s.frame := by
  unfold tick; split <;> (try split) <;> rfl
@[simp] theorem tick_txCount (s : State) :
    (tick s).txCount = s.txCount := by
  unfold tick; split <;> (try split) <;> rfl
@[simp] theorem tick_diag (s : State) :
    (tick s).diag = s.diag := by
  unfold tick; split <;> (try split) <;> rfl
@[simp] theorem tick_pdiag (s : State) :
    (tick s).pdiag = s.pdiag := by
  unfold tick; split <;> (try split) <;> rfl
@[simp] theorem tick_diagDrop (s : State) :
    (tick s).diagDrop = s.diagDrop := by
  unfold tick; split <;> (try split) <;> rfl
@[simp] theorem tick_vaddr (s : State) :
    (tick s).vaddr = s.vaddr := by
  unfold tick; split <;> (try split) <;> rfl
@[simp] theorem tick_ibuf (s : State) :
    (tick s).ibuf = s.ibuf := by
  unfold tick; split <;> (try split) <;> rfl
@[simp] theorem tick_ackres (s : State) :
    (tick s).ackres = s.ackres := by
  unfold tick; split <;> (try split) <;> rfl
@[simp] theorem tick_valid (s : State) :
    (tick s).valid = s.valid := by
  unfold tick; split <;> (try split) <;> rfl
@[simp] theorem tick_verr (s : State) :
    (tick s).verr = s.verr := by
  unfold tick; split <;> (try split) <;> rfl
@[simp] theorem tick_done (s : State) :
    (tick s).done = s.done := by
  unfold tick; split <;> (try split) <;> rfl
@[simp] theorem tick_busyerr (s : State) :
    (tick s).busyerr = s.busyerr := by
  unfold tick; split <;> (try split) <;> rfl
@[simp] theorem tick_illop (s : State) :
    (tick s).illop = s.illop := by
  unfold tick; split <;> (try split) <;> rfl
@[simp] theorem tick_lenerr (s : State) :
    (tick s).lenerr = s.lenerr := by
  unfold tick; split <;> (try split) <;> rfl
@[simp] theorem tick_xerr (s : State) :
    (tick s).xerr = s.xerr := by
  unfold tick; split <;> (try split) <;> rfl
@[simp] theorem tick_dovf (s : State) :
    (tick s).dovf = s.dovf := by
  unfold tick; split <;> (try split) <;> rfl
@[simp] theorem tick_phase (s : State) :
    (tick s).phase = s.phase := by
  unfold tick; split <;> (try split) <;> rfl
@[simp] theorem tick_diagCap (s : State) :
    (tick s).diagCap = s.diagCap := by
  unfold tick; split <;> (try split) <;> rfl
@[simp] theorem tick_rst (s : State) :
    (tick s).rst = s.rst := by
  unfold tick; split <;> (try split) <;> rfl
@[simp] theorem tick_rxq (s : State) :
    (tick s).rxq = s.rxq := by
  unfold tick; split <;> (try split) <;> rfl
@[simp] theorem tick_txReady (s : State) :
    (tick s).txReady = s.txReady := by
  unfold tick; split <;> (try split) <;> rfl
@[simp] theorem tick_txlog (s : State) :
    (tick s).txlog = s.txlog := by
  unfold tick; split <;> (try split) <;> rfl
@[simp] theorem tick_xerrIn (s : State) :
    (tick s).xerrIn = s.xerrIn := by
  unfold tick; split <;> (try split) <;> rfl
@[simp] theorem tick_busRdata (s : State) :
    (tick s).busRdata = s.busRdata := by
  unfold tick; split <;> (try split) <;> rfl
@[simp] theorem tick_program (s : State) :
    (tick s).program = s.program := by
  unfold tick; split <;> (try split) <;> rfl
@[simp] theorem tick_schedule (s : State) :
    (tick s).schedule = s.schedule := by
  unfold tick; split <;> (try split) <;> rfl
@[simp] theorem tick_freeReads (s : State) :
    (tick s).freeReads = s.freeReads := by
  unfold tick; split <;> (try split) <;> rfl

end Sys2Proof.Machine
end

