-- ==== Sys2Proof/Laws/Ops.lean ====
section
/-! SUPPORT. One lemma per shared operation that says everything it can do. -/

namespace Sys2Proof.Machine

/-- A one-step operation that answers a next state was accepted, ran, or was blocked. -/
theorem oneStep_next {op : ExecOp} {accept : State → State} {effect : State → Result} {s t : State}
    (h : oneStep op accept effect s = .next t) :
    (s.phase = .idle ∧ t = accept s) ∨ (s.phase = .exec op ∧ effect s = .next t) ∨
      (s.phase ≠ .idle ∧ s.phase ≠ .exec op ∧ t = blockedWrite s) := by
  unfold oneStep at h
  split at h
  · rename_i hp; cases h; exact .inl ⟨hp, rfl⟩
  · rename_i op' hp
    split at h
    · rename_i ho; subst ho; exact .inr (.inl ⟨hp, h⟩)
    · rename_i ho; cases h; exact .inr (.inr ⟨by simp [hp], by simp [hp, ho], rfl⟩)
  · rename_i hp; cases h; exact .inr (.inr ⟨by simp [hp], by simp [hp], rfl⟩)
  · rename_i hp; cases h; exact .inr (.inr ⟨by simp [hp], by simp [hp], rfl⟩)

theorem oneStep_idle {op : ExecOp} {accept : State → State} {effect : State → Result} {s : State}
    (h : s.phase = .idle) : oneStep op accept effect s = .next (accept s) := by
  simp [oneStep, h]

theorem oneStep_exec {op : ExecOp} {accept : State → State} {effect : State → Result} {s : State}
    (h : s.phase = .exec op) : oneStep op accept effect s = effect s := by
  simp [oneStep, h]

theorem withInput_next {s t : State} {a n : Nat} {k : List Byte → Result}
    (h : withInput s a n k = .next t) : ∃ bs, s.ibuf.readRange a n = some bs ∧ k bs = .next t := by
  unfold withInput at h
  split at h
  · rename_i bs hbs; exact ⟨bs, hbs, h⟩
  · cases h

theorem withInput_some {s : State} {a n : Nat} {k : List Byte → Result} {bs : List Byte}
    (h : s.ibuf.readRange a n = some bs) : withInput s a n k = k bs := by
  simp [withInput, h]

theorem withInput_none {s : State} {a n : Nat} {k : List Byte → Result}
    (h : s.ibuf.readRange a n = none) : withInput s a n k = .fault .ibufUnwritten := by
  simp [withInput, h]

theorem acceptInput_cases (op : ExecOp) (s : State) :
    (Config.bufCap < s.len.toNat ∧ acceptInput op s = refuseLength s) ∨
      (s.len.toNat ≤ Config.bufCap ∧ acceptInput op s = acceptExec op s) := by
  unfold acceptInput
  split
  · exact .inl ⟨by omega, rfl⟩
  · exact .inr ⟨by omega, rfl⟩

theorem acceptPayload_cases (op : ExecOp) (s : State) :
    ((s.len.toNat = 0 ∨ Config.payloadMax < s.len.toNat) ∧ acceptPayload op s = refuseLength s) ∨
      (1 ≤ s.len.toNat ∧ s.len.toNat ≤ Config.payloadMax ∧
        acceptPayload op s = acceptExec op s) := by
  unfold acceptPayload
  split
  · exact .inl ⟨by omega, rfl⟩
  · exact .inr ⟨by omega, by omega, rfl⟩

/-- `append` has room, or drops and counts (44_ack_detect.md R290). -/
theorem append_cases (b : Byte) (s : State) :
    (s.diag.length < s.diagCap ∧ append b s = { s with diag := s.diag ++ [b] }) ∨
      (s.diagCap ≤ s.diag.length ∧
        append b s = { s with dovf := true, diagDrop := satInc s.diagDrop }) := by
  unfold append
  split
  · exact .inl ⟨‹_›, rfl⟩
  · exact .inr ⟨by omega, rfl⟩

theorem satInc_toNat (d : BitVec 16) : (satInc d).toNat = min (d.toNat + 1) 0xFFFF := by
  simp only [satInc, BitVec.toNat_ofNat]
  omega

theorem satInc_pos (d : BitVec 16) : 0 < (satInc d).toNat := by
  rw [satInc_toNat]
  omega

end Sys2Proof.Machine
end

