-- ==== Sys2Proof/Laws/Exec.lean ====
section
/-! SUPPORT. What each operation can do: one inversion lemma per operation. An operation that
answers a next state was accepted (or refused for its LEN) in Idle, took its own step, or was a
blocked command while another operation ran. -/

namespace Sys2Proof.Machine

theorem execNop_next {s t : State} (h : execNop s = .next t) :
    (s.phase = .idle ∧ t = acceptExec .nop s) ∨ (s.phase = .exec .nop ∧ t = complete s) ∨
      (s.phase ≠ .idle ∧ s.phase ≠ .exec .nop ∧ t = blockedWrite s) := by
  obtain h | ⟨hp, h⟩ | h := oneStep_next h
  · exact .inl h
  · cases h; exact .inr (.inl ⟨hp, rfl⟩)
  · exact .inr (.inr h)

theorem execCksum_next {s t : State} (h : execCksum s = .next t) :
    (s.phase = .idle ∧ t = acceptInput .cksum s) ∨
      (s.phase = .exec .cksum ∧ ∃ bs, s.ibuf.readRange 0 s.len.toNat = some bs ∧
        t = complete (setCsum (checksum bs) s)) ∨
      (s.phase ≠ .idle ∧ s.phase ≠ .exec .cksum ∧ t = blockedWrite s) := by
  obtain h | ⟨hp, h⟩ | h := oneStep_next h
  · exact .inl h
  · obtain ⟨bs, hbs, h⟩ := withInput_next h
    cases h; exact .inr (.inl ⟨hp, bs, hbs, rfl⟩)
  · exact .inr (.inr h)

theorem execBuildCmd_next {s t : State} (h : execBuildCmd s = .next t) :
    (s.phase = .idle ∧ t = acceptExec .buildCmd s) ∨
      (s.phase = .exec .buildCmd ∧ t = complete (setFrame (cmdframe (cmdOperand s)) s)) ∨
      (s.phase ≠ .idle ∧ s.phase ≠ .exec .buildCmd ∧ t = blockedWrite s) := by
  obtain h | ⟨hp, h⟩ | h := oneStep_next h
  · exact .inl h
  · cases h; exact .inr (.inl ⟨hp, rfl⟩)
  · exact .inr (.inr h)

theorem execBuildAddr_next {s t : State} (h : execBuildAddr s = .next t) :
    (s.phase = .idle ∧ t = acceptExec .buildAddr s) ∨
      (s.phase = .exec .buildAddr ∧ t = complete (setFrame (addrframe (addrOperand s)) s)) ∨
      (s.phase ≠ .idle ∧ s.phase ≠ .exec .buildAddr ∧ t = blockedWrite s) := by
  obtain h | ⟨hp, h⟩ | h := oneStep_next h
  · exact .inl h
  · cases h; exact .inr (.inl ⟨hp, rfl⟩)
  · exact .inr (.inr h)

theorem execBuildData_next {s t : State} (h : execBuildData s = .next t) :
    (s.phase = .idle ∧ t = acceptPayload .buildData s) ∨
      (s.phase = .exec .buildData ∧ ∃ p, s.ibuf.readRange 0 s.len.toNat = some p ∧
        t = complete (setFrame (dataframe p) s)) ∨
      (s.phase ≠ .idle ∧ s.phase ≠ .exec .buildData ∧ t = blockedWrite s) := by
  obtain h | ⟨hp, h⟩ | h := oneStep_next h
  · exact .inl h
  · obtain ⟨p, hbs, h⟩ := withInput_next h
    cases h; exact .inr (.inl ⟨hp, p, hbs, rfl⟩)
  · exact .inr (.inr h)

theorem execBuildSync_next {s t : State} (h : execBuildSync s = .next t) :
    (s.phase = .idle ∧ t = acceptExec .buildSync s) ∨
      (s.phase = .exec .buildSync ∧ t = complete (setFrame [syncByte] s)) ∨
      (s.phase ≠ .idle ∧ s.phase ≠ .exec .buildSync ∧ t = blockedWrite s) := by
  obtain h | ⟨hp, h⟩ | h := oneStep_next h
  · exact .inl h
  · cases h; exact .inr (.inl ⟨hp, rfl⟩)
  · exact .inr (.inr h)

theorem sendStep_cases (i : Nat) (s : State) :
    (s.frame.length ≤ i ∧ sendStep i s = complete s) ∨
      ∃ b, s.frame[i]? = some b ∧
        ((s.xerrIn = true ∧ sendStep i s = xportFail s) ∨
          (s.xerrIn = false ∧ s.txReady = true ∧ sendStep i s = emit i b s) ∨
          (s.xerrIn = false ∧ s.txReady = false ∧ sendStep i s = s)) := by
  unfold sendStep
  cases hb : s.frame[i]? with
  | none => exact .inl ⟨by simpa using hb, rfl⟩
  | some b =>
    refine .inr ⟨b, rfl, ?_⟩
    cases hx : s.xerrIn <;> cases hr : s.txReady <;> simp

theorem execSend_next {s t : State} (h : execSend s = .next t) :
    (s.phase = .idle ∧ t = acceptSend s) ∨ (∃ i, s.phase = .send i ∧ t = sendStep i s) ∨
      (s.phase ≠ .idle ∧ (∀ i, s.phase ≠ .send i) ∧ t = blockedWrite s) := by
  unfold execSend at h
  split at h <;> rename_i hp <;> cases h <;> simp [hp]

theorem checkVerdict_cases (got c : Byte) (s : State) :
    (got = c ∧ checkVerdict got c s = verdict true .ok s) ∨
      (got ≠ c ∧ checkVerdict got c s = verdict false .checksum s) := by
  unfold checkVerdict
  split <;> simp [*]

theorem checkAddrVerdict_cases (bs : List Byte) (got : Byte) (s : State) :
    (got = checksum bs ∧
        checkAddrVerdict bs got s = verdict true .ok (setVaddr (fromBigEndian bs) s)) ∨
      (got ≠ checksum bs ∧ checkAddrVerdict bs got s = verdict false .checksum s) := by
  unfold checkAddrVerdict
  split <;> simp [*]

/-- The verdict of VALIDATE_CMD: on two bytes the checksum check, else LENGTH. -/
theorem cmdVerdict_cases (f : List Byte) (s : State) :
    (f.length ≠ 2 ∧ cmdVerdict f s = verdict false .length s) ∨
      ∃ b0 b1, f = [b0, b1] ∧
        cmdVerdict f s = checkVerdict b1 (checksum [b0]) (setCsum (checksum [b0]) s) := by
  match f with
  | [b0, b1] => exact .inr ⟨b0, b1, rfl, rfl⟩
  | [] | [_] | _ :: _ :: _ :: _ => exact .inl ⟨by simp, rfl⟩

/-- The verdict of VALIDATE_ADDR: on five bytes the checksum check, else LENGTH. -/
theorem addrVerdict_cases (f : List Byte) (s : State) :
    (f.length ≠ 5 ∧ addrVerdict f s = verdict false .length s) ∨
      ∃ b0 b1 b2 b3 b4, f = [b0, b1, b2, b3, b4] ∧
        addrVerdict f s =
          checkAddrVerdict [b0, b1, b2, b3] b4 (setCsum (checksum [b0, b1, b2, b3]) s) := by
  match f with
  | [b0, b1, b2, b3, b4] => exact .inr ⟨b0, b1, b2, b3, b4, rfl, rfl⟩
  | [] | [_] | [_, _] | [_, _, _] | [_, _, _, _] | _ :: _ :: _ :: _ :: _ :: _ :: _ =>
    exact .inl ⟨by simp, rfl⟩

/-- The verdict of VALIDATE_DATA: LENGTH, COUNT, or the checksum check of the last byte. -/
theorem dataVerdict_cases (f : List Byte) (s : State) :
    (f.length < 3 ∧ dataVerdict f s = verdict false .length s) ∨
      ∃ n body got, f = n :: body ++ [got] ∧ 1 ≤ body.length ∧
        ((n.toNat ≠ f.length - 3 ∧ dataVerdict f s = verdict false .count s) ∨
          (n.toNat = f.length - 3 ∧ dataVerdict f s =
            checkVerdict got (checksum (n :: body)) (setCsum (checksum (n :: body)) s))) := by
  by_cases hl : f.length < 3
  · exact .inl ⟨hl, by simp [dataVerdict, hl]⟩
  · obtain ⟨n, r, rfl⟩ : ∃ n r, f = n :: r := List.exists_cons_of_length_pos (by omega)
    obtain ⟨body, got, rfl⟩ : ∃ body got, r = body ++ [got] := by
      have hr : r ≠ [] := by rintro rfl; simp at hl
      exact ⟨r.dropLast, r.getLast hr, (List.dropLast_append_getLast hr).symm⟩
    refine .inr ⟨n, body, got, rfl, by simp at hl; omega, ?_⟩
    have hd : (n :: body ++ [got]).dropLast = n :: body := List.dropLast_concat ..
    have hg : (n :: body ++ [got]).getLastD 0 = got := List.getLastD_concat ..
    rw [← List.cons_append] at hl ⊢
    unfold dataVerdict
    rw [if_neg hl, hd, hg]
    by_cases hc : n.toNat = (n :: body ++ [got]).length - 3
    · exact .inr ⟨hc, by rw [if_neg (by simpa using hc)]⟩
    · exact .inl ⟨hc, by rw [if_pos (by simpa using hc)]⟩

theorem execValidateCmd_next {s t : State} (h : execValidateCmd s = .next t) :
    (s.phase = .idle ∧ t = acceptInput .validateCmd s) ∨
      (s.phase = .exec .validateCmd ∧ ∃ f, s.ibuf.readRange 0 s.len.toNat = some f ∧
        t = complete (cmdVerdict f s)) ∨
      (s.phase ≠ .idle ∧ s.phase ≠ .exec .validateCmd ∧ t = blockedWrite s) := by
  obtain h | ⟨hp, h⟩ | h := oneStep_next h
  · exact .inl h
  · obtain ⟨f, hf, h⟩ := withInput_next h
    cases h; exact .inr (.inl ⟨hp, f, hf, rfl⟩)
  · exact .inr (.inr h)

theorem execValidateAddr_next {s t : State} (h : execValidateAddr s = .next t) :
    (s.phase = .idle ∧ t = acceptInput .validateAddr s) ∨
      (s.phase = .exec .validateAddr ∧ ∃ f, s.ibuf.readRange 0 s.len.toNat = some f ∧
        t = complete (addrVerdict f s)) ∨
      (s.phase ≠ .idle ∧ s.phase ≠ .exec .validateAddr ∧ t = blockedWrite s) := by
  obtain h | ⟨hp, h⟩ | h := oneStep_next h
  · exact .inl h
  · obtain ⟨f, hf, h⟩ := withInput_next h
    cases h; exact .inr (.inl ⟨hp, f, hf, rfl⟩)
  · exact .inr (.inr h)

theorem execValidateData_next {s t : State} (h : execValidateData s = .next t) :
    (s.phase = .idle ∧ t = acceptInput .validateData s) ∨
      (s.phase = .exec .validateData ∧ ∃ f, s.ibuf.readRange 0 s.len.toNat = some f ∧
        t = complete (dataVerdict f s)) ∨
      (s.phase ≠ .idle ∧ s.phase ≠ .exec .validateData ∧ t = blockedWrite s) := by
  obtain h | ⟨hp, h⟩ | h := oneStep_next h
  · exact .inl h
  · obtain ⟨f, hf, h⟩ := withInput_next h
    cases h; exact .inr (.inl ⟨hp, f, hf, rfl⟩)
  · exact .inr (.inr h)

/-- The decisions of a wait step, in their order (44_ack_detect.md R286). -/
theorem waitStep_cases (classify : Byte → State → State) (s : State) :
    (s.xerrIn = true ∧ waitStep classify s = xportFail s) ∨
      (s.xerrIn = false ∧ s.deadline.toNat < s.elapsed ∧
        waitStep classify s = finish .timedOut s) ∨
      (s.xerrIn = false ∧ s.elapsed ≤ s.deadline.toNat ∧ s.rxq = [] ∧ waitStep classify s = s) ∨
      ∃ b rest, s.xerrIn = false ∧ s.elapsed ≤ s.deadline.toNat ∧ s.rxq = b :: rest ∧
        waitStep classify s = classify b (consume rest s) := by
  unfold waitStep deadlineOperand
  cases hx : s.xerrIn
  · by_cases he : s.deadline.toNat < s.elapsed
    · simp [he]
    · cases hq : s.rxq <;> simp [he, Nat.le_of_not_lt he]
  · simp

theorem classifyNormal_cases (b : Byte) (s : State) :
    (b = ackByte ∧ classifyNormal b s = finish .acked s) ∨
      (b = nackByte ∧ classifyNormal b s = finish .nacked s) ∨
      (b ≠ ackByte ∧ b ≠ nackByte ∧ classifyNormal b s = append b s) := by
  unfold classifyNormal
  split
  · simp [*]
  · split <;> simp [*]

theorem classifyFirst_cases (b : Byte) (s : State) :
    (b = ackByte ∧ classifyFirst b s = finish .acked s) ∨
      (b ≠ ackByte ∧ classifyFirst b s = finish .nacked (append b s)) := by
  unfold classifyFirst
  split <;> simp [*]

theorem execAckWait_next {s t : State} (h : execAckWait s = .next t) :
    (s.phase = .idle ∧ t = acceptWait .normal s) ∨
      (s.phase = .wait .normal ∧ t = waitStep classifyNormal s) ∨
      (s.phase ≠ .idle ∧ s.phase ≠ .wait .normal ∧ t = blockedWrite s) := by
  unfold execAckWait at h
  split at h <;> rename_i hp <;> cases h <;> simp [hp]

theorem execAckWaitFirst_next {s t : State} (h : execAckWaitFirst s = .next t) :
    (s.phase = .idle ∧ t = acceptWait .first s) ∨
      (s.phase = .wait .first ∧ t = waitStep classifyFirst s) ∨
      (s.phase ≠ .idle ∧ s.phase ≠ .wait .first ∧ t = blockedWrite s) := by
  unfold execAckWaitFirst at h
  split at h <;> rename_i hp <;> cases h <;> simp [hp]

theorem tick_cases (s : State) :
    (∃ m, s.phase = .wait m ∧ s.elapsed ≤ s.deadline.toNat ∧
        tick s = { s with elapsed := s.elapsed + 1 }) ∨ tick s = s := by
  unfold tick deadlineOperand
  split
  · rename_i m hp
    split
    · exact .inl ⟨m, hp, ‹_›, rfl⟩
    · exact .inr rfl
  all_goals exact .inr rfl

end Sys2Proof.Machine
end

