-- ==== Sys2Proof/Laws/PerInstr.lean ====
section
/-! SUPPORT. The family Encoding: for each operation, its command word has RSVD = 0 and decodes to
it (30_encoding.md R120, R121). -/

namespace Sys2Proof.Laws.Encoding

/-- The operation is well formed, its word's reserved bits are 0, and its word decodes to it. -/
def Statement (i : Instr) : Prop :=
  i.wellFormed = true ∧ rsvdField (encode i) = 0 ∧ decode (encode i) = .ok i

theorem nop : Statement .nop := ⟨rfl, rfl, rfl⟩
theorem cksum : Statement .cksum := ⟨rfl, rfl, rfl⟩
theorem buildCmd : Statement .buildCmd := ⟨rfl, rfl, rfl⟩
theorem buildAddr : Statement .buildAddr := ⟨rfl, rfl, rfl⟩
theorem buildData : Statement .buildData := ⟨rfl, rfl, rfl⟩
theorem buildSync : Statement .buildSync := ⟨rfl, rfl, rfl⟩
theorem send : Statement .send := ⟨rfl, rfl, rfl⟩
theorem ackWait : Statement .ackWait := ⟨rfl, rfl, rfl⟩
theorem ackWaitFirst : Statement .ackWaitFirst := ⟨rfl, rfl, rfl⟩
theorem validateCmd : Statement .validateCmd := ⟨rfl, rfl, rfl⟩
theorem validateAddr : Statement .validateAddr := ⟨rfl, rfl, rfl⟩
theorem validateData : Statement .validateData := ⟨rfl, rfl, rfl⟩

end Sys2Proof.Laws.Encoding
end

