-- ==== Sys2Proof/Laws/RegisterMap.lean ====
section
/-! SUPPORT. Where the offsets of the register map lead (20_memory.md R81, R84) and what a register
field or a buffer cell reads as. -/

namespace Sys2Proof.Machine

/-- Aligning an offset clears its two low bits (20_memory.md R81). -/
theorem alignOffset_toNat (off : Offset) : (alignOffset off).toNat = off.toNat / 4 * 4 := by
  have h : alignOffset off = (off >>> 2) <<< 2 := by
    apply BitVec.eq_of_getLsbD_eq
    intro k hk
    have hm : (0x3FFC : Offset).getLsbD k = decide (2 ≤ k) := by interval_cases k <;> rfl
    rw [alignOffset, BitVec.getLsbD_and, hm, BitVec.getLsbD_shiftLeft, BitVec.getLsbD_ushiftRight]
    by_cases h2 : 2 ≤ k
    · simp [hk, h2, Nat.not_lt.mpr h2, show 2 + (k - 2) = k by omega]
    · simp [h2, Nat.lt_of_not_le h2]
  have := off.isLt
  rw [h, BitVec.toNat_shiftLeft, BitVec.toNat_ushiftRight, Nat.shiftRight_eq_div_pow,
    Nat.shiftLeft_eq]
  omega

/-- A target depends only on the word number. -/
theorem target_eq (off : Offset) : target off = targetOfWord (off.toNat / 4) := by
  unfold target
  rw [alignOffset_toNat, Nat.mul_div_cancel _ (by decide)]

/-- The low two bits of an offset do not matter (20_memory.md R81). -/
theorem target_align (off : Offset) : target (off &&& 0x3FFC) = target off := by
  unfold target alignOffset
  rw [BitVec.and_assoc]
  rfl

theorem target_ibuf {i : Nat} (h : i ≤ 257) :
    target (BitVec.ofNat 14 (0x400 + 4 * i)) = .ibuf i := by
  rw [target_eq, BitVec.toNat_ofNat, Nat.mod_eq_of_lt (by omega),
    show (0x400 + 4 * i) / 4 = 0x100 + i by omega]
  unfold targetOfWord Config.bufCap
  rw [if_neg (by omega), if_pos (by omega), Nat.add_sub_cancel_left]

theorem target_frame {i : Nat} (h : i ≤ 257) :
    target (BitVec.ofNat 14 (0x1000 + 4 * i)) = .frame i := by
  rw [target_eq, BitVec.toNat_ofNat, Nat.mod_eq_of_lt (by omega),
    show (0x1000 + 4 * i) / 4 = 0x400 + i by omega]
  unfold targetOfWord Config.bufCap
  rw [if_neg (by omega), if_neg (by omega), if_neg (by omega), if_pos (by omega),
    Nat.add_sub_cancel_left]

theorem target_diag {i : Nat} (h : i ≤ 1023) :
    target (BitVec.ofNat 14 (0x2000 + 4 * i)) = .diag i := by
  rw [target_eq, BitVec.toNat_ofNat, Nat.mod_eq_of_lt (by omega),
    show (0x2000 + 4 * i) / 4 = 0x800 + i by omega]
  unfold targetOfWord Config.bufCap Config.diagCapMax
  rw [if_neg (by omega), if_neg (by omega), if_neg (by omega), if_neg (by omega),
    if_neg (by omega), if_pos (by omega), Nat.add_sub_cancel_left]

theorem target_pdiag {i : Nat} (h : i ≤ 1023) :
    target (BitVec.ofNat 14 (0x3000 + 4 * i)) = .pdiag i := by
  rw [target_eq, BitVec.toNat_ofNat, Nat.mod_eq_of_lt (by omega),
    show (0x3000 + 4 * i) / 4 = 0xC00 + i by omega]
  unfold targetOfWord Config.bufCap Config.diagCapMax
  rw [if_neg (by omega), if_neg (by omega), if_neg (by omega), if_neg (by omega),
    if_neg (by omega), if_neg (by omega), if_pos (by omega), Nat.add_sub_cancel_left]

/-- A number that fits its field reads as itself. -/
theorem fieldWord_toNat {n v : Nat} (h : v < 2 ^ n) (hn : n ≤ 32) : (fieldWord n v).toNat = v := by
  rw [fieldWord, BitVec.toNat_setWidth, BitVec.toNat_ofNat, Nat.mod_eq_of_lt h,
    Nat.mod_eq_of_lt (lt_of_lt_of_le h (Nat.pow_le_pow_right (by decide) hn))]

/-- A buffer cell reads its byte, or 0 at and beyond the length (40_host_access.md R153). -/
theorem cellWord_eq (buf : List Byte) (i : Nat) :
    cellWord buf i = if h : i < buf.length then (buf[i]).setWidth 32 else 0 := by
  unfold cellWord
  by_cases h : i < buf.length <;> simp [h]

end Sys2Proof.Machine
end

