-- ==== Sys2Proof/Laws/Step.lean ====
section
/-! SUPPORT. What a step can do: inversion of `step`, of each agent's step, and of a host write. -/

namespace Sys2Proof.Machine

/-- A run whose first step answers a next state goes on from there. -/
theorem run_succ {s t : State} {k : Nat} (h : step s = .next t) :
    Sys2Proof.core.run (k + 1) s = Sys2Proof.core.run k t := by
  have h' : Sys2Proof.core.step s = .next t := h
  simp only [Host.Core.run, h']

/-- A step that answers a next state: nothing was scheduled, or the scheduled agent acted. -/
theorem step_next {s t : State} (h : step s = .next t) :
    (s.schedule = [] ∧ t = s) ∨
      ∃ a rest, s.schedule = a :: rest ∧ agentStep a { s with schedule := rest } = .next t := by
  unfold step at h
  split at h
  · rename_i hs; cases h; exact .inl ⟨hs, rfl⟩
  · rename_i a rest hs; exact .inr ⟨a, rest, hs, h⟩

theorem step_cons {s : State} {a : AgentStep} {rest : List AgentStep}
    (h : s.schedule = a :: rest) : step s = agentStep a { s with schedule := rest } := by
  simp [step, h]

/-- The Sequencer's step is a step of the operation the phase names. -/
theorem step_sequencer {s : State} {i : Instr} {rest : List AgentStep} (hr : s.rst = false)
    (hs : s.schedule = .sequencer :: rest) (hi : running s.phase = some i) :
    step s = exec i { s with schedule := rest } := by
  rw [step_cons hs]
  simp [agentStep, hr, stepRunning, sequencerStep, hi]

theorem agentStep_next {a : AgentStep} {s t : State} (h : agentStep a s = .next t) :
    (s.rst = true ∧ t = stepInReset a s) ∨ (s.rst = false ∧ stepRunning a s = .next t) := by
  unfold agentStep at h
  split at h
  · rename_i hr; cases h; exact .inl ⟨hr, rfl⟩
  · rename_i hr; exact .inr ⟨by simpa using hr, h⟩

theorem operandWrite_next {f : State → State} {s t : State} (h : operandWrite f s = .next t) :
    (s.phase = .idle ∧ t = f s) ∨ (s.phase ≠ .idle ∧ t = blockedWrite s) := by
  unfold operandWrite at h
  split at h <;> cases h
  · exact .inl ⟨‹_›, rfl⟩
  · exact .inr ⟨‹_›, rfl⟩

/-- What a host write can do, once it has reached its target. -/
inductive WriteCase (tg : Target) (w : Word) (s t : State) : Prop where
  | command (i : Instr) : tg = .reg .cmd → s.phase = .idle → decode w = .ok i →
      exec i s = .next t → WriteCase tg w s t
  | illegal : tg = .reg .cmd → s.phase = .idle → t = refuseIllegal s → WriteCase tg w s t
  | blocked : s.phase ≠ .idle → t = blockedWrite s → WriteCase tg w s t
  | clear : tg = .reg .status → t = clearStatus w s → WriteCase tg w s t
  | arg : tg = .reg .arg → s.phase = .idle → t = setArg w s → WriteCase tg w s t
  | len : tg = .reg .len → s.phase = .idle → t = setLen w s → WriteCase tg w s t
  | deadline : tg = .reg .deadline → s.phase = .idle → t = setDeadline w s → WriteCase tg w s t
  | cell (i : Nat) : tg = .ibuf i → s.phase = .idle → t = setCell i w s → WriteCase tg w s t
  | ignored : t = s → WriteCase tg w s t

/-- A host write that answers a next state is in one of these cases. -/
theorem targetWrite_next {tg : Target} {w : Word} {s t : State}
    (h : targetWrite tg w s = .next t) : WriteCase tg w s t := by
  cases tg with
  | reg r =>
    cases r with
    | cmd =>
      simp only [targetWrite, regWrite, issueCommand] at h
      split at h
      · rename_i hp
        split at h
        · rename_i i hd; exact .command i rfl hp hd h
        · cases h; exact .illegal rfl hp rfl
      · cases h; exact .blocked ‹_› rfl
    | status => cases h; exact .clear rfl rfl
    | arg => obtain ⟨hp, h⟩ | ⟨hp, h⟩ := operandWrite_next h; exacts [.arg rfl hp h, .blocked hp h]
    | len => obtain ⟨hp, h⟩ | ⟨hp, h⟩ := operandWrite_next h; exacts [.len rfl hp h, .blocked hp h]
    | deadline =>
      obtain ⟨hp, h⟩ | ⟨hp, h⟩ := operandWrite_next h; exacts [.deadline rfl hp h, .blocked hp h]
    | csum => cases h; exact .ignored rfl
    | frameLen => cases h; exact .ignored rfl
    | txCount => cases h; exact .ignored rfl
    | diagLen => cases h; exact .ignored rfl
    | pdiagLen => cases h; exact .ignored rfl
    | diagDrop => cases h; exact .ignored rfl
    | elapsed => cases h; exact .ignored rfl
    | vaddr => cases h; exact .ignored rfl
    | config => cases h; exact .ignored rfl
  | ibuf i =>
    obtain ⟨hp, h⟩ | ⟨hp, h⟩ := operandWrite_next h; exacts [.cell i rfl hp h, .blocked hp h]
  | frame i => cases h; exact .ignored rfl
  | diag i => cases h; exact .ignored rfl
  | pdiag i => cases h; exact .ignored rfl
  | unmapped => cases h; exact .ignored rfl

/-- The Host's step: nothing left, a read, a write, or one turn of `poll`. -/
theorem hostStep_next {s t : State} (h : hostStep s = .next t) :
    (s.program = [] ∧ t = s) ∨
      (∃ off rest, s.program = .read off :: rest ∧ t = hostRead off { s with program := rest }) ∨
      (∃ off w rest, s.program = .write off w :: rest ∧
        targetWrite (target off) w { s with program := rest } = .next t) ∨
      (∃ rest, s.program = .poll :: rest ∧ t = pollStep rest s) := by
  unfold hostStep at h
  split at h
  · rename_i hp; cases h; exact .inl ⟨hp, rfl⟩
  · rename_i off rest hp; cases h; exact .inr (.inl ⟨off, rest, hp, rfl⟩)
  · rename_i off w rest hp; exact .inr (.inr (.inl ⟨off, w, rest, hp, h⟩))
  · rename_i rest hp; cases h; exact .inr (.inr (.inr ⟨rest, hp, rfl⟩))

/-- A turn of `poll` is a read of STATUS that may also move the host on. -/
theorem pollStep_cases (rest : List HostOp) (s : State) :
    pollStep rest s = hostRead (regOffset .status) s ∨
      pollStep rest s = { hostRead (regOffset .status) s with program := rest } := by
  simp only [pollStep]
  split
  · exact .inl rfl
  · exact .inr rfl

/-- The Sequencer's step: the running operation's, or none in Idle. -/
theorem sequencerStep_next {s t : State} (h : sequencerStep s = .next t) :
    (s.phase = .idle ∧ t = s) ∨ ∃ i, running s.phase = some i ∧ exec i s = .next t := by
  unfold sequencerStep at h
  split at h
  · rename_i i hi; exact .inr ⟨i, hi, h⟩
  · rename_i hi
    cases h
    refine .inl ⟨?_, rfl⟩
    cases hp : s.phase with
    | idle => rfl
    | exec op => simp [running, hp] at hi
    | send i => simp [running, hp] at hi
    | wait m => cases m <;> simp [running, hp] at hi

theorem targetOfWord_ibuf_lt {n i : Nat} (h : targetOfWord n = .ibuf i) : i < Config.bufCap := by
  unfold targetOfWord at h
  by_cases h0 : n < 0x100
  · simp only [h0, if_true] at h
    split at h <;> cases h
  · by_cases h1 : n < 0x100 + Config.bufCap
    · simp only [h0, h1, if_true, if_false] at h
      injection h with h
      omega
    · simp only [h0, h1, if_false] at h
      split_ifs at h

/-- The cell number of an IBUF target is below 258 (20_memory.md R84). -/
theorem target_ibuf_lt {off : Offset} {i : Nat} (h : target off = .ibuf i) : i < Config.bufCap :=
  targetOfWord_ibuf_lt h

end Sys2Proof.Machine
end

