-- ==== Sys2Proof/Tests/Slice0.lean ====
section
/-! SUPPORT. Tests: expected values come from 95_test_vectors.md (cited as L2.x) and from the encoding
tables of 30_encoding.md. Witnesses: for each statement with hypotheses, a state and operands that
meet them together. -/

namespace Sys2Proof.Tests

open Sys2Proof Sys2Proof.Machine

/-! ## Helpers -/

/-- The state of a `next` outcome. -/
def after : Result → Option State
  | .next t => some t
  | .fault _ => none
  | .refused _ => none

/-- One field of the state of a `next` outcome. -/
def got (f : State → α) (r : Result) : Option α := (after r).map f

/-- IBUF holding `bs` from cell `a` on. -/
def cells : Nat → List Byte → Memory
  | _, [] => []
  | a, b :: bs => (a, b) :: cells (a + 1) bs

/-- The reset state with input `bs` in IBUF and LEN. -/
def input (bs : List Byte) : State :=
  { State.reset with len := BitVec.ofNat 9 bs.length, ibuf := cells 0 bs }

/-- About to take the Exec step of `op` on input `bs`. -/
def running (op : ExecOp) (bs : List Byte) : State := { input bs with phase := .exec op }

/-- In a wait of mode `m` with DEADLINE 5 and `q` in `rxq`. -/
def waiting (m : WaitMode) (q : List Byte) : State :=
  { State.reset with phase := .wait m, deadline := 5, rxq := q }

/-- In a SEND of `f` at byte `i`. -/
def sending (f : List Byte) (i : Nat) : State :=
  { State.reset with phase := .send i, frame := f, txCount := i }

/-- `s` with `a` the next agent to act. -/
def next (a : AgentStep) (s : State) : State := { s with schedule := [a] }

/-- `s` with the Host next to act, by `o`. -/
def hosting (o : HostOp) (s : State) : State := { s with schedule := [.host], program := [o] }

/-! ## WellFormed: ill-formed terms are refused -/

theorem test_wf_wrb_limit : (Stmt.wrb 257 0).wellFormed = true := by decide
theorem test_wf_wrb_refused : (Stmt.wrb 258 0).wellFormed = false := by decide
theorem test_wf_rdb_frame_refused : (Stmt.rdb .frame 258).wellFormed = false := by decide
theorem test_wf_rdb_diag_refused : (Stmt.rdb .diag 1024).wellFormed = false := by decide
theorem test_wf_rdb_pdiag_refused : (Stmt.rdb .pdiag 1024).wellFormed = false := by decide
theorem test_wf_dataframe_empty_refused : (Stmt.dataframe []).wellFormed = false := by decide
theorem test_wf_dataframe_long_refused :
    (Stmt.dataframe (List.replicate 257 0)).wellFormed = false := by
  simp only [Stmt.wellFormed, List.length_replicate]
  rfl
theorem test_wf_dataframe_limit :
    (Stmt.dataframe (List.replicate 256 0)).wellFormed = true := by
  simp only [Stmt.wellFormed, List.length_replicate]
  rfl

/-! ## Decoding: words written out from 30_encoding.md R120, R121 (RSVD [31:8], OP [7:0]) -/

theorem test_decode_nop : decode 0b000000000000000000000000_00000000#32 = .ok .nop := rfl
theorem test_decode_cksum : decode 0b000000000000000000000000_00000001#32 = .ok .cksum := rfl
theorem test_decode_buildCmd : decode 0b000000000000000000000000_00000010#32 = .ok .buildCmd := rfl
theorem test_decode_buildAddr : decode 0b000000000000000000000000_00000011#32 = .ok .buildAddr := rfl
theorem test_decode_buildData : decode 0b000000000000000000000000_00000100#32 = .ok .buildData := rfl
theorem test_decode_buildSync : decode 0b000000000000000000000000_00000101#32 = .ok .buildSync := rfl
theorem test_decode_send : decode 0b000000000000000000000000_00001000#32 = .ok .send := rfl
theorem test_decode_ackWait : decode 0b000000000000000000000000_00010000#32 = .ok .ackWait := rfl
theorem test_decode_ackWaitFirst :
    decode 0b000000000000000000000000_00010001#32 = .ok .ackWaitFirst := rfl
theorem test_decode_validateCmd :
    decode 0b000000000000000000000000_00100000#32 = .ok .validateCmd := rfl
theorem test_decode_validateAddr :
    decode 0b000000000000000000000000_00100001#32 = .ok .validateAddr := rfl
theorem test_decode_validateData :
    decode 0b000000000000000000000000_00100010#32 = .ok .validateData := rfl

/-- The edges of the unassigned ranges of 30_encoding.md R122. -/
theorem test_decode_unassigned :
    decode 0x06 = .error .unassignedOp ∧ decode 0x07 = .error .unassignedOp ∧
    decode 0x09 = .error .unassignedOp ∧ decode 0x0F = .error .unassignedOp ∧
    decode 0x12 = .error .unassignedOp ∧ decode 0x1F = .error .unassignedOp ∧
    decode 0x23 = .error .unassignedOp ∧ decode 0xFF = .error .unassignedOp :=
  ⟨rfl, rfl, rfl, rfl, rfl, rfl, rfl, rfl⟩

/-- Reserved bits, lowest and highest (30_encoding.md R122). -/
theorem test_decode_reserved :
    decode 0x00000100 = .error .reservedBits ∧ decode 0x80000001 = .error .reservedBits :=
  ⟨rfl, rfl⟩

theorem test_decodeTableWord : decodeTableWord 32 0x22 = some .validateData := rfl

/-! ## IBUF's canonical form -/

theorem test_reset_ibuf_wf : State.reset.ibuf.wf = true := rfl
theorem test_write_order :
    Memory.write (Memory.write [] 5 1) 2 3 = Memory.write (Memory.write [] 2 3) 5 1 := by decide
theorem test_write_over : Memory.write [(2, 3), (5, 1)] 5 9 = [(2, 3), (5, 9)] := by decide
theorem test_wf_rejects : Memory.wf [(258, 0)] = false ∧ Memory.wf [(3, 0), (3, 1)] = false := by
  decide

/-! ## The operations (95_test_vectors.md L2.1 to L2.7) -/

theorem test_nop : got State.done (exec .nop (running .nop [])) = some true := by decide

theorem test_cksum_one : got State.csum (exec .cksum (running .cksum [0x79])) = some 0x86 := by decide
theorem test_cksum_zero_appended :
    got State.csum (exec .cksum (running .cksum [0xAB, 0x00])) = some 0xAB := by decide

theorem test_buildCmd : got State.frame (exec .buildCmd { running .buildCmd [] with arg := 0x12345602 })
    = some [0x02, 0xFD] := by decide

theorem test_buildAddr :
    got State.frame (exec .buildAddr { running .buildAddr [] with arg := 0x12345678 })
      = some [0x12, 0x34, 0x56, 0x78, 0x08] := by decide

theorem test_buildData : got State.frame (exec .buildData (running .buildData [0x00, 0x01, 0x02]))
    = some [0x02, 0x00, 0x01, 0x02, 0x01] := by decide
theorem test_buildData_one : got State.frame (exec .buildData (running .buildData [0xAB]))
    = some [0x00, 0xAB, 0xAB] := by decide

theorem test_buildSync :
    got (fun t => (t.frame, t.txCount)) (exec .buildSync { running .buildSync [] with txCount := 5 })
      = some ([0x7F], 0) := by decide

theorem test_send_byte : got (fun t => (t.txlog, t.txCount)) (exec .send (sending [0x01, 0xFE] 1))
    = some ([0xFE], 2) := by decide
/-- L2.3: the completion wins over the failure. -/
theorem test_send_completes : got (fun t => (t.xerr, t.done))
    (exec .send { sending [0x01, 0xFE] 2 with xerrIn := true }) = some (false, true) := by decide

theorem test_ackWait_nack : got (fun t => (t.ackres, t.rxq))
    (exec .ackWait (waiting .normal [0x1F, 0x79])) = some (.nacked, [0x79]) := by decide
/-- L2.5: a tick past DEADLINE = 0 before the first step: the byte is not taken. -/
theorem test_ackWait_timeout : got (fun t => (t.ackres, t.rxq))
    (exec .ackWait { waiting .normal [0x79] with deadline := 0, elapsed := 1 })
      = some (.timedOut, [0x79]) := by decide

theorem test_ackWaitFirst : got (fun t => (t.ackres, t.diag, t.rxq))
    (exec .ackWaitFirst (waiting .first [0x55, 0x79])) = some (.nacked, [0x55], [0x79]) := by decide
theorem test_ackWaitFirst_ack : got (fun t => (t.ackres, t.diag, t.rxq))
    (exec .ackWaitFirst (waiting .first [0x79, 0x55])) = some (.acked, [], [0x55]) := by decide

theorem test_validateCmd : got (fun t => (t.valid, t.verr, t.csum))
    (exec .validateCmd (running .validateCmd [0x79, 0x86])) = some (true, .ok, 0x86) := by decide
theorem test_validateCmd_bad : got (fun t => (t.valid, t.verr, t.csum))
    (exec .validateCmd (running .validateCmd [0x00, 0x00])) = some (false, .checksum, 0xFF) := by decide

theorem test_validateAddr : got (fun t => (t.valid, t.vaddr))
    (exec .validateAddr (running .validateAddr [0x12, 0x34, 0x56, 0x78, 0x08]))
      = some (true, 0x12345678) := by decide
theorem test_validateAddr_bad : got (fun t => (t.verr, t.csum, t.vaddr))
    (exec .validateAddr (running .validateAddr [0x08, 0x00, 0x00, 0x00, 0x09]))
      = some (.checksum, 0x08, 0) := by decide

theorem test_validateData : got (fun t => (t.valid, t.verr, t.csum))
    (exec .validateData (running .validateData [0x01, 0x79, 0x1F, 0x67])) = some (true, .ok, 0x67) := by
  decide
theorem test_validateData_count : got (fun t => (t.verr, t.csum))
    (exec .validateData (running .validateData [0x03, 0x00, 0x01, 0x02, 0x01])) = some (.count, 0) := by
  decide

/-! ## The host (L2.8) and the waits' buffers (L2.5) -/

/-- L2.9: CKSUM on a cell not written since reset reaches U1. -/
theorem test_cksum_unwritten :
    exec .cksum { running .cksum [] with len := 1 } = .fault .ibufUnwritten := rfl

theorem test_status_word : readval { State.reset with ackres := .nacked, done := true } 0x004
    = 0x00000104 := by decide
theorem test_status_write :
    got statusWord (hostWrite 0x004 0xFFFFFFFF
      { State.reset with dovf := true, done := true, ackres := .timedOut }) = some 0x00002006 := by
  decide
theorem test_illegal_before_length :
    got statusWord (hostWrite 0x000 0x000001FF { State.reset with len := 300 })
      = some 0x00000500 := by decide
theorem test_length_error :
    got statusWord (hostWrite 0x000 0x00000001 { State.reset with len := 300 })
      = some 0x00000900 := by decide
theorem test_len_truncates : got (fun t => readval t 0x00C) (hostWrite 0x00C 0xFFFFFFFF State.reset)
    = some 0x000001FF := by decide
theorem test_blocked_write :
    got (fun t => (t.deadline, t.busyerr)) (hostWrite 0x010 9 (waiting .normal [])) = some (5, true) := by
  decide
theorem test_config : readval State.reset 0x034 = 0x00000100 := by decide
theorem test_low_bits : readval { State.reset with arg := 0xCAFEF00D } 0x00B = 0xCAFEF00D := by decide
theorem test_frame_beyond : readval { State.reset with frame := [0x01, 0xFE] } 0x1008 = 0 := by decide

theorem test_wait_acceptance :
    got (fun t => (t.pdiag, t.diag)) (exec .ackWait { State.reset with diag := [1, 2] })
      = some ([1, 2], []) := by decide
theorem test_diag_overflow :
    got (fun t => (t.diag.length, t.diagDrop, t.dovf))
      (exec .ackWait { waiting .normal [0x55] with
        diagCap := 16, diag := List.replicate 16 0x55, diagDrop := 3, dovf := true })
      = some (16, 4, true) := by decide
theorem test_diag_drop_saturates :
    got State.diagDrop (exec .ackWait { waiting .normal [0x55] with
      diagCap := 16, diag := List.replicate 16 0x55, diagDrop := 0xFFFF, dovf := true })
      = some 0xFFFF := by decide

theorem test_reset_in_wait :
    got (fun t => (t.diag, t.elapsed, t.rxq, t.phase))
      (step (next (.reset true) { waiting .normal [0x04, 0x79] with diag := [1], elapsed := 7 }))
      = some ([], 0, [0x04, 0x79], .idle) := by decide
theorem test_tick_idle : got State.elapsed (step (next .time State.reset)) = some 0 := by decide

/-- The very next step runs the placed command. -/
theorem test_withFetchWord :
    got State.phase (step (State.reset.withFetchWord 32 0x10)) = some (.wait .normal) := by decide

theorem test_assemble_waitack : assemble (.waitack 5)
    = [.write 0x010 5, .write 0x000 0x10, .poll] := by decide
theorem test_assemble_dataframe : assemble (.dataframe [0xAB])
    = [.write 0x400 0xAB, .write 0x00C 1, .write 0x000 4, .poll] := by decide

/-! ## Witnesses: for each statement with hypotheses, they hold together -/

/-- A state in the middle of a wait that meets the invariant. -/
theorem witness_inv : StateInv (waiting .normal [0x01, 0x79]) where
  frame_le := by decide
  txCount_le := by decide
  diag_le := by decide
  pdiag_le := by decide
  elapsed_le := by decide
  wait_elapsed := fun _ _ => by decide
  wait_ackres := fun _ _ => rfl
  dovf_iff := by decide
  send_index := fun i h => by cases h
  exec_len := fun op h => by cases h
  busy_done := fun _ => rfl
  valid_verr := fun _ => rfl
  ibuf_wf := rfl
  diagCap_range := by decide
  rst_block := fun h => by cases h

theorem witness_ResetStepRestoresTheBlockAndKeepsTheStreams :
    (next (.reset true) (waiting .normal [0x79])).schedule = .reset true :: [] ∧
    ({ next .sequencer State.reset with rst := true }).rst = true ∧
    ({ next .sequencer State.reset with rst := true }).schedule = .sequencer :: [] ∧
    (∀ b, AgentStep.sequencer ≠ .transport (.deliver b)) ∧
    ({ hosting (.read 0x034) State.reset with rst := true }).rst = true ∧
    ({ hosting (.read 0x034) State.reset with rst := true }).program = .read 0x034 :: [] ∧
    target 0x034 = .reg .config ∧ target 0x030 = .reg .vaddr :=
  ⟨rfl, rfl, rfl, (fun _ h => by cases h), rfl, rfl, rfl, rfl⟩

theorem witness_EveryStepKeepsTheInvariant :
    StateInv (waiting .normal [0x01, 0x79]) ∧
      ∃ t, step (waiting .normal [0x01, 0x79]) = .next t := ⟨witness_inv, _, rfl⟩

theorem witness_OnlyADeadlineWriteBreaksTheElapsedBound :
    (let s := { hosting (.write 0x010 0) State.reset with elapsed := 2, deadline := 1 }
     (∃ t, step s = .next t) ∧ s.elapsed ≤ s.deadline.toNat + 1 ∧ s.phase = .idle ∧
       target 0x010 = .reg .deadline ∧ ((0 : Word).extractLsb' 0 16).toNat + 1 < s.elapsed) ∧
    (let s := { next .time (waiting .normal []) with elapsed := 5 }
     (∃ t, step s = .next t ∧ t.elapsed = 6) ∧ s.elapsed ≤ s.deadline.toNat + 1) ∧
    (∃ t, exec .ackWait { State.reset with elapsed := 9 } = .next t) :=
  ⟨⟨⟨_, rfl⟩, by decide⟩, ⟨⟨_, rfl, rfl⟩, by decide⟩, _, rfl⟩

theorem witness_NoStepChangesTheDiagnosticCapacity :
    ∃ t, step (next .sequencer (waiting .normal [0x01, 0x79])) = .next t := ⟨_, rfl⟩

theorem witness_IllegalWordsRaiseIllopOnlyInIdle :
    (∀ i, decode 0x00000102 ≠ .ok i) ∧ (∀ i, decode 0x00000006 ≠ .ok i) ∧
    State.reset.phase = .idle ∧ (waiting .normal []).phase ≠ .idle :=
  ⟨(fun i h => by cases h), (fun i h => by cases h), rfl, by decide⟩

theorem witness_StepIssuesTheWrittenCommand :
    (hosting (.write 0x003 0x01) State.reset).rst = false ∧
    (hosting (.write 0x003 0x01) State.reset).phase = .idle ∧
    (hosting (.write 0x003 0x01) State.reset).schedule = .host :: [] ∧
    (hosting (.write 0x003 0x01) State.reset).program = .write 0x003 0x01 :: [] ∧
    (0x003 : Offset) &&& 0x3FFC = 0x000 ∧ decode 0x01 = .ok .cksum ∧
    (let s := hosting (.write 0x3FFF 0x1F) (waiting .first [])
     s.rst = false ∧ s.schedule = .host :: [] ∧ s.program = .write 0x3FFF 0x1F :: []) :=
  ⟨rfl, rfl, rfl, rfl, rfl, rfl, rfl, rfl, rfl⟩

theorem witness_StepRunsTheRunningOperation :
    (next .sequencer (running .nop [])).phase = .exec .nop ∧
    (next .sequencer (sending [1] 0)).phase = .send 0 ∧
    (next .sequencer (waiting .normal [])).phase = .wait .normal ∧
    (next .sequencer (waiting .first [])).phase = .wait .first ∧
    (next .sequencer State.reset).phase = .idle ∧
    (next .sequencer State.reset).schedule = .sequencer :: [] ∧
    (next .sequencer State.reset).rst = false := ⟨rfl, rfl, rfl, rfl, rfl, rfl, rfl⟩

/-- The two wait clauses meet at ELAPSED = DEADLINE and ELAPSED = DEADLINE + 1. -/
theorem witness_TickCountsOnlyInWait :
    (let s := { next .time (waiting .normal []) with elapsed := 5 }
     s.rst = false ∧ s.schedule = .time :: [] ∧ s.phase = .wait .normal ∧
       s.elapsed ≤ s.deadline.toNat) ∧
    (let s := { next .time (waiting .first []) with elapsed := 6 }
     s.rst = false ∧ s.schedule = .time :: [] ∧ s.phase = .wait .first ∧
       s.deadline.toNat < s.elapsed) ∧
    (∀ m, (next .time State.reset).phase ≠ .wait m) :=
  ⟨⟨rfl, rfl, rfl, by decide⟩, ⟨rfl, rfl, rfl, by decide⟩, (fun _ h => by cases h)⟩

theorem witness_PollEndsExactlyWhenIdle :
    (hosting .poll State.reset).schedule = .host :: [] ∧
    (hosting .poll State.reset).program = .poll :: [] ∧
    (hosting .poll State.reset).rst = false ∧ (hosting .poll State.reset).phase = .idle ∧
    (let s := hosting .poll (waiting .normal [])
     s.rst = false ∧ s.schedule = .host :: [] ∧ s.program = .poll :: [] ∧ s.phase ≠ .idle) := by decide

theorem witness_ReadsOnlyDriveTheBus :
    (hosting (.read 0x3FFF) (waiting .normal [])).rst = false ∧
    (hosting (.read 0x3FFF) (waiting .normal [])).schedule = .host :: [] ∧
    (hosting (.read 0x3FFF) (waiting .normal [])).program = .read 0x3FFF :: [] ∧
    target 0x038 = .unmapped ∧ target 0x1FFC = .unmapped := ⟨rfl, rfl, rfl, by decide, by decide⟩

theorem witness_RegistersReadTheirFields : StateInv (waiting .normal [0x01, 0x79]) := witness_inv

theorem witness_BufferCellsReadTheirBytes :
    ({ State.reset with ibuf := [(257, 7)] }).ibuf.read 257 = some 7 ∧ State.reset.ibuf.read 257 = none := by
  decide

theorem witness_UnmappedOffsetsReadZeroAndIgnoreWrites :
    target 0x038 = .unmapped ∧ target 0x3FC = .unmapped ∧ target 0x808 = .unmapped ∧
    target 0x1408 = .unmapped ∧ target 0x1FFF = .unmapped ∧ target 0x034 = .reg .config ∧
    target 0x400 = .ibuf 0 ∧ target 0x807 = .ibuf 257 ∧ target 0x1404 = .frame 257 ∧
    target 0x2FFC = .diag 1023 ∧ target 0x3FFC = .pdiag 1023 ∧
    (waiting .normal [0x01, 0x79]).diagCap ≤ 256 :=
  ⟨rfl, rfl, rfl, rfl, rfl, rfl, rfl, rfl, rfl, rfl, rfl, by decide⟩

theorem witness_OperandWritesStoreInIdle : State.reset.phase = .idle := rfl

/-- The edges of the two ranges. -/
theorem witness_ReadOnlyWritesAreIgnored :
    ((0x014 : Offset) &&& 0x3FFC).toNat = 0x014 ∧ ((0x3FF : Offset) &&& 0x3FFC).toNat = 0x3FC ∧
    ((0x808 : Offset) &&& 0x3FFC).toNat = 0x808 ∧ ((0x3FFF : Offset) &&& 0x3FFC).toNat = 0x3FFC :=
  ⟨rfl, rfl, rfl, rfl⟩

theorem witness_BlockedWritesOnlySetBusyerr :
    (waiting .normal []).phase ≠ .idle ∧ ((0x003 : Offset) &&& 0x3FFC).toNat = 0x000 ∧
    ((0x008 : Offset) &&& 0x3FFC).toNat = 0x008 ∧ ((0x00C : Offset) &&& 0x3FFC).toNat = 0x00C ∧
    ((0x013 : Offset) &&& 0x3FFC).toNat = 0x010 ∧ ((0x400 : Offset) &&& 0x3FFC).toNat = 0x400 ∧
    ((0x807 : Offset) &&& 0x3FFC).toNat = 0x804 := ⟨by decide, rfl, rfl, rfl, rfl, rfl, rfl⟩

theorem witness_AcceptanceTestsLegalityThenLength :
    State.reset.phase = .idle ∧ (∀ i, decode 0x06 ≠ .ok i) ∧
    258 < ({ State.reset with len := 259 }).len.toNat ∧
    ({ State.reset with len := 258 }).len.toNat ≤ 258 ∧
    256 < ({ State.reset with len := 257 }).len.toNat ∧ State.reset.len.toNat = 0 ∧
    1 ≤ ({ State.reset with len := 1 }).len.toNat ∧
    ({ State.reset with len := 256 }).len.toNat ≤ 256 :=
  ⟨rfl, (fun i h => by cases h), by decide, by decide, by decide, by decide, by decide, by decide⟩

theorem witness_OperationsEndByCompletion :
    (∃ t, exec (ExecOp.instr .buildSync) (running .buildSync []) = .next t) ∧
    (∃ t, exec .send (sending [] 0) = .next t ∧ t.phase = .idle) := ⟨⟨_, rfl⟩, _, rfl, rfl⟩

theorem witness_ChecksumFoldIgnoresOrderAndCancelsPairs :
    2 ≤ ([0x12, 0x34] : List Byte).length ∧ ([0x12, 0x34] : List Byte).Perm [0x34, 0x12] := by decide

theorem witness_WholeFrameXorIsConstant :
    2 ≤ ([0x12, 0x34] : List Byte).length ∧ ([0x12] : List Byte).length = 1 ∧
    ([] : List Byte).length = 0 ∧ 1 ≤ (List.replicate 256 (0 : Byte)).length ∧
    (List.replicate 256 (0 : Byte)).length ≤ 256 := by
  simp only [List.length_replicate]
  decide

theorem witness_FramesHaveTheirShapes :
    1 ≤ ([0xAB] : List Byte).length ∧ (List.replicate 256 (0xFF : Byte)).length ≤ 256 := by
  simp only [List.length_replicate]
  decide

theorem witness_CksumWritesTheChecksumOfItsInput :
    State.reset.phase = .idle ∧ State.reset.len.toNat ≤ 258 ∧
    258 < ({ State.reset with len := 259 }).len.toNat ∧
    (running .cksum [0x12, 0x34]).phase = .exec .cksum ∧
    InputIs (running .cksum [0x12, 0x34]) [0x12, 0x34] ∧ InputIs (running .cksum []) [] :=
  ⟨rfl, by decide, by decide, rfl, ⟨by decide, by decide⟩, by decide, by decide⟩

theorem witness_BuildCmdFramesTheLowByteOfArg :
    State.reset.phase = .idle ∧ (running .buildCmd []).phase = .exec .buildCmd := ⟨rfl, rfl⟩

theorem witness_BuildAddrFramesArgBigEndian :
    State.reset.phase = .idle ∧ (running .buildAddr []).phase = .exec .buildAddr ∧
    ({ running .buildAddr [] with arg := 0x12345678 }).arg =
      ((0x12 : Byte) ++ (0x34 : Byte) ++ (0x56 : Byte) ++ (0x78 : Byte) : BitVec (8 + 8 + 8 + 8)) :=
  ⟨rfl, rfl, by decide⟩

theorem witness_BuildDataFramesItsInput :
    State.reset.len.toNat = 0 ∧ 256 < ({ State.reset with len := 257 }).len.toNat ∧
    1 ≤ ({ State.reset with len := 1 }).len.toNat ∧
    (running .buildData [0xAB]).phase = .exec .buildData ∧
    1 ≤ (running .buildData [0xAB]).len.toNat ∧ (running .buildData [0xAB]).len.toNat ≤ 256 ∧
    InputIs (running .buildData [0xAB]) [0xAB] ∧
    (0x00 : Byte) = BitVec.ofNat 8 ((running .buildData [0xAB]).len.toNat - 1) :=
  ⟨by decide, by decide, by decide, rfl, by decide, by decide, ⟨by decide, by decide⟩, by decide⟩

theorem witness_BuildSyncFramesTheSyncByte :
    State.reset.phase = .idle ∧ (running .buildSync []).phase = .exec .buildSync := ⟨rfl, rfl⟩

theorem witness_NopOnlyCompletes :
    State.reset.phase = .idle ∧ (running .nop []).phase = .exec .nop := ⟨rfl, rfl⟩

theorem witness_SendStepsThroughTheFrame :
    (sending [0x01, 0xFE] 1).phase = .send 1 ∧ (sending [0x01, 0xFE] 1).frame[1]? = some 0xFE ∧
    (sending [0x01, 0xFE] 1).xerrIn = false ∧ (sending [0x01, 0xFE] 1).txReady = true ∧
    ({ sending [0x01, 0xFE] 1 with xerrIn := true }).xerrIn = true ∧
    ({ sending [0x01, 0xFE] 1 with txReady := false }).txReady = false ∧
    (sending [0x01, 0xFE] 2).phase = .send 2 ∧ 2 = (sending [0x01, 0xFE] 2).frame.length :=
  ⟨rfl, rfl, rfl, rfl, rfl, rfl, rfl, rfl⟩

theorem witness_SendTransmitsTheWholeFrameInOrder :
    (let s := { sending [0x01, 0xFE] 0 with
        schedule := [.sequencer, .sequencer, .sequencer, .time] }
     s.rst = false ∧ s.xerrIn = false ∧ s.txReady = true ∧ s.phase = .send 0 ∧ 0 = s.txCount ∧
       0 ≤ s.frame.length ∧
       s.schedule = List.replicate (s.frame.length - 0 + 1) .sequencer ++ [.time]) :=
  ⟨rfl, rfl, rfl, rfl, rfl, by decide, rfl⟩

theorem witness_ValidateCmdChecksTheComplement :
    (running .validateCmd [0x01]).phase = .exec .validateCmd ∧
    (running .validateCmd [0x01]).len.toNat ≠ 2 ∧ InputWritten (running .validateCmd [0x01]) ∧
    (running .validateCmd [0x01, 0xFE]).len.toNat = 2 ∧
    (running .validateCmd [0x01, 0xFE]).ibuf.read 0 = some 0x01 ∧
    (running .validateCmd [0x01, 0xFE]).ibuf.read 1 = some 0xFE := by
  unfold InputWritten
  decide

theorem witness_ValidateAddrChecksTheXorAndDecodes :
    (let s := running .validateAddr [0x08, 0x00, 0x00, 0x00, 0x08]
     s.phase = .exec .validateAddr ∧ s.len.toNat = 5 ∧ s.ibuf.read 0 = some 0x08 ∧
       s.ibuf.read 1 = some 0x00 ∧ s.ibuf.read 2 = some 0x00 ∧ s.ibuf.read 3 = some 0x00 ∧
       s.ibuf.read 4 = some 0x08) ∧
    (running .validateAddr [0x08]).len.toNat ≠ 5 ∧ InputWritten (running .validateAddr [0x08]) := by
  unfold InputWritten
  decide

theorem witness_ValidateDataChecksLengthCountChecksum :
    (running .validateData [0xFF, 0x00]).len.toNat < 3 ∧
    InputWritten (running .validateData [0xFF, 0x00]) ∧
    (let s := running .validateData [0x03, 0xAB, 0xAB]
     3 ≤ s.len.toNat ∧ InputWritten s ∧ s.ibuf.read 0 = some 0x03 ∧
       (0x03 : Byte).toNat ≠ s.len.toNat - 3) ∧
    (let s := running .validateData [0x00, 0xAB, 0xAB]
     s.phase = .exec .validateData ∧ 3 ≤ s.len.toNat ∧ InputIs s (0x00 :: [0xAB] ++ [0xAB]) ∧
       (0x00 : Byte).toNat = s.len.toNat - 3) := by
  unfold InputWritten InputIs
  decide

theorem witness_ValidatorsAcceptExactlyTheBuiltFrames :
    InputIs (running .validateCmd (cmdframe 0x31)) (cmdframe 0x31) ∧
    InputIs (running .validateAddr (addrframe 0x08000000)) (addrframe 0x08000000) ∧
    InputIs (running .validateData (dataframe [0xAB])) (dataframe [0xAB]) ∧
    InputIs (running .validateData []) [] :=
  ⟨⟨by decide, by decide⟩, ⟨by decide, by decide⟩, ⟨by decide, by decide⟩, by decide, by decide⟩

theorem witness_CheckByteDetectsOneByteChanges :
    (1 : Byte) ≠ 0 ∧
    InputIs (running .validateAddr (flipBits 4 1 (addrframe 0x08000000)))
      (flipBits 4 1 (addrframe 0x08000000)) ∧
    InputIs (running .validateData (flipBits 0 1 (dataframe [0xAB])))
      (flipBits 0 1 (dataframe [0xAB])) ∧
    InputIs (running .validateData (flipBits 2 1 (dataframe [0xAB])))
      (flipBits 2 1 (dataframe [0xAB])) ∧
    InputIs (running .validateCmd (flipBits 1 1 (cmdframe 0x31))) (flipBits 1 1 (cmdframe 0x31)) ∧
    InputIs (running .validateAddr (flipBits 0 1 (flipBits 4 1 (addrframe 0x08000000))))
      (flipBits 0 1 (flipBits 4 1 (addrframe 0x08000000))) ∧
    InputIs (running .validateData (flipBits 0 1 (flipBits 2 1 (dataframe [0xAB]))))
      (flipBits 0 1 (flipBits 2 1 (dataframe [0xAB]))) ∧
    InputIs (running .validateData (flipBits 1 1 (flipBits 2 1 (dataframe [0xAB]))))
      (flipBits 1 1 (flipBits 2 1 (dataframe [0xAB]))) :=
  ⟨by decide, ⟨by decide, by decide⟩, ⟨by decide, by decide⟩, ⟨by decide, by decide⟩,
    ⟨by decide, by decide⟩, ⟨by decide, by decide⟩, ⟨by decide, by decide⟩, by decide, by decide⟩

theorem witness_WaitAcceptanceStartsAFreshBuffer :
    State.reset.phase = .idle ∧
    (let s := { waiting .normal [] with deadline := 0, elapsed := 1 }
     s.phase = .wait .normal ∧ s.xerrIn = false ∧ s.deadline = 0 ∧ s.elapsed = 1) :=
  ⟨rfl, rfl, rfl, rfl, rfl⟩

/-- The decisions' conditions at their edges: ELAPSED = DEADLINE and DEADLINE + 1, DIAG one short of
full and full. -/
theorem witness_AckWaitDecidesFailureThenTimeoutThenByte :
    (waiting .normal []).phase = .wait .normal ∧
    ({ waiting .normal [] with xerrIn := true }).xerrIn = true ∧
    (let s := { waiting .normal [] with elapsed := 6 }
     s.xerrIn = false ∧ s.deadline.toNat < s.elapsed) ∧
    (let s := { waiting .normal [0x55] with elapsed := 5, diagCap := 16, diag := List.replicate 15 1 }
     s.xerrIn = false ∧ s.elapsed ≤ s.deadline.toNat ∧ s.rxq = 0x55 :: [] ∧
       s.diag.length < s.diagCap) ∧
    (let s := { waiting .normal [0x55] with diagCap := 16, diag := List.replicate 16 1 }
     s.diagCap ≤ s.diag.length) ∧ (0x55 : Byte) ≠ 0x79 ∧ (0x55 : Byte) ≠ 0x1F := by decide

theorem witness_AckWaitFirstEndsAtTheFirstByte :
    (waiting .first []).phase = .wait .first ∧
    ({ waiting .first [] with xerrIn := true }).xerrIn = true ∧
    (let s := { waiting .first [] with elapsed := 6 }
     s.xerrIn = false ∧ s.deadline.toNat < s.elapsed) ∧
    (let s := { waiting .first [0x1F] with elapsed := 5 }
     s.xerrIn = false ∧ s.elapsed ≤ s.deadline.toNat ∧ s.rxq = 0x1F :: [] ∧
       s.diag.length < s.diagCap) ∧
    (let s := { waiting .first [0x55] with diagCap := 16, diag := List.replicate 16 1 }
     s.diagCap ≤ s.diag.length) ∧ (0x1F : Byte) ≠ 0x79 := by decide

theorem witness_WaitCollectsUntilItsTerminator :
    (let s := { waiting .normal [0x01, 0x04, 0x79, 0x55] with
        schedule := [.sequencer, .sequencer, .sequencer, .time] }
     s.rst = false ∧ s.xerrIn = false ∧ s.phase = .wait .normal ∧ s.elapsed ≤ s.deadline.toNat ∧
       s.rxq = [0x01, 0x04] ++ 0x79 :: [0x55] ∧
       (∀ x ∈ ([0x01, 0x04] : List Byte), x ≠ 0x79 ∧ x ≠ 0x1F) ∧
       s.diag.length ≤ s.diagCap ∧
       s.schedule = List.replicate (([0x01, 0x04] : List Byte).length + 1) .sequencer ++ [.time]) ∧
    (let s := { waiting .normal [0x55, 0x1F] with
        schedule := [.sequencer, .sequencer], elapsed := 5
        diagCap := 16, diag := List.replicate 16 1 }
     s.rst = false ∧ s.xerrIn = false ∧ s.phase = .wait .normal ∧ s.elapsed ≤ s.deadline.toNat ∧
       s.rxq = [0x55] ++ 0x1F :: [] ∧ (∀ x ∈ ([0x55] : List Byte), x ≠ 0x79 ∧ x ≠ 0x1F) ∧
       s.diag.length ≤ s.diagCap ∧
       s.schedule = List.replicate (([0x55] : List Byte).length + 1) .sequencer ++ []) := by
  decide

theorem witness_WaitTimesOutAfterItsDeadline :
    (let s := { waiting .first [0x79] with elapsed := 4, schedule := [.time, .time, .sequencer] }
     s.rst = false ∧ s.xerrIn = false ∧ s.phase = .wait .first ∧ s.elapsed ≤ s.deadline.toNat ∧
       s.schedule = List.replicate (s.deadline.toNat + 1 - s.elapsed) .time ++ .sequencer :: []) := by
  decide

theorem witness_TransportFailureEndsSendAndWait :
    (let s := { sending [0x01, 0xFE] 1 with xerrIn := true }
     s.phase = .send 1 ∧ 1 < s.frame.length ∧ s.xerrIn = true) ∧
    ({ waiting .normal [] with xerrIn := true }).phase = .wait .normal ∧
    ({ waiting .first [] with xerrIn := true }).phase = .wait .first := by decide

theorem witness_OperationsNeverWriteTheOperandRegisters :
    ∃ t, exec .buildCmd (running .buildCmd []) = .next t := ⟨_, rfl⟩

theorem witness_OperationsLeaveInputAndEnvironmentAlone :
    ∃ t, exec .cksum (running .cksum [0x12, 0x34]) = .next t := ⟨_, rfl⟩

theorem witness_EachResultIsWrittenOnlyByItsOperations :
    (∃ t, exec .nop (running .nop []) = .next t) ∧ Instr.nop ≠ .ackWait ∧ Instr.nop ≠ .ackWaitFirst ∧
    Instr.nop ≠ .validateCmd ∧ Instr.nop ≠ .validateAddr ∧ Instr.nop ≠ .validateData ∧
    Instr.nop ≠ .cksum ∧ Instr.nop ≠ .buildCmd ∧ Instr.nop ≠ .buildAddr ∧ Instr.nop ≠ .buildData ∧
    Instr.nop ≠ .buildSync ∧ Instr.nop ≠ .send := ⟨⟨_, rfl⟩, by decide⟩

theorem witness_ErrorBitsAreStickyAndNeverRead :
    (let s := { hosting (.write 0x004 0x100) State.reset with
        busyerr := true, illop := true, lenerr := true, xerr := true }
     (∃ t, step s = .next t) ∧ s.rst = false ∧ (∀ rest, s.schedule ≠ .reset true :: rest) ∧
       s.busyerr = true ∧ s.illop = true ∧ s.lenerr = true ∧ s.xerr = true ∧
       ¬ ClearsStatusBit s 9 ∧ ¬ ClearsStatusBit s 10 ∧ ¬ ClearsStatusBit s 11 ∧
       ¬ ClearsStatusBit s 12) ∧
    (∃ t, State.reset.phase = .idle ∧ exec .nop State.reset = .next t ∧ t.phase ≠ .idle) := by
  refine ⟨⟨⟨_, rfl⟩, rfl, fun _ h => (by cases h), rfl, rfl, rfl, rfl, ?_, ?_, ?_, ?_⟩,
    _, rfl, rfl, by decide⟩
  all_goals
    rintro ⟨rest, off, w, p, -, h, -, hw⟩
    cases h
    revert hw
    decide

theorem witness_StreamsMoveOneByteAtATimeInOrder :
    ∃ t, step (next .sequencer (sending [0x01, 0xFE] 0)) = .next t := ⟨_, rfl⟩

theorem witness_TransportStepsChangeOnlyTheirOwnSignal :
    (let s := next (.transport (.deliver 0x79)) (waiting .normal [0x55])
     s.rst = false ∧ s.schedule = .transport (.deliver 0x79) :: []) ∧
    (let s := next (.transport (.setTxReady false)) (sending [0x01] 0)
     s.rst = false ∧ s.schedule = .transport (.setTxReady false) :: []) ∧
    (let s := next (.transport (.setXportErr true)) State.reset
     s.rst = false ∧ s.schedule = .transport (.setXportErr true) :: []) := by decide

theorem witness_BytesMoveOnlyByTheHandshake :
    (sending [0x01] 0).phase = .send 0 ∧
    (∃ t, exec .send (sending [0x01] 0) = .next t ∧ t.txlog ≠ (sending [0x01] 0).txlog) ∧
    (∃ t, exec .ackWait (waiting .normal [0x55]) = .next t ∧
      t.rxq ≠ (waiting .normal [0x55]).rxq) ∧
    (let s := next .sequencer (sending [0x01, 0xFE] 1)
     s.rst = false ∧ s.schedule = .sequencer :: [] ∧ txValid s = true ∧ s.txReady = true) ∧
    (let s := { next .sequencer (waiting .first [0x55]) with elapsed := 5 }
     s.rst = false ∧ s.schedule = .sequencer :: [] ∧ rxReady s = true ∧ rxValid s = true) :=
  ⟨rfl, ⟨_, rfl, by decide⟩, ⟨_, rfl, by decide⟩, by decide⟩

/-- 10_state.md R32 with R230 and R286: no byte is offered or taken in a step that does not move one. -/
theorem test_ports_closed :
    txValid { sending [0x01] 0 with xerrIn := true } = false ∧
    rxReady { waiting .normal [0x55] with xerrIn := true } = false ∧
    rxReady { waiting .normal [0x55] with elapsed := 6 } = false := by decide

theorem witness_TransportErrorMattersOnlyInSendAndWait :
    (let s := next .sequencer (running .nop [])
     (∃ t, step s = .next t) ∧
       (∀ rest, s.schedule = .sequencer :: rest →
         (∀ i, s.phase ≠ .send i) ∧ ∀ m, s.phase ≠ .wait m) ∧
       (∀ rest l, s.schedule ≠ .transport (.setXportErr l) :: rest)) ∧
    (let s := { next .sequencer (sending [0x01] 0) with xerrIn := true }
     s.rst = false ∧ s.xerrIn = true ∧ s.schedule = .sequencer :: [] ∧ s.phase = .send 0 ∧
       0 < s.frame.length) ∧
    (let s := { next .sequencer (waiting .normal []) with xerrIn := true }
     s.rst = false ∧ s.xerrIn = true ∧ s.schedule = .sequencer :: [] ∧ s.phase = .wait .normal) :=
  ⟨⟨⟨_, rfl⟩, fun _ _ => ⟨fun _ h => (by cases h), (fun _ h => by cases h)⟩,
    (fun _ _ h => by cases h)⟩, ⟨rfl, rfl, rfl, rfl, by decide⟩, rfl, rfl, rfl, rfl⟩

theorem witness_OnlyTheSequencerOrResetEndsAnOperation :
    (let s := hosting (.write 0x000 0x01) (waiting .normal [])
     (∃ t, step s = .next t) ∧ s.phase ≠ .idle ∧ s.rst = false ∧
       (∀ rest, s.schedule ≠ .sequencer :: rest) ∧ ∀ rest, s.schedule ≠ .reset true :: rest) :=
  ⟨⟨_, rfl⟩, by decide, rfl, fun _ h => (by cases h), (fun _ h => by cases h)⟩

theorem witness_OperationsStopOnlyOnUnwrittenInput :
    (let s := { running .cksum [] with len := 1 }
     exec .cksum s = .fault .ibufUnwritten ∧ s.phase = .exec .cksum ∧ 0 < s.len.toNat ∧
       s.ibuf.read 0 = none) ∧
    (let s := { running .buildData [0x01] with len := 2 }
     s.phase = .exec .buildData ∧ 1 < s.len.toNat ∧ s.ibuf.read 1 = none) ∧
    (let s := { running .validateCmd [0x11] with len := 3 }
     s.phase = .exec .validateCmd ∧ 2 < s.len.toNat ∧ s.ibuf.read 2 = none) ∧
    (let s := { running .validateAddr [] with len := 1 }
     s.phase = .exec .validateAddr ∧ 0 < s.len.toNat ∧ s.ibuf.read 0 = none) ∧
    (let s := { running .validateData [0x05, 0xAA] with len := 3 }
     s.phase = .exec .validateData ∧ 2 < s.len.toNat ∧ s.ibuf.read 2 = none) :=
  ⟨⟨rfl, rfl, by decide, rfl⟩, by decide⟩

theorem witness_EveryOperationRunsOnWrittenInput : InputWritten (running .cksum [0x12, 0x34]) := by
  unfold InputWritten
  decide

theorem witness_AssembledStatementsReachTheirTargets :
    (Stmt.wrb 257 0xFF).wellFormed = true ∧ (Stmt.rdb .frame 257).wellFormed = true ∧
    (Stmt.rdb .diag 1023).wellFormed = true ∧ (Stmt.rdb .pdiag 1023).wellFormed = true := by decide

end Sys2Proof.Tests
end

/-! PROOF. DIAG_CAP is a parameter (00_scope.md R7, 10_state.md R40): each shared operation, each
operation of the opcode table and each agent's step leaves it as it is. -/

namespace Sys2Proof.Machine

/-! ## Shared operations -/

@[simp] theorem acceptInput_diagCap (op : ExecOp) (s : State) :
    (acceptInput op s).diagCap = s.diagCap := by
  obtain ⟨-, h⟩ | ⟨-, h⟩ := acceptInput_cases op s <;> simp [h]

@[simp] theorem acceptPayload_diagCap (op : ExecOp) (s : State) :
    (acceptPayload op s).diagCap = s.diagCap := by
  obtain ⟨-, h⟩ | ⟨-, -, h⟩ := acceptPayload_cases op s <;> simp [h]

@[simp] theorem cmdVerdict_diagCap (f : List Byte) (s : State) :
    (cmdVerdict f s).diagCap = s.diagCap := by
  obtain ⟨-, h⟩ | ⟨_, _, -, h⟩ := cmdVerdict_cases f s <;> simp [h]

@[simp] theorem addrVerdict_diagCap (f : List Byte) (s : State) :
    (addrVerdict f s).diagCap = s.diagCap := by
  obtain ⟨-, h⟩ | ⟨_, _, _, _, _, -, h⟩ := addrVerdict_cases f s <;> simp [h]

@[simp] theorem dataVerdict_diagCap (f : List Byte) (s : State) :
    (dataVerdict f s).diagCap = s.diagCap := by
  obtain ⟨-, h⟩ | ⟨_, _, _, -, -, ⟨-, h⟩ | ⟨-, h⟩⟩ := dataVerdict_cases f s <;> simp [h]

@[simp] theorem sendStep_diagCap (i : Nat) (s : State) : (sendStep i s).diagCap = s.diagCap := by
  obtain ⟨-, h⟩ | ⟨_, -, ⟨-, h⟩ | ⟨-, -, h⟩ | ⟨-, -, h⟩⟩ := sendStep_cases i s <;> simp [h]

@[simp] theorem classifyNormal_diagCap (b : Byte) (s : State) :
    (classifyNormal b s).diagCap = s.diagCap := by
  obtain ⟨-, h⟩ | ⟨-, h⟩ | ⟨-, -, h⟩ := classifyNormal_cases b s <;> simp [h]

@[simp] theorem classifyFirst_diagCap (b : Byte) (s : State) :
    (classifyFirst b s).diagCap = s.diagCap := by
  obtain ⟨-, h⟩ | ⟨-, h⟩ := classifyFirst_cases b s <;> simp [h]

/-- A wait step keeps DIAG_CAP if its way of classifying a byte does. -/
theorem waitStep_diagCap {classify : Byte → State → State}
    (hc : ∀ b s, (classify b s).diagCap = s.diagCap) (s : State) :
    (waitStep classify s).diagCap = s.diagCap := by
  obtain ⟨-, h⟩ | ⟨-, -, h⟩ | ⟨-, -, -, h⟩ | ⟨_, _, -, -, -, h⟩ := waitStep_cases classify s <;>
    simp [h, hc]

/-! ## Operations -/

/-- No operation changes DIAG_CAP, whether it is accepted, refused, run or blocked. -/
theorem exec_diagCap {i : Instr} {s t : State} (h : exec i s = .next t) :
    t.diagCap = s.diagCap := by
  cases i with
  | nop => obtain ⟨-, rfl⟩ | ⟨-, rfl⟩ | ⟨-, -, rfl⟩ := execNop_next h <;> simp
  | cksum => obtain ⟨-, rfl⟩ | ⟨-, _, -, rfl⟩ | ⟨-, -, rfl⟩ := execCksum_next h <;> simp
  | buildCmd => obtain ⟨-, rfl⟩ | ⟨-, rfl⟩ | ⟨-, -, rfl⟩ := execBuildCmd_next h <;> simp
  | buildAddr => obtain ⟨-, rfl⟩ | ⟨-, rfl⟩ | ⟨-, -, rfl⟩ := execBuildAddr_next h <;> simp
  | buildData => obtain ⟨-, rfl⟩ | ⟨-, _, -, rfl⟩ | ⟨-, -, rfl⟩ := execBuildData_next h <;> simp
  | buildSync => obtain ⟨-, rfl⟩ | ⟨-, rfl⟩ | ⟨-, -, rfl⟩ := execBuildSync_next h <;> simp
  | send => obtain ⟨-, rfl⟩ | ⟨_, -, rfl⟩ | ⟨-, -, rfl⟩ := execSend_next h <;> simp
  | ackWait =>
    obtain ⟨-, rfl⟩ | ⟨-, rfl⟩ | ⟨-, -, rfl⟩ := execAckWait_next h
    · simp
    · exact waitStep_diagCap classifyNormal_diagCap s
    · simp
  | ackWaitFirst =>
    obtain ⟨-, rfl⟩ | ⟨-, rfl⟩ | ⟨-, -, rfl⟩ := execAckWaitFirst_next h
    · simp
    · exact waitStep_diagCap classifyFirst_diagCap s
    · simp
  | validateCmd =>
    obtain ⟨-, rfl⟩ | ⟨-, _, -, rfl⟩ | ⟨-, -, rfl⟩ := execValidateCmd_next h <;> simp
  | validateAddr =>
    obtain ⟨-, rfl⟩ | ⟨-, _, -, rfl⟩ | ⟨-, -, rfl⟩ := execValidateAddr_next h <;> simp
  | validateData =>
    obtain ⟨-, rfl⟩ | ⟨-, _, -, rfl⟩ | ⟨-, -, rfl⟩ := execValidateData_next h <;> simp

/-! ## Agents -/

/-- A host write leaves DIAG_CAP as it is at every target, CONFIG among them (10_state.md R40). -/
theorem targetWrite_diagCap {tg : Target} {w : Word} {s t : State}
    (h : targetWrite tg w s = .next t) : t.diagCap = s.diagCap := by
  cases targetWrite_next h with
  | command i _ _ _ hx => exact exec_diagCap hx
  | illegal _ _ ht => simp [ht]
  | blocked _ ht => simp [ht]
  | clear _ ht => simp [ht]
  | arg _ _ ht => simp [ht]
  | len _ _ ht => simp [ht]
  | deadline _ _ ht => simp [ht]
  | cell _ _ _ ht => simp [ht]
  | ignored ht => simp [ht]

@[simp] theorem pollStep_diagCap (rest : List HostOp) (s : State) :
    (pollStep rest s).diagCap = s.diagCap := by
  obtain h | h := pollStep_cases rest s <;> simp [h]

theorem hostStep_diagCap {s t : State} (h : hostStep s = .next t) : t.diagCap = s.diagCap := by
  obtain ⟨-, rfl⟩ | ⟨_, _, -, rfl⟩ | ⟨_, _, _, -, hw⟩ | ⟨_, -, rfl⟩ := hostStep_next h
  · rfl
  · simp
  · exact (targetWrite_diagCap hw :)
  · simp

theorem sequencerStep_diagCap {s t : State} (h : sequencerStep s = .next t) :
    t.diagCap = s.diagCap := by
  obtain ⟨-, rfl⟩ | ⟨_, -, hx⟩ := sequencerStep_next h
  · rfl
  · exact exec_diagCap hx

@[simp] theorem transportStep_diagCap (ts : TransportStep) (s : State) :
    (transportStep ts s).diagCap = s.diagCap := by
  cases ts <;> rfl

@[simp] theorem hostStepInReset_diagCap (s : State) :
    (hostStepInReset s).diagCap = s.diagCap := by
  unfold hostStepInReset
  split <;> simp

@[simp] theorem stepInReset_diagCap (a : AgentStep) (s : State) :
    (stepInReset a s).diagCap = s.diagCap := by
  cases a <;> simp [stepInReset]

theorem stepRunning_diagCap {a : AgentStep} {s t : State} (h : stepRunning a s = .next t) :
    t.diagCap = s.diagCap := by
  cases a with
  | host => exact hostStep_diagCap h
  | sequencer => exact sequencerStep_diagCap h
  | transport ts => cases h; simp
  | time => cases h; simp
  | reset level => cases h; cases level <;> simp

theorem agentStep_diagCap {a : AgentStep} {s t : State} (h : agentStep a s = .next t) :
    t.diagCap = s.diagCap := by
  obtain ⟨-, rfl⟩ | ⟨-, hr⟩ := agentStep_next h
  · simp
  · exact stepRunning_diagCap hr

/-! ## The obligation -/

/-- Settles O7: the schedule is empty, or its first agent acts and keeps DIAG_CAP. -/
theorem noStepChangesTheDiagnosticCapacity : Obligations.NoStepChangesTheDiagnosticCapacity := by
  intro s t h
  obtain ⟨-, rfl⟩ | ⟨_, _, -, ha⟩ := step_next h
  · rfl
  · exact (agentStep_diagCap ha :)

end Sys2Proof.Machine

/-! PROOF. What any operation can do, said once for all twelve: its acceptance or its refusal in Idle
(40_host_access.md R160), the step of the running operation (10_state.md R46 (b)), or a blocked command
(40_host_access.md R158). The rules about every operation are read off these cases. -/

namespace Sys2Proof.Machine

/-- The BUILD operations (42_frame_build.md). -/
def ExecOp.builds (op : ExecOp) : Prop :=
  op = .buildCmd ∨ op = .buildAddr ∨ op = .buildData ∨ op = .buildSync

/-- The VALIDATE operations (43_frame_validate.md). -/
def ExecOp.validates (op : ExecOp) : Prop :=
  op = .validateCmd ∨ op = .validateAddr ∨ op = .validateData

/-- The operation whose wait has mode `m` (10_state.md R45). -/
def WaitMode.instr : WaitMode → Instr
  | .normal => .ackWait
  | .first => .ackWaitFirst

theorem running_wait (m : WaitMode) : running (.wait m) = some m.instr := by cases m <;> rfl

/-- What the Exec step of `op` does to `s` before it completes. -/
inductive ExecEffect (s : State) : ExecOp → State → Prop where
  | nop : ExecEffect s .nop s
  | cksum (c : Byte) : ExecEffect s .cksum (setCsum c s)
  /-- With LEN in the range acceptance checked, the frame fits FRAME. -/
  | built (op : ExecOp) (f : List Byte) : op.builds →
      (lenInRange op s.len.toNat → f.length ≤ Config.bufCap) → ExecEffect s op (setFrame f s)
  /-- The length or the count check failed, before a checksum was taken. -/
  | rejected (op : ExecOp) (v : Verr) : op.validates → ExecEffect s op (verdict false v s)
  | checked (op : ExecOp) (ok : Bool) (v : Verr) (c : Byte) : op.validates →
      (ok = true → v = .ok) → ExecEffect s op (verdict ok v (setCsum c s))
  | located (a : Word) (c : Byte) :
      ExecEffect s .validateAddr (verdict true .ok (setVaddr a (setCsum c s)))

/-- What a wait does with byte `b`, once `b` has left `rxq` (44_ack_detect.md R288, R298). -/
inductive Classified (b : Byte) (s : State) : State → Prop where
  | ended (r : AckRes) : Classified b s (finish r s)
  | kept : Classified b s (append b s)
  | keptAndEnded (r : AckRes) : Classified b s (finish r (append b s))

/-- The decisions of a wait step (44_ack_detect.md R286). -/
inductive WaitCase (s t : State) : Prop where
  | failed : s.xerrIn = true → t = xportFail s → WaitCase s t
  | timedOut : s.xerrIn = false → s.deadline.toNat < s.elapsed → t = finish .timedOut s →
      WaitCase s t
  | noByte : s.xerrIn = false → s.elapsed ≤ s.deadline.toNat → s.rxq = [] → t = s → WaitCase s t
  | byte (b : Byte) (rest : List Byte) : s.xerrIn = false → s.elapsed ≤ s.deadline.toNat →
      s.rxq = b :: rest → Classified b (consume rest s) t → WaitCase s t

/-- What operation `i` can do in state `s`. -/
inductive ExecCase (i : Instr) (s t : State) : Prop where
  | blocked : s.phase ≠ .idle → t = blockedWrite s → ExecCase i s t
  | lengthRefused (op : ExecOp) : i = op.instr → s.phase = .idle →
      ¬ lenInRange op s.len.toNat → t = refuseLength s → ExecCase i s t
  | accepted (op : ExecOp) : i = op.instr → s.phase = .idle → lenInRange op s.len.toNat →
      t = acceptExec op s → ExecCase i s t
  | sendAccepted : i = .send → s.phase = .idle → t = acceptSend s → ExecCase i s t
  | waitAccepted (m : WaitMode) : i = m.instr → s.phase = .idle → t = acceptWait m s →
      ExecCase i s t
  | ran (op : ExecOp) (u : State) : i = op.instr → s.phase = .exec op → ExecEffect s op u →
      t = complete u → ExecCase i s t
  | sent (j : Nat) : i = .send → s.phase = .send j → t = sendStep j s → ExecCase i s t
  | waited (m : WaitMode) : i = m.instr → s.phase = .wait m → WaitCase s t → ExecCase i s t

/-! ## Acceptance -/

/-- Acceptance of an operation whose LEN is at most 258: refused or accepted by that range. -/
theorem ExecCase.of_acceptInput {op : ExecOp} {s : State} (hp : s.phase = .idle)
    (hl : lenInRange op s.len.toNat ↔ s.len.toNat ≤ Config.bufCap) :
    ExecCase op.instr s (acceptInput op s) := by
  obtain ⟨h, ht⟩ | ⟨h, ht⟩ := acceptInput_cases op s
  · exact .lengthRefused op rfl hp (by rw [hl]; omega) ht
  · exact .accepted op rfl hp (hl.mpr h) ht

/-- Acceptance of BUILD_DATA: refused or accepted by its range of LEN. -/
theorem ExecCase.of_acceptPayload {s : State} (hp : s.phase = .idle) :
    ExecCase .buildData s (acceptPayload .buildData s) := by
  obtain ⟨h, ht⟩ | ⟨h1, h2, ht⟩ := acceptPayload_cases .buildData s
  · exact .lengthRefused .buildData rfl hp (by simp only [lenInRange]; omega) ht
  · exact .accepted .buildData rfl hp ⟨h1, h2⟩ ht

/-! ## Exec steps -/

/-- A data frame of LEN payload bytes fits FRAME (42_frame_build.md R218). -/
theorem dataframe_fits {m : Memory} {n : Nat} {p : List Byte} (hp : m.readRange 0 n = some p)
    (hn : lenInRange .buildData n) : (dataframe p).length ≤ Config.bufCap := by
  have hl : p.length = n := (Memory.readRange_eq_some.mp hp).1
  have hn' : n ≤ Config.payloadMax := hn.2
  rw [dataframe_length, hl]
  unfold Config.payloadMax at hn'
  unfold Config.bufCap
  omega

theorem ExecEffect.of_checkVerdict {op : ExecOp} (ho : op.validates) (got want c : Byte)
    (s : State) : ExecEffect s op (checkVerdict got want (setCsum c s)) := by
  obtain ⟨-, h⟩ | ⟨-, h⟩ := checkVerdict_cases got want (setCsum c s) <;> rw [h]
  · exact .checked op true .ok c ho fun _ => rfl
  · exact .checked op false .checksum c ho nofun

theorem ExecEffect.of_cmdVerdict (f : List Byte) (s : State) :
    ExecEffect s .validateCmd (cmdVerdict f s) := by
  have ho : ExecOp.validates .validateCmd := .inl rfl
  obtain ⟨-, h⟩ | ⟨b0, b1, -, h⟩ := cmdVerdict_cases f s <;> rw [h]
  · exact .rejected _ .length ho
  · exact .of_checkVerdict ho ..

theorem ExecEffect.of_addrVerdict (f : List Byte) (s : State) :
    ExecEffect s .validateAddr (addrVerdict f s) := by
  have ho : ExecOp.validates .validateAddr := .inr (.inl rfl)
  obtain ⟨-, h⟩ | ⟨b0, b1, b2, b3, b4, -, h⟩ := addrVerdict_cases f s <;> rw [h]
  · exact .rejected _ .length ho
  · obtain ⟨-, h⟩ | ⟨-, h⟩ := checkAddrVerdict_cases [b0, b1, b2, b3] b4
      (setCsum (checksum [b0, b1, b2, b3]) s) <;> rw [h]
    · exact .located ..
    · exact .checked _ false .checksum _ ho nofun

theorem ExecEffect.of_dataVerdict (f : List Byte) (s : State) :
    ExecEffect s .validateData (dataVerdict f s) := by
  have ho : ExecOp.validates .validateData := .inr (.inr rfl)
  obtain ⟨-, h⟩ | ⟨_, _, _, -, -, ⟨-, h⟩ | ⟨-, h⟩⟩ := dataVerdict_cases f s <;> rw [h]
  · exact .rejected _ .length ho
  · exact .rejected _ .count ho
  · exact .of_checkVerdict ho ..

/-! ## Wait steps -/

theorem classifyNormal_classified (b : Byte) (s : State) : Classified b s (classifyNormal b s) := by
  obtain ⟨-, h⟩ | ⟨-, h⟩ | ⟨-, -, h⟩ := classifyNormal_cases b s <;> rw [h]
  exacts [.ended .acked, .ended .nacked, .kept]

theorem classifyFirst_classified (b : Byte) (s : State) : Classified b s (classifyFirst b s) := by
  obtain ⟨-, h⟩ | ⟨-, h⟩ := classifyFirst_cases b s <;> rw [h]
  exacts [.ended .acked, .keptAndEnded .nacked]

theorem waitStep_case {classify : Byte → State → State}
    (hc : ∀ b s, Classified b s (classify b s)) (s : State) : WaitCase s (waitStep classify s) := by
  obtain ⟨hx, h⟩ | ⟨hx, he, h⟩ | ⟨hx, he, hq, h⟩ | ⟨b, rest, hx, he, hq, h⟩ :=
    waitStep_cases classify s
  · exact .failed hx h
  · exact .timedOut hx he h
  · exact .noByte hx he hq h
  · exact .byte b rest hx he hq (h ▸ hc b (consume rest s))

/-! ## Every operation -/

/-- An operation that answers a next state is in one of the cases. -/
theorem exec_next {i : Instr} {s t : State} (h : exec i s = .next t) : ExecCase i s t := by
  cases i with
  | nop =>
    obtain ⟨hp, ht⟩ | ⟨hp, ht⟩ | ⟨hp, -, ht⟩ := execNop_next h
    exacts [.accepted .nop rfl hp trivial ht, .ran .nop s rfl hp .nop ht, .blocked hp ht]
  | cksum =>
    obtain ⟨hp, rfl⟩ | ⟨hp, bs, -, ht⟩ | ⟨hp, -, ht⟩ := execCksum_next h
    exacts [.of_acceptInput (op := .cksum) hp .rfl, .ran .cksum _ rfl hp (.cksum _) ht,
      .blocked hp ht]
  | buildCmd =>
    obtain ⟨hp, ht⟩ | ⟨hp, ht⟩ | ⟨hp, -, ht⟩ := execBuildCmd_next h
    · exact .accepted .buildCmd rfl hp trivial ht
    · exact .ran .buildCmd _ rfl hp (.built _ _ (.inl rfl) fun _ => by
        rw [cmdframe_length]; decide) ht
    · exact .blocked hp ht
  | buildAddr =>
    obtain ⟨hp, ht⟩ | ⟨hp, ht⟩ | ⟨hp, -, ht⟩ := execBuildAddr_next h
    · exact .accepted .buildAddr rfl hp trivial ht
    · exact .ran .buildAddr _ rfl hp (.built _ _ (.inr (.inl rfl)) fun _ => by
        rw [addrframe_length]; decide) ht
    · exact .blocked hp ht
  | buildData =>
    obtain ⟨hp, rfl⟩ | ⟨hp, p, hr, ht⟩ | ⟨hp, -, ht⟩ := execBuildData_next h
    · exact .of_acceptPayload hp
    · exact .ran .buildData _ rfl hp (.built _ _ (.inr (.inr (.inl rfl))) (dataframe_fits hr)) ht
    · exact .blocked hp ht
  | buildSync =>
    obtain ⟨hp, ht⟩ | ⟨hp, ht⟩ | ⟨hp, -, ht⟩ := execBuildSync_next h
    · exact .accepted .buildSync rfl hp trivial ht
    · exact .ran .buildSync _ rfl hp (.built _ _ (.inr (.inr (.inr rfl))) fun _ => by decide) ht
    · exact .blocked hp ht
  | send =>
    obtain ⟨hp, ht⟩ | ⟨j, hp, ht⟩ | ⟨hp, -, ht⟩ := execSend_next h
    exacts [.sendAccepted rfl hp ht, .sent j rfl hp ht, .blocked hp ht]
  | ackWait =>
    obtain ⟨hp, ht⟩ | ⟨hp, rfl⟩ | ⟨hp, -, ht⟩ := execAckWait_next h
    exacts [.waitAccepted .normal rfl hp ht,
      .waited .normal rfl hp (waitStep_case classifyNormal_classified s), .blocked hp ht]
  | ackWaitFirst =>
    obtain ⟨hp, ht⟩ | ⟨hp, rfl⟩ | ⟨hp, -, ht⟩ := execAckWaitFirst_next h
    exacts [.waitAccepted .first rfl hp ht,
      .waited .first rfl hp (waitStep_case classifyFirst_classified s), .blocked hp ht]
  | validateCmd =>
    obtain ⟨hp, rfl⟩ | ⟨hp, f, -, ht⟩ | ⟨hp, -, ht⟩ := execValidateCmd_next h
    exacts [.of_acceptInput (op := .validateCmd) hp .rfl,
      .ran .validateCmd _ rfl hp (.of_cmdVerdict f s) ht, .blocked hp ht]
  | validateAddr =>
    obtain ⟨hp, rfl⟩ | ⟨hp, f, -, ht⟩ | ⟨hp, -, ht⟩ := execValidateAddr_next h
    exacts [.of_acceptInput (op := .validateAddr) hp .rfl,
      .ran .validateAddr _ rfl hp (.of_addrVerdict f s) ht, .blocked hp ht]
  | validateData =>
    obtain ⟨hp, rfl⟩ | ⟨hp, f, -, ht⟩ | ⟨hp, -, ht⟩ := execValidateData_next h
    exacts [.of_acceptInput (op := .validateData) hp .rfl,
      .ran .validateData _ rfl hp (.of_dataVerdict f s) ht, .blocked hp ht]

end Sys2Proof.Machine

/-! PROOF. The invariant of reachable states (10_state.md R48): at reset, and kept by every step of
every agent. -/

namespace Sys2Proof.Machine

/-- The part of the invariant that speaks of neither the phase nor `rst`. -/
structure DataInv (s : State) : Prop where
  frame_le : s.frame.length ≤ Config.bufCap
  txCount_le : s.txCount ≤ s.frame.length
  diag_le : s.diag.length ≤ s.diagCap
  pdiag_le : s.pdiag.length ≤ s.diagCap
  elapsed_le : s.elapsed ≤ 65536
  dovf_iff : s.dovf = true ↔ 0 < s.diagDrop.toNat
  valid_verr : s.valid = true → s.verr = .ok
  ibuf_wf : s.ibuf.wf = true
  diagCap_range : Config.diagCapMin ≤ s.diagCap ∧ s.diagCap ≤ Config.diagCapMax

theorem StateInv.data {s : State} (h : StateInv s) : DataInv s := { h with }

/-! ## What an operation's effect keeps of the data -/

section
variable {s : State}

/-- In Idle, with `rst` 0, the invariant is the part on the data. -/
theorem DataInv.idle (h : DataInv s) (hr : s.rst = false) (hp : s.phase = .idle) : StateInv s :=
  { h with
    wait_elapsed := by simp [hp]
    wait_ackres := by simp [hp]
    send_index := by simp [hp]
    exec_len := by simp [hp]
    busy_done := by simp [hp]
    rst_block := by simp [hr] }

theorem DataInv.complete (h : DataInv s) (hr : s.rst = false) : StateInv (complete s) :=
  DataInv.idle { h with } hr rfl

theorem DataInv.finish (h : DataInv s) (hr : s.rst = false) (r : AckRes) : StateInv (finish r s) :=
  DataInv.idle { h with } hr rfl

theorem DataInv.xportFail (h : DataInv s) (hr : s.rst = false) : StateInv (xportFail s) :=
  DataInv.idle
    { frame_le := by simpa using h.frame_le
      txCount_le := by simpa using h.txCount_le
      diag_le := by simpa using h.diag_le
      pdiag_le := by simpa using h.pdiag_le
      elapsed_le := by simpa using h.elapsed_le
      dovf_iff := by simpa using h.dovf_iff
      valid_verr := by simpa using h.valid_verr
      ibuf_wf := by simpa using h.ibuf_wf
      diagCap_range := by simpa using h.diagCap_range }
    (by simpa using hr) (xportFail_phase s)

theorem DataInv.execEffect {op : ExecOp} {u : State} (h : DataInv s) (he : ExecEffect s op u)
    (hl : lenInRange op s.len.toNat) : DataInv u := by
  cases he with
  | nop => exact h
  | cksum c => exact { h with }
  | built _ f _ hf => exact { h with frame_le := hf hl, txCount_le := Nat.zero_le _ }
  | rejected _ v _ => exact { h with valid_verr := nofun }
  | checked _ ok v c _ hv => exact { h with valid_verr := hv }
  | located a c => exact { h with valid_verr := fun _ => rfl }

theorem ExecEffect.rst_eq {op : ExecOp} {u : State} (he : ExecEffect s op u) : u.rst = s.rst := by
  cases he <;> rfl

theorem DataInv.append (h : DataInv s) (b : Byte) : DataInv (append b s) := by
  obtain ⟨hd, ht⟩ | ⟨-, ht⟩ := append_cases b s <;> rw [ht]
  · exact { h with diag_le := by simpa using hd }
  · exact { h with dovf_iff := by simp [satInc_pos] }

/-! ## Shared operations -/

/-- Whatever the host, the schedule and the transport do to what is not the block's keeps the
invariant. -/
theorem StateInv.environment (h : StateInv s) (rxq : List Byte) (txReady : Bool)
    (txlog : List Byte) (xerrIn : Bool) (busRdata : Word) (program : List HostOp)
    (schedule : List AgentStep) (freeReads : Nat) :
    StateInv { s with
      rxq := rxq, txReady := txReady, txlog := txlog, xerrIn := xerrIn, busRdata := busRdata
      program := program, schedule := schedule, freeReads := freeReads } :=
  { h with rst_block := fun hr => { h.rst_block hr with } }

theorem StateInv.blockedWrite (h : StateInv s) (hr : s.rst = false) : StateInv (blockedWrite s) :=
  { h with rst_block := by simp [hr] }

theorem StateInv.acceptExec {op : ExecOp} (h : StateInv s) (hr : s.rst = false)
    (hl : lenInRange op s.len.toNat) : StateInv (acceptExec op s) :=
  { h with
    wait_elapsed := nofun
    wait_ackres := nofun
    send_index := nofun
    exec_len := by simpa using hl
    busy_done := fun _ => rfl
    rst_block := by simp [hr] }

theorem StateInv.acceptSend (h : StateInv s) (hr : s.rst = false) : StateInv (acceptSend s) :=
  { h with
    txCount_le := Nat.zero_le _
    wait_elapsed := nofun
    wait_ackres := nofun
    send_index := by simp
    exec_len := nofun
    busy_done := fun _ => rfl
    rst_block := by simp [hr] }

theorem StateInv.acceptWait (h : StateInv s) (hr : s.rst = false) (m : WaitMode) :
    StateInv (acceptWait m s) :=
  { h with
    diag_le := Nat.zero_le _
    pdiag_le := h.diag_le
    elapsed_le := Nat.zero_le _
    wait_elapsed := fun _ _ => Nat.zero_le _
    wait_ackres := fun _ _ => rfl
    dovf_iff := by simp
    send_index := nofun
    exec_len := nofun
    busy_done := fun _ => rfl
    rst_block := by simp [hr] }

theorem StateInv.emit {j : Nat} {b : Byte} (h : StateInv s) (hr : s.rst = false)
    (hp : s.phase = .send j) (hb : s.frame[j]? = some b) : StateInv (emit j b s) :=
  { h with
    txCount_le := by
      obtain ⟨hj, -⟩ := List.getElem?_eq_some_iff.mp hb
      exact hj
    wait_elapsed := nofun
    wait_ackres := nofun
    send_index := by simp
    exec_len := nofun
    busy_done := fun _ => h.busy_done (by simp [hp])
    rst_block := by simp [hr] }

theorem StateInv.consume (h : StateInv s) (rest : List Byte) : StateInv (consume rest s) :=
  h.environment ..

/-- A byte kept by a wait stays within DIAG or is counted as dropped; the wait goes on. -/
theorem StateInv.append (h : StateInv s) (hr : s.rst = false) (b : Byte) : StateInv (append b s) :=
  { h.data.append b with
    wait_elapsed := by simpa using h.wait_elapsed
    wait_ackres := by simpa using h.wait_ackres
    send_index := by simpa using h.send_index
    exec_len := by simpa using h.exec_len
    busy_done := by simpa using h.busy_done
    rst_block := by simp [hr] }

theorem StateInv.tick (h : StateInv s) (hr : s.rst = false) : StateInv (tick s) := by
  obtain ⟨m, hp, he, ht⟩ | ht := tick_cases s <;> rw [ht]
  · exact { h with
      elapsed_le := by
        have hd := s.deadline.isLt
        show s.elapsed + 1 ≤ 65536
        omega
      wait_elapsed := fun _ _ => Nat.succ_le_succ he
      rst_block := by simp [hr] }
  · exact h

theorem StateInv.clearStatus (h : StateInv s) (hr : s.rst = false) (w : Word) :
    StateInv (clearStatus w s) :=
  { h with
    busy_done := fun hp => by simp [h.busy_done hp]
    rst_block := by simp [hr] }

theorem resetBlock_atReset (s : State) : BlockAtReset (resetBlock s) :=
  ⟨rfl, rfl, rfl, rfl, rfl, rfl, rfl, rfl, rfl, rfl, rfl, fun _ => rfl, rfl, rfl, rfl, rfl, rfl,
    rfl, rfl, rfl, rfl, rfl⟩

/-- Every field at its reset value meets the invariant, if DIAG_CAP is in its range. -/
theorem resetBlock_inv (hc : Config.diagCapMin ≤ s.diagCap ∧ s.diagCap ≤ Config.diagCapMax)
    (level : Bool) : StateInv { resetBlock s with rst := level } where
  frame_le := Nat.zero_le _
  txCount_le := Nat.le_refl _
  diag_le := Nat.zero_le _
  pdiag_le := Nat.zero_le _
  elapsed_le := Nat.zero_le _
  wait_elapsed := nofun
  wait_ackres := nofun
  dovf_iff := by simp
  send_index := nofun
  exec_len := nofun
  busy_done := fun _ => rfl
  valid_verr := nofun
  ibuf_wf := Memory.wf_nil
  diagCap_range := hc
  rst_block := fun _ => { resetBlock_atReset s with }

end

/-! ## Operations -/

/-- A step of SEND keeps the invariant: it ends, sends byte `j`, or waits for the transport. -/
theorem sendStep_inv {s : State} {j : Nat} (h : StateInv s) (hr : s.rst = false)
    (hp : s.phase = .send j) : StateInv (sendStep j s) := by
  obtain ⟨-, ht⟩ | ⟨b, hb, ⟨-, ht⟩ | ⟨-, -, ht⟩ | ⟨-, -, ht⟩⟩ := sendStep_cases j s <;> rw [ht]
  exacts [h.data.complete hr, h.data.xportFail hr, h.emit hr hp hb, h]

theorem WaitCase.inv {s t : State} (h : StateInv s) (hr : s.rst = false) (hw : WaitCase s t) :
    StateInv t := by
  cases hw with
  | failed _ ht => exact ht ▸ h.data.xportFail hr
  | timedOut _ _ ht => exact ht ▸ h.data.finish hr _
  | noByte _ _ _ ht => exact ht ▸ h
  | byte b rest _ _ _ hc =>
    have hu := h.consume rest
    cases hc with
    | ended r => exact hu.data.finish hr r
    | kept => exact hu.append hr b
    | keptAndEnded r => exact (hu.data.append b).finish (by simpa using hr) r

/-- Every operation keeps the invariant, whether it is accepted, refused, run or blocked. -/
theorem exec_inv {i : Instr} {s t : State} (h : StateInv s) (hr : s.rst = false)
    (hx : exec i s = .next t) : StateInv t := by
  cases exec_next hx with
  | blocked _ ht => exact ht ▸ h.blockedWrite hr
  | lengthRefused op _ hp _ ht => exact ht ▸ DataInv.idle { h with } hr hp
  | accepted op _ _ hl ht => exact ht ▸ h.acceptExec hr hl
  | sendAccepted _ _ ht => exact ht ▸ h.acceptSend hr
  | waitAccepted m _ _ ht => exact ht ▸ h.acceptWait hr m
  | ran op u _ hp he ht =>
    exact ht ▸ (h.data.execEffect he (h.exec_len op hp)).complete (he.rst_eq.trans hr)
  | sent j _ hp ht => exact ht ▸ sendStep_inv h hr hp
  | waited m _ _ hw => exact hw.inv h hr

/-! ## Agents -/

/-- A host write keeps the invariant at every target; at an operand it stores only in Idle. -/
theorem targetWrite_inv {off : Offset} {w : Word} {s t : State} (h : StateInv s)
    (hr : s.rst = false) (hw : targetWrite (target off) w s = .next t) : StateInv t := by
  cases targetWrite_next hw with
  | command i _ _ _ hx => exact exec_inv h hr hx
  | illegal _ hp ht => exact ht ▸ DataInv.idle { h with } hr hp
  | blocked _ ht => exact ht ▸ h.blockedWrite hr
  | clear _ ht => exact ht ▸ h.clearStatus hr w
  | arg _ hp ht => exact ht ▸ DataInv.idle { h with } hr hp
  | len _ hp ht => exact ht ▸ DataInv.idle { h with } hr hp
  | deadline _ hp ht => exact ht ▸ DataInv.idle { h with } hr hp
  | cell k hk hp ht =>
    have hm := Memory.wf_write (w.extractLsb' 0 8) (target_ibuf_lt hk) h.ibuf_wf
    exact ht ▸ DataInv.idle { h with ibuf_wf := hm } hr hp
  | ignored ht => exact ht ▸ h

theorem StateInv.hostRead {s : State} (h : StateInv s) (off : Offset) :
    StateInv (hostRead off s) := h.environment ..

theorem StateInv.pollStep {s : State} (h : StateInv s) (rest : List HostOp) :
    StateInv (pollStep rest s) := by
  obtain ht | ht := pollStep_cases rest s <;> rw [ht]
  exacts [h.hostRead _, (h.hostRead _).environment ..]

theorem StateInv.program {s : State} (h : StateInv s) (p : List HostOp) :
    StateInv { s with program := p } := h.environment ..

theorem StateInv.transportStep {s : State} (h : StateInv s) (ts : TransportStep) :
    StateInv (transportStep ts s) := by
  cases ts <;> exact h.environment ..

theorem hostStep_inv {s t : State} (h : StateInv s) (hr : s.rst = false)
    (hs : hostStep s = .next t) : StateInv t := by
  obtain ⟨-, rfl⟩ | ⟨off, p, -, rfl⟩ | ⟨off, w, p, -, hw⟩ | ⟨p, -, rfl⟩ := hostStep_next hs
  · exact h
  · exact (h.program p).hostRead off
  · exact targetWrite_inv (h.program p) hr hw
  · exact h.pollStep p

theorem hostStepInReset_inv {s : State} (h : StateInv s) : StateInv (hostStepInReset s) := by
  unfold hostStepInReset
  split
  · exact h
  · exact (h.program _).hostRead _
  · exact h.program _
  · exact h.pollStep _

/-- Every agent's step while `rst` is 1 starts from the block at its reset values. -/
theorem stepInReset_inv {s : State} (h : StateInv s) (a : AgentStep) :
    StateInv (stepInReset a s) := by
  have hb : StateInv (resetBlock s) := resetBlock_inv h.diagCap_range s.rst
  cases a with
  | host => exact hostStepInReset_inv hb
  | sequencer => exact hb
  | transport ts => exact hb.transportStep ts
  | time => exact hb
  | reset level => exact resetBlock_inv h.diagCap_range level

theorem stepRunning_inv {a : AgentStep} {s t : State} (h : StateInv s) (hr : s.rst = false)
    (hs : stepRunning a s = .next t) : StateInv t := by
  cases a with
  | host => exact hostStep_inv h hr hs
  | sequencer =>
    obtain ⟨-, rfl⟩ | ⟨i, -, hx⟩ := sequencerStep_next hs
    exacts [h, exec_inv h hr hx]
  | transport ts => cases hs; exact h.transportStep ts
  | time => cases hs; exact h.tick hr
  | reset level =>
    cases hs
    cases level
    exacts [h, resetBlock_inv h.diagCap_range true]

/-! ## The obligations -/

/-- Settles O3: the reset state is a block at its reset values with the default DIAG_CAP. -/
theorem invariantHoldsAtReset : Obligations.InvariantHoldsAtReset :=
  resetBlock_inv (s := State.reset) (by decide) false

/-- Settles O4: the schedule is empty, or its first agent keeps the invariant, in reset or not. -/
theorem everyStepKeepsTheInvariant : Obligations.EveryStepKeepsTheInvariant := by
  intro s t h hs
  obtain ⟨-, rfl⟩ | ⟨a, rest, -, ha⟩ := step_next hs
  · exact h
  · have hu : StateInv { s with schedule := rest } := h.environment ..
    obtain ⟨-, rfl⟩ | ⟨hr, hn⟩ := agentStep_next ha
    exacts [stepInReset_inv hu a, stepRunning_inv hu hr hn]

end Sys2Proof.Machine

/-! PROOF. What every operation leaves as it is: the operand registers (10_state.md R38) and the results
of other operations (10_state.md R50, 43_frame_validate.md R250, 44_ack_detect.md R304). -/

namespace Sys2Proof.Machine

/-- A step of SEND writes TX_COUNT, the TX stream, XERR, DONE and the phase. -/
theorem sendStep_frame (j : Nat) (s : State) :
    (sendStep j s).arg = s.arg ∧ (sendStep j s).len = s.len ∧
    (sendStep j s).deadline = s.deadline ∧ (sendStep j s).csum = s.csum ∧
    (sendStep j s).frame = s.frame ∧ (sendStep j s).diag = s.diag ∧
    (sendStep j s).pdiag = s.pdiag ∧ (sendStep j s).diagDrop = s.diagDrop ∧
    (sendStep j s).elapsed = s.elapsed ∧ (sendStep j s).vaddr = s.vaddr ∧
    (sendStep j s).valid = s.valid ∧ (sendStep j s).verr = s.verr ∧
    (sendStep j s).illop = s.illop ∧ (sendStep j s).lenerr = s.lenerr ∧
    (sendStep j s).dovf = s.dovf ∧ (sendStep j s).rxq = s.rxq := by
  obtain ⟨-, h⟩ | ⟨_, -, ⟨-, h⟩ | ⟨-, -, h⟩ | ⟨-, -, h⟩⟩ := sendStep_cases j s <;> simp [h]

/-- Outside a wait a failing transport is no answer (60_exceptions.md R334). -/
theorem xportFail_ackres_send {s : State} {j : Nat} (hp : s.phase = .send j) :
    (xportFail s).ackres = s.ackres := by
  simp [xportFail, hp]

theorem sendStep_ackres {s : State} {j : Nat} (hp : s.phase = .send j) :
    (sendStep j s).ackres = s.ackres := by
  obtain ⟨-, h⟩ | ⟨_, -, ⟨-, h⟩ | ⟨-, -, h⟩ | ⟨-, -, h⟩⟩ := sendStep_cases j s <;>
    simp [h, xportFail_ackres_send hp]

/-- A wait step writes ACKRES, DIAG, DIAG_DROP, DOVF, XERR, DONE, the phase and `rxq`. -/
theorem WaitCase.frame {s t : State} (h : WaitCase s t) :
    t.arg = s.arg ∧ t.len = s.len ∧ t.deadline = s.deadline ∧ t.csum = s.csum ∧
    t.frame = s.frame ∧ t.txCount = s.txCount ∧ t.elapsed = s.elapsed ∧ t.vaddr = s.vaddr ∧
    t.valid = s.valid ∧ t.verr = s.verr ∧ t.illop = s.illop ∧ t.lenerr = s.lenerr ∧
    t.txlog = s.txlog := by
  cases h with
  | failed _ ht => simp [ht]
  | timedOut _ _ ht => simp [ht]
  | noByte _ _ _ ht => simp [ht]
  | byte b rest _ _ _ hc => cases hc <;> simp

/-- Settles O49: the operand registers are no result of any case of an operation. -/
theorem operationsNeverWriteTheOperandRegisters :
    Obligations.OperationsNeverWriteTheOperandRegisters := by
  intro i s t h
  cases exec_next h with
  | blocked _ ht => simp [ht]
  | lengthRefused _ _ _ _ ht => simp [ht]
  | accepted _ _ _ _ ht => simp [ht]
  | sendAccepted _ _ ht => simp [ht]
  | waitAccepted _ _ _ ht => simp [ht]
  | ran _ _ _ _ he ht => cases he <;> simp [ht]
  | sent j _ _ ht => simp [ht, sendStep_frame j s]
  | waited _ _ _ hw => simp [hw.frame]

/-- Only an operation with a range of LEN is refused for its LEN (40_host_access.md R160). -/
theorem instr_of_not_lenInRange {op : ExecOp} {n : Nat} (h : ¬ lenInRange op n) :
    op.instr = .cksum ∨ op.instr = .buildData ∨ op.instr = .validateCmd ∨
      op.instr = .validateAddr ∨ op.instr = .validateData := by
  cases op <;> simp_all [lenInRange, ExecOp.instr]

/-- Settles O51: each case of an operation writes only the results named for it. -/
theorem eachResultIsWrittenOnlyByItsOperations :
    Obligations.EachResultIsWrittenOnlyByItsOperations := by
  intro i s t h
  cases exec_next h with
  | blocked _ ht => simp [ht]
  | lengthRefused op hi _ hl ht =>
    subst hi ht
    obtain h | h | h | h | h := instr_of_not_lenInRange hl <;> simp [h]
  | accepted _ _ _ _ ht => simp [ht]
  | sendAccepted hi _ ht => simp [hi, ht]
  | waitAccepted m hi _ ht =>
    subst hi ht
    cases m <;> simp [WaitMode.instr]
  | ran op u hi _ he ht =>
    subst hi ht
    cases he with
    | nop => simp
    | cksum c => simp [ExecOp.instr]
    | built _ f ho _ => obtain rfl | rfl | rfl | rfl := ho <;> simp [ExecOp.instr]
    | rejected _ v ho => obtain rfl | rfl | rfl := ho <;> simp [ExecOp.instr]
    | checked _ ok v c ho _ => obtain rfl | rfl | rfl := ho <;> simp [ExecOp.instr]
    | located a c => simp [ExecOp.instr]
  | sent j hi hp ht => simp [hi, ht, sendStep_frame j s, sendStep_ackres hp]
  | waited m hi _ hw =>
    subst hi
    cases m <;> simp [WaitMode.instr, hw.frame]

end Sys2Proof.Machine

/-! PROOF. The bound `ELAPSED ≤ DEADLINE + 1` of 10_state.md R48: what breaks it and what restores it
(log entry 12). -/

namespace Sys2Proof.Machine

/-! ## Operations -/

/-- No operation but a wait's acceptance changes ELAPSED, and that clears it
(44_ack_detect.md R282). -/
theorem exec_elapsed {i : Instr} {s t : State} (h : exec i s = .next t) :
    t.elapsed = s.elapsed ∨ t.elapsed = 0 := by
  cases exec_next h with
  | blocked _ ht => exact .inl (by simp [ht])
  | lengthRefused _ _ _ _ ht => exact .inl (by simp [ht])
  | accepted _ _ _ _ ht => exact .inl (by simp [ht])
  | sendAccepted _ _ ht => exact .inl (by simp [ht])
  | waitAccepted _ _ _ ht => exact .inr (by simp [ht])
  | ran _ _ _ _ he ht => exact .inl (by cases he <;> simp [ht])
  | sent j _ _ ht => exact .inl (by simp [ht, sendStep_frame j s])
  | waited _ _ _ hw => exact .inl (by simp [hw.frame])

theorem exec_elapsed_le {i : Instr} {s t : State} (h : exec i s = .next t)
    (hb : s.elapsed ≤ s.deadline.toNat + 1) : t.elapsed ≤ t.deadline.toNat + 1 := by
  obtain ⟨-, -, hd⟩ := operationsNeverWriteTheOperandRegisters i s t h
  rw [hd]
  obtain he | he := exec_elapsed h <;> omega

theorem exec_wait_idle {m : WaitMode} {s : State} (hp : s.phase = .idle) :
    exec m.instr s = .next (acceptWait m s) := by
  cases m <;> simp [WaitMode.instr, exec, execAckWait, execAckWaitFirst, hp]

/-! ## Agents -/

/-- A host write keeps the bound, but for one to DEADLINE in Idle of a value too small. -/
theorem targetWrite_elapsed_le {tg : Target} {w : Word} {s t : State}
    (h : targetWrite tg w s = .next t) (hb : s.elapsed ≤ s.deadline.toNat + 1) :
    t.elapsed ≤ t.deadline.toNat + 1 ∨
      (tg = .reg .deadline ∧ s.phase = .idle ∧ t.elapsed = s.elapsed ∧
        (w.extractLsb' 0 16).toNat + 1 < s.elapsed) := by
  cases targetWrite_next h with
  | command i _ _ _ hx => exact .inl (exec_elapsed_le hx hb)
  | illegal _ _ ht => exact .inl (by simpa [ht] using hb)
  | blocked _ ht => exact .inl (by simpa [ht] using hb)
  | clear _ ht => exact .inl (by simpa [ht] using hb)
  | arg _ _ ht => exact .inl (by simpa [ht] using hb)
  | len _ _ ht => exact .inl (by simpa [ht] using hb)
  | deadline htg hp ht =>
    have he : t.elapsed = s.elapsed := by simp [ht]
    have hd : t.deadline = w.extractLsb' 0 16 := by simp [ht]
    rw [he, hd]
    exact (le_or_gt s.elapsed _).imp_right fun hlt => ⟨htg, hp, rfl, hlt⟩
  | cell _ _ _ ht => exact .inl (by simpa [ht] using hb)
  | ignored ht => exact .inl (by simpa [ht] using hb)

@[simp] theorem pollStep_elapsed (rest : List HostOp) (s : State) :
    (pollStep rest s).elapsed = s.elapsed := by
  obtain h | h := pollStep_cases rest s <;> simp [h]

@[simp] theorem pollStep_deadline (rest : List HostOp) (s : State) :
    (pollStep rest s).deadline = s.deadline := by
  obtain h | h := pollStep_cases rest s <;> simp [h]

/-- ELAPSED is 0 while `rst` is 1 (70_reset_and_hazards.md R370). -/
theorem stepInReset_elapsed (a : AgentStep) (s : State) : (stepInReset a s).elapsed = 0 := by
  cases a with
  | host =>
    show (hostStepInReset (resetBlock s)).elapsed = 0
    unfold hostStepInReset
    split <;> simp
  | transport ts => cases ts <;> rfl
  | sequencer | time | reset level => rfl

theorem tick_elapsed_le {s : State} (hb : s.elapsed ≤ s.deadline.toNat + 1) :
    (tick s).elapsed ≤ (tick s).deadline.toNat + 1 := by
  obtain ⟨_, -, he, ht⟩ | ht := tick_cases s <;> rw [ht]
  · exact Nat.succ_le_succ he
  · exact hb

/-- The Host's step keeps the bound, but for a write to DEADLINE in Idle of a value too small. -/
theorem hostStep_elapsed_le {s t : State} (h : hostStep s = .next t)
    (hb : s.elapsed ≤ s.deadline.toNat + 1) :
    t.elapsed ≤ t.deadline.toNat + 1 ∨
      ∃ off w p, s.phase = .idle ∧ s.program = .write off w :: p ∧
        target off = .reg .deadline ∧ t.elapsed = s.elapsed ∧
        (w.extractLsb' 0 16).toNat + 1 < s.elapsed := by
  obtain ⟨-, rfl⟩ | ⟨off, p, -, rfl⟩ | ⟨off, w, p, hprog, hw⟩ | ⟨p, -, rfl⟩ := hostStep_next h
  · exact .inl hb
  · exact .inl hb
  · exact (targetWrite_elapsed_le hw hb).imp_right fun ⟨htg, hp, he, hlt⟩ =>
      ⟨off, w, p, hp, hprog, htg, he, hlt⟩
  · exact .inl (by simpa using hb)

/-! ## The obligations -/

/-- Settles O6: of the agents only the Host can break the bound, and only by that write; a wait is
accepted with ELAPSED 0. -/
theorem onlyADeadlineWriteBreaksTheElapsedBound :
    Obligations.OnlyADeadlineWriteBreaksTheElapsedBound := by
  refine ⟨fun s t h hb => ?_, fun i s t hi hp h => ?_⟩
  · obtain ⟨-, rfl⟩ | ⟨a, rest, hs, ha⟩ := step_next h
    · exact .inl hb
    obtain ⟨-, rfl⟩ | ⟨hr, hn⟩ := agentStep_next ha
    · exact .inl (by simp [stepInReset_elapsed])
    cases a with
    | host =>
      exact (hostStep_elapsed_le hn hb).imp_right fun ⟨off, w, p, hp, hprog, htg, he, hlt⟩ =>
        ⟨rest, off, w, p, hr, hp, hs, hprog, htg, he, hlt⟩
    | sequencer =>
      obtain ⟨-, rfl⟩ | ⟨i, -, hx⟩ := sequencerStep_next hn
      exacts [.inl hb, .inl (exec_elapsed_le hx hb)]
    | transport ts => cases hn; exact .inl (by cases ts <;> exact hb)
    | time => cases hn; exact .inl (tick_elapsed_le hb)
    | reset level => cases hn; exact .inl (by cases level; exacts [hb, Nat.zero_le _])
  · obtain ⟨m, rfl⟩ : ∃ m : WaitMode, i = m.instr := hi.elim (⟨.normal, ·⟩) (⟨.first, ·⟩)
    rw [exec_wait_idle hp] at h
    cases h
    exact Nat.zero_le _

/-- Idle after a wait that timed out at ELAPSED = 2 with DEADLINE = 1, the host about to write 0 to
DEADLINE. -/
def loweringDeadline : State :=
  { State.reset with
    ackres := .timedOut, elapsed := 2, deadline := 1, done := true
    program := [.write 0x010 0], schedule := [.host] }

theorem loweringDeadline_inv : StateInv loweringDeadline :=
  DataInv.idle { invariantHoldsAtReset.data with elapsed_le := by decide } rfl rfl

/-- Settles O5: after that write ELAPSED is 2 with DEADLINE 0. -/
theorem deadlineWriteCanBreakTheElapsedBound : Obligations.DeadlineWriteCanBreakTheElapsedBound :=
  ⟨loweringDeadline, _, 0, [], [], loweringDeadline_inv, rfl, rfl, by decide, rfl, rfl, by decide,
    rfl, by decide⟩

end Sys2Proof.Machine

/-! PROOF. What one step does, agent by agent, while `rst` is 0 (10_state.md R37, R46). -/

namespace Sys2Proof.Machine

/-- With `rst` 0 the scheduled agent acts, and the schedule moves on. -/
theorem step_running {s : State} {a : AgentStep} {rest : List AgentStep} (hr : s.rst = false)
    (hs : s.schedule = a :: rest) : step s = stepRunning a { s with schedule := rest } := by
  rw [step_cons hs]
  simp [agentStep, hr]

/-! ## The Host -/

theorem hostStep_write {s : State} {off : Offset} {w : Word} {p : List HostOp}
    (hp : s.program = .write off w :: p) :
    hostStep s = hostWrite off w { s with program := p } := by
  simp [hostStep, hp]

/-- A legal command word in Idle runs its operation (40_host_access.md R160). -/
theorem hostWrite_command {s : State} {off : Offset} {w : Word} {i : Instr}
    (ht : target off = .reg .cmd) (hp : s.phase = .idle) (hd : decode w = .ok i) :
    hostWrite off w s = exec i s := by
  simp [hostWrite, ht, targetWrite, regWrite, issueCommand, hp, hd]

/-- Settles O11: a Host step is the write, and a write to CMD is the command. -/
theorem stepIssuesTheWrittenCommand : Obligations.StepIssuesTheWrittenCommand := by
  have hwrite : ∀ s off w p rest, s.rst = false → s.schedule = .host :: rest →
      s.program = .write off w :: p →
      step s = hostWrite off w { s with schedule := rest, program := p } :=
    fun s off w p rest hr hs hprog => (step_running hr hs).trans (hostStep_write hprog)
  refine ⟨hwrite, fun s off w i p rest hr hp hs hprog ho hd => ?_⟩
  have ht : target off = .reg .cmd := by rw [← target_align, ho]; rfl
  rw [hwrite s off w p rest hr hs hprog]
  exact hostWrite_command ht hp hd

/-! ## The Sequencer -/

/-- Settles O12: the Sequencer runs the operation that the phase names. -/
theorem stepRunsTheRunningOperation : Obligations.StepRunsTheRunningOperation :=
  ⟨fun _ _ _ hr hs hp => step_sequencer hr hs (by rw [hp]; rfl),
    fun _ _ _ hr hs hp => step_sequencer hr hs (by rw [hp]; rfl),
    fun _ _ hr hs hp => step_sequencer hr hs (by rw [hp]; rfl),
    fun _ _ hr hs hp => step_sequencer hr hs (by rw [hp]; rfl),
    fun _ _ hr hs hp => by
      rw [step_running hr hs]
      simp [stepRunning, sequencerStep, hp, running]⟩

/-! ## Time -/

theorem tick_counts {s : State} {m : WaitMode} (hp : s.phase = .wait m)
    (he : s.elapsed ≤ s.deadline.toNat) : tick s = { s with elapsed := s.elapsed + 1 } := by
  simp [tick, hp, deadlineOperand, he]

theorem tick_past_deadline {s : State} {m : WaitMode} (hp : s.phase = .wait m)
    (he : s.deadline.toNat < s.elapsed) : tick s = s := by
  simp [tick, hp, deadlineOperand, Nat.not_le_of_lt he]

theorem tick_outside_wait {s : State} (hp : ∀ m, s.phase ≠ .wait m) : tick s = s := by
  obtain ⟨m, hm, -⟩ | h := tick_cases s
  · exact absurd hm (hp m)
  · exact h

/-- Settles O13: the step is the tick, which counts, has stopped, or does not count. -/
theorem tickCountsOnlyInWait : Obligations.TickCountsOnlyInWait := by
  have htick : ∀ s rest, s.rst = false → s.schedule = .time :: rest →
      step s = .next (tick { s with schedule := rest }) :=
    fun s rest hr hs => step_running hr hs
  refine ⟨fun s m rest hr hs hp he => ?_, fun s m rest hr hs hp he => ?_,
    fun s rest hr hs hp => ?_⟩ <;> rw [htick s rest hr hs]
  · rw [tick_counts (s := { s with schedule := rest }) hp he]
  · rw [tick_past_deadline (s := { s with schedule := rest }) hp he]
  · rw [tick_outside_wait (s := { s with schedule := rest }) hp]

/-! ## The Transport -/

/-- Settles O54: the step is `transportStep`, whose three cases are the three signals. -/
theorem transportStepsChangeOnlyTheirOwnSignal :
    Obligations.TransportStepsChangeOnlyTheirOwnSignal :=
  ⟨fun _ _ _ hr hs => step_running hr hs, fun _ _ _ hr hs => step_running hr hs,
    fun _ _ _ hr hs => step_running hr hs⟩

end Sys2Proof.Machine

/-! PROOF. The ports (10_state.md R32 to R36): a byte moves in a Sequencer step exactly by the
handshake. -/

namespace Sys2Proof.Machine

/-! ## The levels of the ports -/

theorem txValid_eq_true_iff {s : State} :
    txValid s = true ↔ s.xerrIn = false ∧ ∃ j, s.phase = .send j ∧ j < s.frame.length := by
  cases hp : s.phase <;> simp [txValid, hp, and_comm]

theorem txData_send {s : State} {j : Nat} (hp : s.phase = .send j) : txData s = s.frame[j]? := by
  simp [txData, hp]

theorem rxReady_eq_true_iff {s : State} :
    rxReady s = true ↔
      s.xerrIn = false ∧ s.elapsed ≤ s.deadline.toNat ∧ ∃ m, s.phase = .wait m := by
  show _ ↔ _ ∧ s.elapsed ≤ deadlineOperand s ∧ _
  cases hp : s.phase <;> simp [rxReady, hp]

theorem rxValid_cons {s : State} {b : Byte} {rest : List Byte} (hq : s.rxq = b :: rest) :
    rxValid s = true := by
  simp [rxValid, hq]

theorem rxData_cons {s : State} {b : Byte} {rest : List Byte} (hq : s.rxq = b :: rest) :
    rxData s = some b := by
  simp [rxData, hq]

/-! ## Only by the handshake -/

/-- A step of SEND leaves the TX stream, or appends byte `j` by the handshake
(42_frame_build.md R230). -/
theorem sendStep_txlog (j : Nat) (s : State) :
    (sendStep j s).txlog = s.txlog ∨
      ∃ b, s.frame[j]? = some b ∧ s.xerrIn = false ∧ s.txReady = true ∧
        (sendStep j s).txlog = s.txlog ++ [b] := by
  obtain ⟨-, h⟩ | ⟨b, hb, ⟨-, h⟩ | ⟨hx, hr, h⟩ | ⟨-, -, h⟩⟩ := sendStep_cases j s <;> rw [h]
  · exact .inl rfl
  · exact .inl (xportFail_txlog s)
  · exact .inr ⟨b, hb, hx, hr, rfl⟩
  · exact .inl rfl

/-- No operation but SEND changes the TX stream. -/
theorem exec_txlog {i : Instr} {s t : State} (h : exec i s = .next t) :
    t.txlog = s.txlog ∨
      ∃ j b, s.phase = .send j ∧ s.frame[j]? = some b ∧ s.xerrIn = false ∧ s.txReady = true ∧
        t.txlog = s.txlog ++ [b] := by
  cases exec_next h with
  | blocked _ ht => exact .inl (by simp [ht])
  | lengthRefused _ _ _ _ ht => exact .inl (by simp [ht])
  | accepted _ _ _ _ ht => exact .inl (by simp [ht])
  | sendAccepted _ _ ht => exact .inl (by simp [ht])
  | waitAccepted _ _ _ ht => exact .inl (by simp [ht])
  | ran _ _ _ _ he ht => exact .inl (by cases he <;> simp [ht])
  | sent j _ hp ht =>
    rw [ht]
    exact (sendStep_txlog j s).imp_right fun ⟨b, hb, hx, hr, hl⟩ => ⟨j, b, hp, hb, hx, hr, hl⟩
  | waited _ _ _ hw => exact .inl (by simp [hw.frame])

theorem Classified.rxq_eq {b : Byte} {s t : State} (h : Classified b s t) : t.rxq = s.rxq := by
  cases h <;> simp

/-- A wait step leaves `rxq`, or takes its front byte in time (44_ack_detect.md R286). -/
theorem WaitCase.rxq {s t : State} (h : WaitCase s t) :
    t.rxq = s.rxq ∨
      ∃ b, s.xerrIn = false ∧ s.elapsed ≤ s.deadline.toNat ∧ s.rxq = b :: t.rxq := by
  cases h with
  | failed _ ht => exact .inl (by simp [ht])
  | timedOut _ _ ht => exact .inl (by simp [ht])
  | noByte _ _ _ ht => exact .inl (by simp [ht])
  | byte b rest hx he hq hc => exact .inr ⟨b, hx, he, by simpa [hc.rxq_eq] using hq⟩

/-- No operation but a running wait changes `rxq`. -/
theorem exec_rxq {i : Instr} {s t : State} (h : exec i s = .next t) :
    t.rxq = s.rxq ∨
      ∃ m b, s.phase = .wait m ∧ s.xerrIn = false ∧ s.elapsed ≤ s.deadline.toNat ∧
        s.rxq = b :: t.rxq := by
  cases exec_next h with
  | blocked _ ht => exact .inl (by simp [ht])
  | lengthRefused _ _ _ _ ht => exact .inl (by simp [ht])
  | accepted _ _ _ _ ht => exact .inl (by simp [ht])
  | sendAccepted _ _ ht => exact .inl (by simp [ht])
  | waitAccepted _ _ _ ht => exact .inl (by simp [ht])
  | ran _ _ _ _ he ht => exact .inl (by cases he <;> simp [ht])
  | sent j _ _ ht => exact .inl (by simp [ht, sendStep_frame j s])
  | waited m _ hp hw => exact hw.rxq.imp_right fun ⟨b, hx, he, hq⟩ => ⟨m, b, hp, hx, he, hq⟩

/-! ## Always by the handshake -/

theorem exec_send {s : State} {j : Nat} (hp : s.phase = .send j) :
    exec .send s = .next (sendStep j s) := by
  simp [exec, execSend, hp]

theorem sendStep_ready {s : State} {j : Nat} {b : Byte} (hb : s.frame[j]? = some b)
    (hx : s.xerrIn = false) (hr : s.txReady = true) : sendStep j s = emit j b s := by
  simp [sendStep, hb, hx, hr]

/-- The step of a running wait always answers, in one of the wait's cases. -/
theorem exec_wait {s : State} {m : WaitMode} (hp : s.phase = .wait m) :
    ∃ t, exec m.instr s = .next t ∧ WaitCase s t := by
  cases m with
  | normal =>
    exact ⟨_, by simp [WaitMode.instr, exec, execAckWait, hp],
      waitStep_case classifyNormal_classified s⟩
  | first =>
    exact ⟨_, by simp [WaitMode.instr, exec, execAckWaitFirst, hp],
      waitStep_case classifyFirst_classified s⟩

theorem step_send {s : State} {j : Nat} {rest : List AgentStep} (hr : s.rst = false)
    (hs : s.schedule = .sequencer :: rest) (hp : s.phase = .send j) :
    step s = .next (sendStep j { s with schedule := rest }) := by
  rw [step_sequencer (i := .send) hr hs (by rw [hp]; rfl)]
  exact exec_send hp

theorem step_wait {s : State} {m : WaitMode} {rest : List AgentStep} (hr : s.rst = false)
    (hs : s.schedule = .sequencer :: rest) (hp : s.phase = .wait m) :
    ∃ t, step s = .next t ∧ WaitCase { s with schedule := rest } t := by
  rw [step_sequencer hr hs (by rw [hp]; exact running_wait m)]
  exact exec_wait hp

/-- In time, with the transport working and a byte offered, a wait step takes it. -/
theorem WaitCase.takes {s t : State} {b : Byte} {q : List Byte} (h : WaitCase s t)
    (hx : s.xerrIn = false) (he : s.elapsed ≤ s.deadline.toNat) (hq : s.rxq = b :: q) :
    t.rxq = q := by
  cases h with
  | failed hx' _ => simp [hx] at hx'
  | timedOut _ he' _ => omega
  | noByte _ _ hq' _ => simp [hq] at hq'
  | byte b' q' _ _ hq' hc =>
    obtain ⟨-, rfl⟩ : b = b' ∧ q = q' := by simpa [hq] using hq'
    exact hc.rxq_eq

/-- Settles O55: the levels of the ports, that no byte moves without the handshake, and that with it
one does. -/
theorem bytesMoveOnlyByTheHandshake : Obligations.BytesMoveOnlyByTheHandshake := by
  refine ⟨fun s => txValid_eq_true_iff, fun s j => txData_send, fun s => rxReady_eq_true_iff,
    fun i s t h => ⟨fun hne => ?_, fun hne => ?_⟩, fun s rest hr hs hv hready => ?_,
    fun s rest hr hs hready hv => ?_⟩
  · obtain ⟨j, b, hp, hb, hx, hready, ht⟩ := (exec_txlog h).resolve_left hne
    obtain ⟨hj, -⟩ := List.getElem?_eq_some_iff.mp hb
    exact ⟨txValid_eq_true_iff.mpr ⟨hx, j, hp, hj⟩, hready, b, (txData_send hp).trans hb, ht⟩
  · obtain ⟨m, b, hp, hx, he, hq⟩ := (exec_rxq h).resolve_left hne
    exact ⟨rxReady_eq_true_iff.mpr ⟨hx, he, m, hp⟩, rxValid_cons hq, b, rxData_cons hq, hq⟩
  · obtain ⟨hx, j, hp, hj⟩ := txValid_eq_true_iff.mp hv
    have hb : s.frame[j]? = some s.frame[j] := List.getElem?_eq_getElem hj
    refine ⟨s.frame[j], _, (txData_send hp).trans hb, step_send hr hs hp, ?_⟩
    rw [sendStep_ready (s := { s with schedule := rest }) hb hx hready, emit_txlog]
  · obtain ⟨hx, he, m, hp⟩ := rxReady_eq_true_iff.mp hready
    obtain ⟨b, q, hq⟩ := List.exists_cons_of_ne_nil (of_decide_eq_true hv)
    obtain ⟨t, ht, hw⟩ := step_wait hr hs hp
    exact ⟨b, t, rxData_cons hq, ht, by rw [hw.takes hx he hq, hq]⟩

end Sys2Proof.Machine

/-! PROOF. The level of `xport_err` is sampled only by the Sequencer in Send and in a wait
(10_state.md R35): every other step commutes with driving that level. -/

namespace Sys2Proof.Machine

/-- `s` with `xport_err` at this level. -/
def driveXportErr (level : Bool) (s : State) : State := { s with xerrIn := level }

section
variable (level : Bool) (s : State)

@[simp] theorem driveXportErr_len : (driveXportErr level s).len = s.len := rfl
@[simp] theorem driveXportErr_ibuf : (driveXportErr level s).ibuf = s.ibuf := rfl
@[simp] theorem driveXportErr_phase : (driveXportErr level s).phase = s.phase := rfl
@[simp] theorem driveXportErr_rst : (driveXportErr level s).rst = s.rst := rfl
@[simp] theorem driveXportErr_busRdata : (driveXportErr level s).busRdata = s.busRdata := rfl
@[simp] theorem driveXportErr_program : (driveXportErr level s).program = s.program := rfl

end

/-- The outcome with `f` applied to the state a step answers. -/
def mapNext (f : State → State) : Result → Result
  | .next s => .next (f s)
  | .fault r => .fault r
  | .refused r => .refused r

/-- `g` does the same whatever the level of `xport_err`. -/
def IgnoresXportErr (g : State → Result) : Prop :=
  ∀ level s, g (driveXportErr level s) = mapNext (driveXportErr level) (g s)

/-! ## Operations -/

theorem oneStep_ignoresXportErr {op : ExecOp} {accept : State → State} {effect : State → Result}
    (ha : ∀ level s, accept (driveXportErr level s) = driveXportErr level (accept s))
    (he : IgnoresXportErr effect) : IgnoresXportErr (oneStep op accept effect) := by
  intro level s
  unfold oneStep
  rw [driveXportErr_phase]
  split
  · rw [ha]; rfl
  · split
    · exact he level s
    · rfl
  · rfl
  · rfl

theorem acceptInput_driveXportErr (op : ExecOp) (level : Bool) (s : State) :
    acceptInput op (driveXportErr level s) = driveXportErr level (acceptInput op s) :=
  (apply_ite (driveXportErr level) (s.len.toNat > Config.bufCap) (refuseLength s)
    (acceptExec op s)).symm

theorem acceptPayload_driveXportErr (op : ExecOp) (level : Bool) (s : State) :
    acceptPayload op (driveXportErr level s) = driveXportErr level (acceptPayload op s) :=
  (apply_ite (driveXportErr level) (s.len.toNat = 0 ∨ s.len.toNat > Config.payloadMax)
    (refuseLength s) (acceptExec op s)).symm

/-- An Exec step on IBUF[0..LEN] ignores the level if what it does with the bytes does. -/
theorem withInput_ignoresXportErr {f : List Byte → State → State}
    (hf : ∀ bs level s, f bs (driveXportErr level s) = driveXportErr level (f bs s)) :
    IgnoresXportErr fun s => withInput s 0 (countOperand s) fun bs => .next (complete (f bs s)) := by
  intro level s
  simp only [withInput, countOperand, driveXportErr_ibuf, driveXportErr_len, hf]
  cases s.ibuf.readRange 0 s.len.toNat <;> rfl

theorem checkVerdict_driveXportErr (got c : Byte) (level : Bool) (s : State) :
    checkVerdict got c (driveXportErr level s) = driveXportErr level (checkVerdict got c s) := by
  unfold checkVerdict
  split <;> rfl

theorem checkAddrVerdict_driveXportErr (bs : List Byte) (got : Byte) (level : Bool) (s : State) :
    checkAddrVerdict bs got (driveXportErr level s) =
      driveXportErr level (checkAddrVerdict bs got s) := by
  unfold checkAddrVerdict
  split <;> rfl

theorem cmdVerdict_driveXportErr (f : List Byte) (level : Bool) (s : State) :
    cmdVerdict f (driveXportErr level s) = driveXportErr level (cmdVerdict f s) := by
  unfold cmdVerdict
  split
  · exact checkVerdict_driveXportErr _ _ level (setCsum _ s)
  · rfl

theorem addrVerdict_driveXportErr (f : List Byte) (level : Bool) (s : State) :
    addrVerdict f (driveXportErr level s) = driveXportErr level (addrVerdict f s) := by
  unfold addrVerdict
  split
  · exact checkAddrVerdict_driveXportErr _ _ level (setCsum _ s)
  · rfl

theorem dataVerdict_driveXportErr (f : List Byte) (level : Bool) (s : State) :
    dataVerdict f (driveXportErr level s) = driveXportErr level (dataVerdict f s) := by
  unfold dataVerdict
  split
  · rfl
  · split
    · rfl
    · exact checkVerdict_driveXportErr _ _ level (setCsum _ s)

/-- An operation samples the level only in Send and in a wait. -/
theorem exec_driveXportErr {s : State} (hs : ∀ j, s.phase ≠ .send j) (hw : ∀ m, s.phase ≠ .wait m)
    (i : Instr) (level : Bool) :
    exec i (driveXportErr level s) = mapNext (driveXportErr level) (exec i s) := by
  cases i with
  | nop =>
    exact oneStep_ignoresXportErr (effect := fun s => .next (complete s)) (fun _ _ => rfl)
      (fun _ _ => rfl) level s
  | cksum =>
    exact oneStep_ignoresXportErr (acceptInput_driveXportErr _)
      (withInput_ignoresXportErr fun _ _ _ => rfl) level s
  | buildCmd => exact oneStep_ignoresXportErr (fun _ _ => rfl) (fun _ _ => rfl) level s
  | buildAddr => exact oneStep_ignoresXportErr (fun _ _ => rfl) (fun _ _ => rfl) level s
  | buildData =>
    exact oneStep_ignoresXportErr (acceptPayload_driveXportErr _)
      (withInput_ignoresXportErr fun _ _ _ => rfl) level s
  | buildSync => exact oneStep_ignoresXportErr (fun _ _ => rfl) (fun _ _ => rfl) level s
  | send | ackWait | ackWaitFirst =>
    simp only [exec, execSend, execAckWait, execAckWaitFirst, driveXportErr_phase]
    cases h : s.phase with
    | idle => rfl
    | exec op => rfl
    | send j => exact absurd h (hs j)
    | wait m => exact absurd h (hw m)
  | validateCmd =>
    exact oneStep_ignoresXportErr (acceptInput_driveXportErr _)
      (withInput_ignoresXportErr cmdVerdict_driveXportErr) level s
  | validateAddr =>
    exact oneStep_ignoresXportErr (acceptInput_driveXportErr _)
      (withInput_ignoresXportErr addrVerdict_driveXportErr) level s
  | validateData =>
    exact oneStep_ignoresXportErr (acceptInput_driveXportErr _)
      (withInput_ignoresXportErr dataVerdict_driveXportErr) level s

/-! ## Agents -/

theorem issueCommand_ignoresXportErr (w : Word) : IgnoresXportErr (issueCommand w) := by
  intro level s
  unfold issueCommand
  rw [driveXportErr_phase]
  split
  · rename_i hi
    split
    · exact exec_driveXportErr (by simp [hi]) (by simp [hi]) ..
    · rfl
  · rfl

theorem operandWrite_ignoresXportErr {f : State → State}
    (hf : ∀ level s, f (driveXportErr level s) = driveXportErr level (f s)) :
    IgnoresXportErr (operandWrite f) := by
  intro level s
  unfold operandWrite
  rw [driveXportErr_phase, hf]
  split <;> rfl

theorem regWrite_ignoresXportErr (r : Reg) (w : Word) : IgnoresXportErr (regWrite r w) := by
  cases r with
  | cmd => exact issueCommand_ignoresXportErr w
  | arg => exact operandWrite_ignoresXportErr fun _ _ => rfl
  | len => exact operandWrite_ignoresXportErr fun _ _ => rfl
  | deadline => exact operandWrite_ignoresXportErr fun _ _ => rfl
  | status | csum | frameLen | txCount | diagLen | pdiagLen | diagDrop | elapsed | vaddr | config =>
    exact fun _ _ => rfl

theorem targetWrite_ignoresXportErr (tg : Target) (w : Word) :
    IgnoresXportErr (targetWrite tg w) := by
  cases tg with
  | reg r => exact regWrite_ignoresXportErr r w
  | ibuf i => exact operandWrite_ignoresXportErr fun _ _ => rfl
  | frame _ | diag _ | pdiag _ | unmapped => exact fun _ _ => rfl

theorem pollStep_driveXportErr (p : List HostOp) (level : Bool) (s : State) :
    pollStep p (driveXportErr level s) = driveXportErr level (pollStep p s) := by
  have hread : hostRead (regOffset .status) (driveXportErr level s) =
      driveXportErr level (hostRead (regOffset .status) s) := rfl
  simp only [pollStep, hread, driveXportErr_busRdata]
  split <;> rfl

theorem hostStep_ignoresXportErr : IgnoresXportErr hostStep := by
  intro level s
  unfold hostStep
  rw [driveXportErr_program]
  split
  · rfl
  · rfl
  · exact targetWrite_ignoresXportErr _ _ level { s with program := _ }
  · rename_i p _
    rw [pollStep_driveXportErr]
    rfl

/-- While `rst` is 1 only the Transport's own step has to do with the level. -/
theorem stepInReset_driveXportErr {a : AgentStep} (ha : ∀ l, a ≠ .transport (.setXportErr l))
    (level : Bool) (s : State) :
    stepInReset a (driveXportErr level s) = driveXportErr level (stepInReset a s) := by
  cases a with
  | host =>
    have hp : (resetBlock (driveXportErr level s)).program = (resetBlock s).program := rfl
    simp only [stepInReset]
    unfold hostStepInReset
    rw [hp]
    split
    · rfl
    · rfl
    · rfl
    · exact pollStep_driveXportErr _ level (resetBlock s)
  | transport ts =>
    cases ts with
    | deliver b => rfl
    | setTxReady l => rfl
    | setXportErr l => exact absurd rfl (ha l)
  | sequencer | time | reset l => rfl

theorem tick_driveXportErr (level : Bool) (s : State) :
    tick (driveXportErr level s) = driveXportErr level (tick s) := by
  unfold tick
  rw [driveXportErr_phase]
  split
  · exact (apply_ite (driveXportErr level) (s.elapsed ≤ deadlineOperand s)
      { s with elapsed := s.elapsed + 1 } s).symm
  all_goals rfl

theorem sequencerStep_driveXportErr {s : State} (hs : ∀ j, s.phase ≠ .send j)
    (hw : ∀ m, s.phase ≠ .wait m) (level : Bool) :
    sequencerStep (driveXportErr level s) = mapNext (driveXportErr level) (sequencerStep s) := by
  unfold sequencerStep
  rw [driveXportErr_phase]
  split
  · exact exec_driveXportErr hs hw ..
  · rfl

theorem stepRunning_driveXportErr {a : AgentStep} {s : State}
    (hq : a = .sequencer → (∀ j, s.phase ≠ .send j) ∧ ∀ m, s.phase ≠ .wait m)
    (ha : ∀ l, a ≠ .transport (.setXportErr l)) (level : Bool) :
    stepRunning a (driveXportErr level s) = mapNext (driveXportErr level) (stepRunning a s) := by
  cases a with
  | host => exact hostStep_ignoresXportErr level s
  | sequencer => exact sequencerStep_driveXportErr (hq rfl).1 (hq rfl).2 level
  | transport ts =>
    cases ts with
    | deliver b => rfl
    | setTxReady l => rfl
    | setXportErr l => exact absurd rfl (ha l)
  | time => simp [stepRunning, tick_driveXportErr, mapNext]
  | reset l => cases l <;> rfl

theorem agentStep_driveXportErr {a : AgentStep} {s : State}
    (hq : a = .sequencer → (∀ j, s.phase ≠ .send j) ∧ ∀ m, s.phase ≠ .wait m)
    (ha : ∀ l, a ≠ .transport (.setXportErr l)) (level : Bool) :
    agentStep a (driveXportErr level s) = mapNext (driveXportErr level) (agentStep a s) := by
  unfold agentStep
  rw [driveXportErr_rst]
  split
  · rw [stepInReset_driveXportErr ha]; rfl
  · exact stepRunning_driveXportErr hq ha level

/-! ## Where the level is sampled -/

/-- A failing transport ends a wait as if it had timed out (60_exceptions.md R334). -/
theorem xportFail_ackres_wait {s : State} {m : WaitMode} (hp : s.phase = .wait m) :
    (xportFail s).ackres = .timedOut := by
  simp [xportFail, hp, complete]

theorem sendStep_failed {s : State} {j : Nat} (hj : j < s.frame.length) (hx : s.xerrIn = true) :
    sendStep j s = xportFail s := by
  simp [sendStep, hj, hx]

theorem WaitCase.failed_of_xerrIn {s t : State} (h : WaitCase s t) (hx : s.xerrIn = true) :
    t = xportFail s := by
  cases h with
  | failed _ ht => exact ht
  | timedOut hx' | noByte hx' | byte _ _ hx' => simp [hx] at hx'

/-- Settles O56: every other step commutes with driving the level; in Send and in a wait the level
ends the operation. -/
theorem transportErrorMattersOnlyInSendAndWait :
    Obligations.TransportErrorMattersOnlyInSendAndWait := by
  refine ⟨fun s t level h hq ha => ?_, fun s rest j hr hx hs hp hj => ?_,
    fun s rest m hr hx hs hp => ?_⟩
  · obtain ⟨hs, rfl⟩ | ⟨a, rest, hs, hn⟩ := step_next h
    · simp [step, hs]
    have hc := agentStep_driveXportErr (a := a) (s := { s with schedule := rest })
      (fun hseq => hq rest (hseq ▸ hs)) (fun l hl => ha rest l (hl ▸ hs)) level
    rw [hn] at hc
    exact (step_cons (s := { s with xerrIn := level }) hs).trans hc
  · refine ⟨_, step_send hr hs hp, ?_⟩
    rw [sendStep_failed (s := { s with schedule := rest }) hj hx]
    exact ⟨xportFail_xerr _, xportFail_phase _⟩
  · obtain ⟨t, ht, hw⟩ := step_wait hr hs hp
    rw [hw.failed_of_xerrIn hx] at ht
    exact ⟨_, ht, xportFail_xerr _, xportFail_ackres_wait hp, xportFail_phase _⟩

end Sys2Proof.Machine

/-! PROOF. The address map (20_memory.md R81, R84): what each offset reaches, and that an unmapped one
does nothing. -/

namespace Sys2Proof.Machine

/-! ## Unmapped offsets -/

theorem regOfWord_eq_none_iff (n : Nat) : regOfWord n = none ↔ 14 ≤ n := by
  constructor
  · intro h
    by_contra hn
    interval_cases n <;> cases h
  · intro h
    obtain ⟨k, rfl⟩ := Nat.exists_eq_add_of_le' h
    rfl

/-- The gaps between the mapped ranges, in words (20_memory.md R84). -/
theorem targetOfWord_eq_unmapped_iff (n : Nat) :
    targetOfWord n = .unmapped ↔
      (14 ≤ n ∧ n < 0x100) ∨ (0x202 ≤ n ∧ n < 0x400) ∨ (0x502 ≤ n ∧ n < 0x800) ∨ 0x1000 ≤ n := by
  by_cases hn : n < 0x100
  · have hreg : targetOfWord n = .unmapped ↔ regOfWord n = none := by
      unfold targetOfWord
      cases regOfWord n <;> simp [hn]
    rw [hreg, regOfWord_eq_none_iff]
    omega
  · unfold targetOfWord Config.bufCap Config.diagCapMax
    split_ifs <;> simp <;> omega

/-- The gaps between the mapped ranges, in offsets; the last range ends with the 14 bits. -/
theorem target_eq_unmapped_iff (off : Offset) :
    target off = .unmapped ↔
      let a := (off &&& 0x3FFC).toNat
      ¬ (a < 0x038 ∨ (0x400 ≤ a ∧ a < 0x808) ∨ (0x1000 ≤ a ∧ a < 0x1408) ∨ 0x2000 ≤ a) := by
  have ha : (off &&& 0x3FFC).toNat = off.toNat / 4 * 4 := alignOffset_toNat off
  have hlt := off.isLt
  rw [target_eq, targetOfWord_eq_unmapped_iff, ha]
  omega

theorem readval_unmapped {off : Offset} (h : target off = .unmapped) (s : State) :
    readval s off = 0 := by
  rw [readval, h]
  rfl

theorem hostWrite_unmapped {off : Offset} (h : target off = .unmapped) (w : Word) (s : State) :
    hostWrite off w s = .next s := by
  rw [hostWrite, h]
  rfl

/-! ## Mapped offsets -/

theorem target_regOffset (r : Reg) : target (regOffset r) = .reg r := by cases r <;> rfl

/-- A cell at or beyond the length of its buffer reads 0 (40_host_access.md R153). -/
theorem cellWord_of_length_le {buf : List Byte} {k : Nat} (h : buf.length ≤ k) :
    cellWord buf k = 0 := by
  rw [cellWord_eq, dif_neg (Nat.not_lt.mpr h)]

theorem readval_diag (s : State) {k : Nat} (h : k ≤ 1023) :
    readval s (BitVec.ofNat 14 (0x2000 + 4 * k)) = cellWord s.diag k := by
  rw [readval, target_diag h]
  rfl

theorem readval_pdiag (s : State) {k : Nat} (h : k ≤ 1023) :
    readval s (BitVec.ofNat 14 (0x3000 + 4 * k)) = cellWord s.pdiag k := by
  rw [readval, target_pdiag h]
  rfl

/-! ## The obligations -/

/-- Settles O18: the gaps are counted in words, and DIAG and PDIAG end at DIAG_CAP at the latest. -/
theorem unmappedOffsetsReadZeroAndIgnoreWrites :
    Obligations.UnmappedOffsetsReadZeroAndIgnoreWrites := by
  refine ⟨target_regOffset, fun k hk => ⟨target_ibuf hk, target_frame hk⟩,
    fun k hk => ⟨target_diag hk, target_pdiag hk⟩, target_eq_unmapped_iff,
    fun s off w h => ⟨readval_unmapped h s, hostWrite_unmapped h w s⟩,
    fun s k hs hc hk => ⟨?_, ?_⟩⟩
  · rw [readval_diag s hk, cellWord_of_length_le (hs.diag_le.trans hc)]
  · rw [readval_pdiag s hk, cellWord_of_length_le (hs.pdiag_le.trans hc)]

/-- Settles O19: reads and writes see an offset only through its target. -/
theorem lowOffsetBitsAreIgnored : Obligations.LowOffsetBitsAreIgnored := fun _ _ _ =>
  ⟨by rw [readval, readval, target_align], by rw [hostWrite, hostWrite, target_align]⟩

end Sys2Proof.Machine

/-! PROOF. The streams (20_memory.md R92): a SEND step appends the byte at its index to the TX stream,
a wait step takes the front byte of `rxq`, the Transport appends to `rxq`, and no other step moves
either stream. -/

namespace Sys2Proof.Machine

/-! ## The Host -/

/-- A host write moves no byte: the command it may issue is only accepted in that step. -/
theorem targetWrite_streams {tg : Target} {w : Word} {s t : State}
    (h : targetWrite tg w s = .next t) : t.txlog = s.txlog ∧ t.rxq = s.rxq := by
  cases targetWrite_next h with
  | command _ _ hp _ hx =>
    exact ⟨(exec_txlog hx).resolve_right (by simp [hp]), (exec_rxq hx).resolve_right (by simp [hp])⟩
  | illegal _ _ ht => simp [ht]
  | blocked _ ht => simp [ht]
  | clear _ ht => simp [ht]
  | arg _ _ ht => simp [ht]
  | len _ _ ht => simp [ht]
  | deadline _ _ ht => simp [ht]
  | cell _ _ _ ht => simp [ht]
  | ignored ht => simp [ht]

theorem pollStep_streams (p : List HostOp) (s : State) :
    (pollStep p s).txlog = s.txlog ∧ (pollStep p s).rxq = s.rxq := by
  obtain h | h := pollStep_cases p s <;> simp [h]

theorem hostStep_streams {s t : State} (h : hostStep s = .next t) :
    t.txlog = s.txlog ∧ t.rxq = s.rxq := by
  obtain ⟨-, rfl⟩ | ⟨_, _, -, rfl⟩ | ⟨_, _, _, -, hw⟩ | ⟨p, -, rfl⟩ := hostStep_next h
  · exact ⟨rfl, rfl⟩
  · exact ⟨rfl, rfl⟩
  · exact (targetWrite_streams hw :)
  · exact pollStep_streams p s

theorem hostStepInReset_streams (s : State) :
    (hostStepInReset s).txlog = s.txlog ∧ (hostStepInReset s).rxq = s.rxq := by
  unfold hostStepInReset
  split
  · exact ⟨rfl, rfl⟩
  · exact ⟨rfl, rfl⟩
  · exact ⟨rfl, rfl⟩
  · exact pollStep_streams _ s

/-! ## The Sequencer -/

/-- A Sequencer step that moves the TX stream is SEND's byte step (42_frame_build.md R230). -/
theorem sequencerStep_txlog {s t : State} (h : sequencerStep s = .next t) :
    t.txlog = s.txlog ∨ ∃ j b, s.phase = .send j ∧ s.frame[j]? = some b ∧ t = emit j b s := by
  obtain ⟨-, rfl⟩ | ⟨i, hi, hx⟩ := sequencerStep_next h
  · exact .inl rfl
  refine (exec_txlog hx).imp_right fun ⟨j, b, hp, hb, hxerr, hready, _⟩ => ⟨j, b, hp, hb, ?_⟩
  have hsend : exec .send s = .next t := by
    rw [hp, running, Option.some.injEq] at hi
    rwa [hi]
  rw [exec_send hp, sendStep_ready hb hxerr hready] at hsend
  cases hsend
  rfl

theorem sequencerStep_rxq {s t : State} (h : sequencerStep s = .next t) :
    t.rxq = s.rxq ∨ ∃ m b, s.phase = .wait m ∧ s.rxq = b :: t.rxq := by
  obtain ⟨-, rfl⟩ | ⟨_, -, hx⟩ := sequencerStep_next h
  · exact .inl rfl
  · exact (exec_rxq hx).imp_right fun ⟨m, b, hp, _, _, hq⟩ => ⟨m, b, hp, hq⟩

/-! ## The Transport -/

@[simp] theorem transportStep_txlog (ts : TransportStep) (s : State) :
    (transportStep ts s).txlog = s.txlog := by
  cases ts <;> rfl

theorem transportStep_rxq (ts : TransportStep) (s : State) :
    (transportStep ts s).rxq = s.rxq ∨
      ∃ b, ts = .deliver b ∧ (transportStep ts s).rxq = s.rxq ++ [b] := by
  cases ts with
  | deliver b => exact .inr ⟨b, rfl, rfl⟩
  | setTxReady level => exact .inl rfl
  | setXportErr level => exact .inl rfl

/-! ## Reset -/

/-- While `rst` is 1 only the Transport moves a stream (70_reset_and_hazards.md R370). -/
theorem stepInReset_streams (a : AgentStep) (s : State) :
    (stepInReset a s).txlog = s.txlog ∧
      ((stepInReset a s).rxq = s.rxq ∨
        ∃ b, a = .transport (.deliver b) ∧ (stepInReset a s).rxq = s.rxq ++ [b]) := by
  cases a with
  | host => exact (hostStepInReset_streams (resetBlock s)).imp_right .inl
  | transport ts =>
    exact ⟨transportStep_txlog ts (resetBlock s),
      (transportStep_rxq ts (resetBlock s)).imp_right fun ⟨b, hb, hq⟩ => ⟨b, by rw [hb], hq⟩⟩
  | sequencer => exact ⟨rfl, .inl rfl⟩
  | time => exact ⟨rfl, .inl rfl⟩
  | reset level => exact ⟨rfl, .inl rfl⟩

/-! ## The obligation -/

/-- Settles O53: of the agents only the Sequencer, in SEND or in a wait, and the Transport move a
stream, whether or not `rst` is 1. -/
theorem streamsMoveOneByteAtATimeInOrder : Obligations.StreamsMoveOneByteAtATimeInOrder := by
  intro s t h
  obtain ⟨-, rfl⟩ | ⟨a, rest, hs, ha⟩ := step_next h
  · exact ⟨.inl rfl, .inl rfl⟩
  obtain ⟨-, rfl⟩ | ⟨-, hn⟩ := agentStep_next ha
  · obtain ⟨htx, hrx⟩ := stepInReset_streams a { s with schedule := rest }
    exact ⟨.inl htx, hrx.imp_right fun ⟨b, hb, hq⟩ => .inr ⟨b, rest, hb ▸ hs, hq⟩⟩
  cases a with
  | host => exact (hostStep_streams hn).imp .inl .inl
  | sequencer =>
    refine ⟨(sequencerStep_txlog hn).imp_right ?_, (sequencerStep_rxq hn).imp_right .inl⟩
    rintro ⟨j, b, hp, hb, rfl⟩
    exact ⟨j, b, hp, hb, rfl, rfl, rfl⟩
  | transport ts =>
    cases hn
    exact ⟨.inl (transportStep_txlog ts _), (transportStep_rxq ts _).imp_right
      fun ⟨b, hb, hq⟩ => .inr ⟨b, rest, hb ▸ hs, hq⟩⟩
  | time => cases hn; exact ⟨.inl (tick_txlog _), .inl (tick_rxq _)⟩
  | reset level => cases hn; cases level <;> exact ⟨.inl rfl, .inl rfl⟩

end Sys2Proof.Machine

/-! PROOF. The command word (30_encoding.md R120 to R122): its two fields as numbers, the opcode map read
in both directions, and from them the words that decode to an operation and those that do not. -/

namespace Sys2Proof

/-! ## The fields of a word -/

theorem opField_toNat (w : Word) : (opField w).toNat = w.toNat % 256 := by simp [opField]

theorem rsvdField_toNat (w : Word) : (rsvdField w).toNat = w.toNat / 256 := by
  have := w.isLt
  rw [rsvdField, BitVec.extractLsb'_toNat, Nat.shiftRight_eq_div_pow]
  omega

theorem rsvdField_eq_zero_iff (w : Word) : rsvdField w = 0 ↔ w.toNat / 256 = 0 := by
  rw [← rsvdField_toNat]
  exact BitVec.toNat_eq

theorem encode_toNat (i : Instr) : (encode i).toNat = (opcode i).toNat := by
  rw [encode, BitVec.toNat_append]
  simp

/-- A word is an operation's when its two fields are (30_encoding.md R120). -/
theorem eq_encode_iff (w : Word) (i : Instr) :
    w = encode i ↔ rsvdField w = 0 ∧ opField w = opcode i := by
  have := (opcode i).isLt
  rw [BitVec.toNat_eq, encode_toNat, rsvdField_eq_zero_iff, BitVec.toNat_eq, opField_toNat]
  omega

/-! ## The opcode map -/

theorem decodeOp_opcode (i : Instr) : decodeOp (opcode i) = some i := by cases i <;> rfl

/-- The opcode map is one to one (30_encoding.md R121). -/
theorem decodeOp_eq_some_iff (op : Byte) (i : Instr) : decodeOp op = some i ↔ op = opcode i := by
  constructor
  · intro h
    unfold decodeOp at h
    split at h <;> cases h <;> exact BitVec.eq_of_toNat_eq ‹_›
  · rintro rfl
    exact decodeOp_opcode i

/-- The OP values that are not assigned (30_encoding.md R122): none of the twelve that are, and every
other. -/
theorem decodeOp_eq_none_iff (op : Byte) :
    decodeOp op = none ↔ op.toNat = 0x06 ∨ op.toNat = 0x07 ∨ (0x09 ≤ op.toNat ∧ op.toNat ≤ 0x0F) ∨
      (0x12 ≤ op.toNat ∧ op.toNat ≤ 0x1F) ∨ 0x23 ≤ op.toNat := by
  unfold decodeOp
  split
  iterate 12
    next h => simp [h]
  simp only [imp_false, true_iff] at *
  omega

/-! ## The decoder -/

theorem decode_eq_ok_iff (w : Word) (i : Instr) :
    decode w = .ok i ↔ rsvdField w = 0 ∧ decodeOp (opField w) = some i := by
  by_cases hr : rsvdField w = 0
  · rw [decode, if_neg (not_not.2 hr)]
    cases decodeOp (opField w) <;> simp [hr]
  · simp only [decode, ne_eq, hr, not_false_eq_true, if_true, false_and, reduceCtorEq]

theorem decode_eq_ok_iff_fields (w : Word) (i : Instr) :
    decode w = .ok i ↔ rsvdField w = 0 ∧ opField w = opcode i := by
  rw [decode_eq_ok_iff, decodeOp_eq_some_iff]

theorem decode_eq_ok_iff_eq_encode (w : Word) (i : Instr) : decode w = .ok i ↔ w = encode i := by
  rw [decode_eq_ok_iff_fields, eq_encode_iff]

theorem decode_encode (i : Instr) : decode (encode i) = .ok i :=
  (decode_eq_ok_iff_eq_encode _ i).2 rfl

/-- A word is illegal by its reserved bits or by its OP (30_encoding.md R122). -/
theorem decode_ne_ok_iff (w : Word) :
    (∀ i, decode w ≠ .ok i) ↔ rsvdField w ≠ 0 ∨ decodeOp (opField w) = none := by
  simp only [ne_eq, decode_eq_ok_iff, not_and, Option.eq_none_iff_forall_ne_some, imp_iff_not_or,
    forall_or_left]

/-! ## The obligations -/

/-- Settles O8: a word decodes by its fields, and its fields are those of one word. -/
theorem opcodeMapIsExact : Obligations.OpcodeMapIsExact :=
  ⟨⟨rfl, rfl, rfl, rfl, rfl, rfl, rfl, rfl, rfl, rfl, rfl, rfl⟩, decode_eq_ok_iff_fields,
    decode_eq_ok_iff_eq_encode⟩

/-- Settles O10: each of the six words is its operation's. -/
theorem tableWordsDecodeToTheirOperations : Obligations.TableWordsDecodeToTheirOperations :=
  ⟨decode_encode .nop, decode_encode .cksum, decode_encode .buildData, decode_encode .send,
    decode_encode .ackWaitFirst, decode_encode .validateData⟩

end Sys2Proof

/-! PROOF. Command words and statements on the bus: what a write to CMD does with a word that it does
not run (30_encoding.md R124), where the assembled statements lead, and the turn of `poll` (R127). -/

namespace Sys2Proof.Machine

/-! ## Writes to CMD that run nothing -/

/-- An illegal command word in Idle (30_encoding.md R124). -/
theorem hostWrite_illegal {s : State} {off : Offset} {w : Word} (ht : target off = .reg .cmd)
    (hp : s.phase = .idle) (hd : ∀ i, decode w ≠ .ok i) :
    hostWrite off w s = .next (refuseIllegal s) := by
  cases h : decode w with
  | ok i => exact absurd h (hd i)
  | error e => simp [hostWrite, ht, targetWrite, regWrite, issueCommand, hp, h]

/-- While BUSY any command word is blocked (40_host_access.md R158). -/
theorem hostWrite_command_busy {s : State} {off : Offset} (ht : target off = .reg .cmd)
    (hp : s.phase ≠ .idle) (w : Word) : hostWrite off w s = .next (blockedWrite s) := by
  simp [hostWrite, ht, targetWrite, regWrite, issueCommand, hp]

/-- Settles O9: a word that does not decode is refused in Idle and blocked while BUSY. -/
theorem illegalWordsRaiseIllopOnlyInIdle : Obligations.IllegalWordsRaiseIllopOnlyInIdle := by
  refine ⟨fun w => ?_, fun w s hd hp => hostWrite_illegal rfl hp hd,
    fun w s _ hp => hostWrite_command_busy rfl hp w⟩
  rw [decode_ne_ok_iff, decodeOp_eq_none_iff, opField_toNat, ne_eq, rsvdField_eq_zero_iff]

/-! ## Assembled statements -/

theorem wellFormed_wrb_iff (i : Nat) (v : Byte) : (Stmt.wrb i v).wellFormed = true ↔ i < 258 :=
  decide_eq_true_iff

theorem wellFormed_rdb_iff (b : ReadBuf) (i : Nat) :
    (Stmt.rdb b i).wellFormed = true ↔ i < b.cells :=
  decide_eq_true_iff

/-- The offset of a buffer's cell is its base plus four times the cell (30_encoding.md R127). -/
theorem assemble_rdb (b : ReadBuf) (i : Nat) :
    assemble (.rdb b i) = [.read (BitVec.ofNat 14 (4 * bufWord b + 4 * i))] := by
  rw [assemble, Nat.mul_add]

/-- Settles O60: a cell's offset is its window's base plus four times the cell, and CMD's word is the
operation's. -/
theorem assembledStatementsReachTheirTargets : Obligations.AssembledStatementsReachTheirTargets := by
  refine ⟨fun i v h => ?_, fun i h => ?_, fun i h => ?_, fun i h => ?_,
    fun m => ⟨_, _, rfl, target_regOffset .cmd, decode_encode m⟩⟩
  · exact ⟨_, rfl, target_ibuf (Nat.le_of_lt_succ ((wellFormed_wrb_iff i v).1 h))⟩
  · exact ⟨_, assemble_rdb .frame i,
      target_frame (Nat.le_of_lt_succ ((wellFormed_rdb_iff _ i).1 h))⟩
  · exact ⟨_, assemble_rdb .diag i,
      target_diag (Nat.le_of_lt_succ ((wellFormed_rdb_iff _ i).1 h))⟩
  · exact ⟨_, assemble_rdb .pdiag i,
      target_pdiag (Nat.le_of_lt_succ ((wellFormed_rdb_iff _ i).1 h))⟩

/-! ## The turn of `poll` -/

/-- Bit 0 of STATUS is BUSY (10_state.md R47). -/
theorem statusWord_getLsbD_zero (s : State) : (statusWord s).getLsbD 0 = busy s := by
  cases h : busy s <;> simp [statusWord, flagWord, h]

/-- A read of STATUS takes no free byte (log entry 8). -/
theorem hostRead_status (s : State) :
    hostRead (regOffset .status) s = { s with busRdata := readval s 0x004 } := rfl

/-- A turn of `poll` reads STATUS, and leaves the loop when BUSY is 0. -/
theorem pollStep_eq (p : List HostOp) (s : State) :
    pollStep p s =
      if busy s then { s with busRdata := readval s 0x004 }
      else { s with busRdata := readval s 0x004, program := p } := by
  have hbit : (readval s 0x004).getLsbD 0 = busy s := statusWord_getLsbD_zero s
  simp only [pollStep, hostRead_status, hbit]

theorem hostStep_poll {s : State} {p : List HostOp} (hp : s.program = .poll :: p) :
    hostStep s = .next (pollStep p s) := by
  simp [hostStep, hp]

/-- Settles O14: a poll step is a turn of `poll`, and BUSY is 0 exactly in Idle. -/
theorem pollEndsExactlyWhenIdle : Obligations.PollEndsExactlyWhenIdle := by
  have hpoll : ∀ s p rest, s.rst = false → s.schedule = .host :: rest → s.program = .poll :: p →
      step s = .next (pollStep p { s with schedule := rest }) :=
    fun s p rest hr hs hprog => (step_running hr hs).trans (hostStep_poll hprog)
  refine ⟨fun s p rest hr hs hprog hp => ?_, fun s p rest hr hs hprog hp => ?_⟩ <;>
    rw [hpoll s p rest hr hs hprog, pollStep_eq]
  · rw [if_neg (by simp [busy, hp])]; rfl
  · rw [if_pos (by simp [busy, hp])]; rfl

end Sys2Proof.Machine

/-! PROOF. The host's reads (40_host_access.md R150 to R153): what each register and each
buffer cell reads, and that a read only drives the bus. -/

namespace Sys2Proof.Machine

/-! ## The STATUS word -/

/-- The layout of STATUS, bit by bit (10_state.md R41). -/
def statusBit (s : State) : Nat → Bool
  | 0 => busy s
  | 1 => s.ackres.code.getLsbD 0
  | 2 => s.ackres.code.getLsbD 1
  | 3 => s.valid
  | 4 => s.verr.code.getLsbD 0
  | 5 => s.verr.code.getLsbD 1
  | 6 => s.verr.code.getLsbD 2
  | 7 => s.verr.code.getLsbD 3
  | 8 => s.done
  | 9 => s.busyerr
  | 10 => s.illop
  | 11 => s.lenerr
  | 12 => s.xerr
  | 13 => s.dovf
  | _ => false

theorem flagWord_eq (b : Bool) : flagWord b = (BitVec.ofBool b).setWidth 32 := by
  cases b <;> rfl

/-- The word R151 assembles has the layout of R41. -/
theorem statusWord_getLsbD (s : State) (k : Nat) : (statusWord s).getLsbD k = statusBit s k := by
  by_cases hk : k < 14
  · interval_cases k <;> simp [statusWord, statusBit, flagWord_eq]
  · obtain ⟨j, rfl⟩ := Nat.exists_eq_add_of_le' (Nat.not_lt.mp hk)
    simp [statusWord, statusBit, flagWord_eq]

theorem statusWord_ackres (s : State) : (statusWord s).extractLsb' 1 2 = s.ackres.code := by
  apply BitVec.eq_of_getLsbD_eq
  intro k hk
  rw [BitVec.getLsbD_extractLsb', statusWord_getLsbD]
  interval_cases k <;> rfl

theorem statusWord_verr (s : State) : (statusWord s).extractLsb' 4 4 = s.verr.code := by
  apply BitVec.eq_of_getLsbD_eq
  intro k hk
  rw [BitVec.getLsbD_extractLsb', statusWord_getLsbD]
  interval_cases k <;> rfl

/-- From bit 14 on STATUS has no field (10_state.md R41). -/
theorem statusWord_reserved (s : State) {k : Nat} (h : 14 ≤ k) :
    (statusWord s).getLsbD k = false := by
  obtain ⟨j, rfl⟩ := Nat.exists_eq_add_of_le' h
  exact statusWord_getLsbD s (j + 14)

/-! ## Registers -/

theorem readval_reg (s : State) (r : Reg) : readval s (regOffset r) = regValue s r := by
  rw [readval, target_regOffset]
  rfl

/-- `STATUS.BUSY` is the phase's (10_state.md R47). -/
theorem statusWord_busy_iff (s : State) :
    (statusWord s).getLsbD 0 = true ↔ s.phase ≠ .idle := by
  rw [statusWord_getLsbD, statusBit, busy, decide_eq_true_iff]

/-- Settles O16: STATUS has its layout, and under the invariant every count fits its field. -/
theorem registersReadTheirFields : Obligations.RegistersReadTheirFields := by
  intro s hs
  have hframe : s.frame.length ≤ 258 := hs.frame_le
  have htx : s.txCount ≤ 258 := hs.txCount_le.trans hframe
  have hcap : s.diagCap ≤ 1024 := hs.diagCap_range.2
  have hdiag : s.diag.length ≤ 1024 := hs.diag_le.trans hcap
  have hpdiag : s.pdiag.length ≤ 1024 := hs.pdiag_le.trans hcap
  have helapsed : s.elapsed ≤ 65536 := hs.elapsed_le
  have hzeros {n : Nat} (v : BitVec n) (h : n ≤ 32) : (v.setWidth 32).toNat = v.toNat :=
    BitVec.toNat_setWidth_of_le h
  exact ⟨readval_reg s .cmd,
    statusWord_busy_iff s, statusWord_ackres s, statusWord_getLsbD s 3, statusWord_verr s,
    statusWord_getLsbD s 8, statusWord_getLsbD s 9, statusWord_getLsbD s 10,
    statusWord_getLsbD s 11, statusWord_getLsbD s 12, statusWord_getLsbD s 13,
    fun _ hk => statusWord_reserved s hk,
    readval_reg s .arg, hzeros s.len (by decide), hzeros s.deadline (by decide),
    hzeros s.csum (by decide),
    fieldWord_toNat (by omega) (by decide), fieldWord_toNat (by omega) (by decide),
    fieldWord_toNat (by omega) (by decide), fieldWord_toNat (by omega) (by decide),
    hzeros s.diagDrop (by decide), fieldWord_toNat (by omega) (by decide),
    readval_reg s .vaddr, fieldWord_toNat (by omega) (by decide), ⟨rfl, rfl, rfl, rfl⟩,
    rfl, rfl, rfl, rfl⟩

/-! ## Buffer cells -/

theorem readval_frame (s : State) {k : Nat} (h : k ≤ 257) :
    readval s (BitVec.ofNat 14 (0x1000 + 4 * k)) = cellWord s.frame k := by
  rw [readval, target_frame h]
  rfl

theorem readval_ibuf (s : State) {k : Nat} (h : k ≤ 257) :
    readval s (BitVec.ofNat 14 (0x400 + 4 * k)) = ibufWord s k := by
  rw [readval, target_ibuf h]
  rfl

theorem ibufWord_written {s : State} {k : Nat} {b : Byte} (h : s.ibuf.read k = some b) :
    ibufWord s k = b.setWidth 32 := by
  simp [ibufWord, h]

/-- An unwritten cell reads the free byte that is next (93_implementation_defined.md U1). -/
theorem ibufWord_unwritten {s : State} {k : Nat} (h : s.ibuf.read k = none) :
    ibufWord s k = (Config.freeByte s.freeReads).setWidth 32 := by
  simp [ibufWord, h]

/-- Settles O17: a cell of a list reads through `cellWord`, a cell of IBUF through `ibufWord`. -/
theorem bufferCellsReadTheirBytes : Obligations.BufferCellsReadTheirBytes :=
  ⟨fun s i h => (readval_frame s h).trans (cellWord_eq s.frame i),
    fun s i h => (readval_diag s h).trans (cellWord_eq s.diag i),
    fun s i h => (readval_pdiag s h).trans (cellWord_eq s.pdiag i),
    fun s _ _ h hb => (readval_ibuf s h).trans (ibufWord_written hb),
    fun s _ h hn => ⟨_, (readval_ibuf s h).trans (ibufWord_unwritten hn)⟩⟩

/-! ## The read step -/

/-- What an offset reads does not depend on the agents (40_host_access.md R150). -/
theorem readval_agents (s : State) (off : Offset) (p : List HostOp) (rest : List AgentStep) :
    readval { s with schedule := rest, program := p } off = readval s off := by
  unfold readval
  cases target off with
  | reg r => cases r <;> rfl
  | ibuf i => rfl
  | frame i => rfl
  | diag i => rfl
  | pdiag i => rfl
  | unmapped => rfl

theorem hostStep_read {s : State} {off : Offset} {p : List HostOp}
    (hp : s.program = .read off :: p) :
    hostStep s = .next (hostRead off { s with program := p }) := by
  simp [hostStep, hp]

/-- Settles O15: the step is the read, which sees an offset only through its target. -/
theorem readsOnlyDriveTheBus : Obligations.ReadsOnlyDriveTheBus := by
  refine ⟨fun s off p rest hr hs hprog => ⟨s.freeReads + freeTaken s off, ?_⟩,
    fun s off h => readval_unmapped h s⟩
  have halign : readval s (off &&& 0x3FFC) = readval s off := by rw [readval, readval, target_align]
  rw [step_running hr hs, halign, ← readval_agents s off p rest]
  exact hostStep_read (s := { s with schedule := rest }) hprog

end Sys2Proof.Machine

/-! PROOF. The host's writes (40_host_access.md R155 to R158): operand writes in Idle, the STATUS
write, the writes that are ignored, and those that are blocked while BUSY. -/

namespace Sys2Proof.Machine

/-! ## Operand writes and the STATUS write -/

theorem operandWrite_idle {s : State} (hp : s.phase = .idle) (f : State → State) :
    operandWrite f s = .next (f s) := by
  simp [operandWrite, hp]

theorem operandWrite_busy {s : State} (hp : s.phase ≠ .idle) (f : State → State) :
    operandWrite f s = .next (blockedWrite s) := by
  simp [operandWrite, hp]

theorem hostWrite_ibuf {s : State} (hp : s.phase = .idle) {k : Nat} (hk : k ≤ 257) (w : Word) :
    hostWrite (BitVec.ofNat 14 (0x400 + 4 * k)) w s = .next (setCell k w s) := by
  rw [hostWrite, target_ibuf hk]
  exact operandWrite_idle hp (setCell k w)

/-- Settles O20: in Idle the write is the operand's update. -/
theorem operandWritesStoreInIdle : Obligations.OperandWritesStoreInIdle :=
  ⟨fun _ w hp => operandWrite_idle hp (setArg w), fun _ w hp => operandWrite_idle hp (setLen w),
    fun _ w hp => operandWrite_idle hp (setDeadline w),
    fun s w k hp hk => ⟨s.ibuf.write k (w.extractLsb' 0 8), hostWrite_ibuf hp hk w,
      Memory.read_write_same .., fun _ ha => Memory.read_write_ne _ _ ha⟩⟩

/-- Settles O21: a bit and the negation of the written bit is the bit, cleared where a 1 is
written. -/
theorem statusWriteClearsExactlyTheWrittenBits :
    Obligations.StatusWriteClearsExactlyTheWrittenBits := by
  have hclear : ∀ flag written : Bool,
      (flag && !written) = if written then false else flag := by decide
  intro s w
  simp only [← hclear]
  rfl

/-! ## Targets by what a write to them does -/

/-- How a write to a target is treated (40_host_access.md R156 to R158). -/
inductive WriteClass where
  /-- Blocked while BUSY (R158). -/
  | guarded
  /-- STATUS, never blocked (R156). -/
  | status
  /-- Read-only or unmapped: ignored in every phase (R157). -/
  | ignored

/-- The class of each target; STATUS and the guarded targets apart, none can be written. -/
def Target.writeClass : Target → WriteClass
  | .reg .cmd | .reg .arg | .reg .len | .reg .deadline | .ibuf _ => .guarded
  | .reg .status => .status
  | _ => .ignored

theorem targetOfWord_writeClass (n : Nat) :
    (targetOfWord n).writeClass =
      if n = 1 then .status
      else if n < 5 ∨ (0x100 ≤ n ∧ n < 0x202) then .guarded
      else .ignored := by
  by_cases hreg : n < 14
  · interval_cases n <;> rfl
  rw [if_neg (by omega)]
  by_cases hgap : n < 0x100
  · rw [(targetOfWord_eq_unmapped_iff n).2 (.inl ⟨Nat.not_lt.mp hreg, hgap⟩), if_neg (by omega)]
    rfl
  by_cases hibuf : n < 0x202
  · rw [if_pos (by omega)]
    unfold targetOfWord Config.bufCap
    rw [if_neg hgap, if_pos (by omega)]
    rfl
  · rw [if_neg (by omega)]
    unfold targetOfWord Config.bufCap
    rw [if_neg hgap, if_neg (by omega)]
    split_ifs <;> rfl

/-- The guarded targets are the words below 0x014, STATUS apart, and IBUF's window. -/
theorem target_writeClass (off : Offset) :
    (target off).writeClass =
      let a := (off &&& 0x3FFC).toNat
      if a = 0x004 then .status
      else if a < 0x014 ∨ (0x400 ≤ a ∧ a < 0x808) then .guarded
      else .ignored := by
  have ha : (off &&& 0x3FFC).toNat = off.toNat / 4 * 4 := alignOffset_toNat off
  rw [target_eq, targetOfWord_writeClass, ha]
  exact if_congr (by omega) rfl (if_congr (by omega) rfl rfl)

/-- A write that is ignored changes nothing, whatever the phase (40_host_access.md R157). -/
theorem targetWrite_ignored {tg : Target} (h : tg.writeClass = .ignored) (w : Word) (s : State) :
    targetWrite tg w s = .next s := by
  cases tg with
  | reg r =>
    cases r with
    | cmd | status | arg | len | deadline => cases h
    | csum | frameLen | txCount | diagLen | pdiagLen | diagDrop | elapsed | vaddr | config => rfl
  | ibuf k => cases h
  | frame k | diag k | pdiag k | unmapped => rfl

/-- While BUSY a guarded write is blocked, whatever the word (40_host_access.md R158). -/
theorem targetWrite_guarded_busy {tg : Target} {s : State} (h : tg.writeClass = .guarded)
    (hp : s.phase ≠ .idle) (w : Word) : targetWrite tg w s = .next (blockedWrite s) := by
  cases tg with
  | reg r =>
    cases r with
    | cmd => exact hostWrite_command_busy (off := 0x000) rfl hp w
    | arg | len | deadline => exact operandWrite_busy hp _
    | status => cases h
    | csum | frameLen | txCount | diagLen | pdiagLen | diagDrop | elapsed | vaddr | config =>
      cases h
  | ibuf k => exact operandWrite_busy hp _
  | frame k | diag k | pdiag k | unmapped => cases h

/-- Settles O22: the read-only registers end below 0x038, the rest to IBUF is unmapped, and no
window above IBUF is writable. -/
theorem readOnlyWritesAreIgnored : Obligations.ReadOnlyWritesAreIgnored := by
  intro s off w ha
  refine targetWrite_ignored ?_ w s
  dsimp only at ha
  rw [target_writeClass, if_neg (by omega), if_neg (by omega)]

/-- Settles O23: the five write targets are the guarded ones. -/
theorem blockedWritesOnlySetBusyerr : Obligations.BlockedWritesOnlySetBusyerr := by
  intro s off w hp ha
  refine targetWrite_guarded_busy ?_ hp w
  dsimp only at ha
  rw [target_writeClass, if_neg (by omega), if_pos (by omega)]

end Sys2Proof.Machine

/-! PROOF. How an operation begins and ends: the acceptance of a command word in Idle
(40_host_access.md R160), and completion (R161, R162). -/

namespace Sys2Proof.Machine

/-! ## Acceptance -/

/-- In Idle a write of an operation's word to CMD is the operation's acceptance. -/
theorem hostWrite_encode {s : State} (hp : s.phase = .idle) (i : Instr) :
    hostWrite 0x000 (encode i) s = exec i s :=
  hostWrite_command rfl hp (decode_encode i)

/-- The operations on `IBUF[0..LEN]` with LEN up to 258 (40_host_access.md R160). -/
def ExecOp.readsInput (op : ExecOp) : Prop :=
  op = .cksum ∨ op = .validateCmd ∨ op = .validateAddr ∨ op = .validateData

/-- The operations that acceptance does not test for LEN (40_host_access.md R160). -/
def ExecOp.ignoresLen (op : ExecOp) : Prop :=
  op = .nop ∨ op = .buildCmd ∨ op = .buildAddr ∨ op = .buildSync

theorem exec_idle_of_readsInput {op : ExecOp} {s : State} (hp : s.phase = .idle)
    (ho : op.readsInput) : exec op.instr s = .next (acceptInput op s) := by
  obtain rfl | rfl | rfl | rfl := ho <;> exact oneStep_idle hp

theorem exec_idle_of_ignoresLen {op : ExecOp} {s : State} (hp : s.phase = .idle)
    (ho : op.ignoresLen) : exec op.instr s = .next (acceptExec op s) := by
  obtain rfl | rfl | rfl | rfl := ho
  · exact oneStep_idle (effect := fun s => .next (complete s)) hp
  all_goals exact oneStep_idle hp

theorem exec_buildData_idle {s : State} (hp : s.phase = .idle) :
    exec .buildData s = .next (acceptPayload .buildData s) :=
  oneStep_idle hp

theorem exec_send_idle {s : State} (hp : s.phase = .idle) :
    exec .send s = .next (acceptSend s) := by
  simp [exec, execSend, hp]

theorem acceptInput_of_gt {s : State} (h : 258 < s.len.toNat) (op : ExecOp) :
    acceptInput op s = refuseLength s :=
  if_pos h

theorem acceptInput_of_le {s : State} (h : s.len.toNat ≤ 258) (op : ExecOp) :
    acceptInput op s = acceptExec op s :=
  if_neg (Nat.not_lt.mpr h)

theorem acceptPayload_of_outside {s : State} (h : s.len.toNat = 0 ∨ 256 < s.len.toNat)
    (op : ExecOp) : acceptPayload op s = refuseLength s :=
  if_pos h

theorem acceptPayload_of_inside {s : State} (hl : 1 ≤ s.len.toNat) (hu : s.len.toNat ≤ 256)
    (op : ExecOp) : acceptPayload op s = acceptExec op s :=
  if_neg (by unfold Config.payloadMax; omega)

/-- Settles O24: the word is illegal, or its operation's acceptance tests its range of LEN. -/
theorem acceptanceTestsLegalityThenLength : Obligations.AcceptanceTestsLegalityThenLength := by
  refine ⟨fun s w hp hd => hostWrite_illegal rfl hp hd, fun s op hp hl ho => ?_,
    fun s op hp hl ho => ?_, fun s hp hl => ?_, fun s hp hl hu => ?_, fun s op hp ho => ?_,
    fun s hp => ?_, fun s hp => ?_, fun s hp => ?_⟩ <;> rw [hostWrite_encode hp]
  · rw [exec_idle_of_readsInput hp ho, acceptInput_of_gt hl]; rfl
  · rw [exec_idle_of_readsInput hp ho, acceptInput_of_le hl]; rfl
  · rw [exec_buildData_idle hp, acceptPayload_of_outside hl]; rfl
  · rw [exec_buildData_idle hp, acceptPayload_of_inside hl hu]; rfl
  · exact exec_idle_of_ignoresLen hp ho
  · exact exec_send_idle hp
  · exact exec_wait_idle (m := .normal) hp
  · exact exec_wait_idle (m := .first) hp

/-! ## Completion -/

/-- Where the answer is a next state, it is a completed one (40_host_access.md R161). -/
def Completes (r : Result) : Prop := ∀ t, r = .next t → ∃ u, t = complete u

theorem completes_next (u : State) : Completes (.next (complete u)) := by
  rintro _ ⟨⟩
  exact ⟨u, rfl⟩

theorem completes_withInput (s : State) (a n : Nat) (f : List Byte → State) :
    Completes (withInput s a n fun bs => .next (complete (f bs))) := by
  intro t h
  obtain ⟨bs, -, hbs⟩ := withInput_next h
  exact completes_next (f bs) t hbs

theorem completes_oneStep {op : ExecOp} {accept : State → State} {effect : State → Result}
    {s : State} (hp : s.phase = .exec op) (he : Completes (effect s)) :
    Completes (oneStep op accept effect s) := by
  rwa [oneStep_exec hp]

/-- A one-step operation completes in its Exec step (40_host_access.md R162). -/
theorem exec_instr_completes {op : ExecOp} {s : State} (hp : s.phase = .exec op) :
    Completes (exec op.instr s) := by
  cases op with
  | nop =>
    exact completes_oneStep (effect := fun s => .next (complete s)) hp (completes_next s)
  | buildCmd | buildAddr | buildSync =>
    refine completes_oneStep hp ?_
    exact completes_next _
  | cksum | buildData | validateCmd | validateAddr | validateData =>
    refine completes_oneStep hp ?_
    exact completes_withInput s 0 _ _

/-- SEND ends by completion, or goes on (42_frame_build.md R230, R232). -/
theorem sendStep_done {s : State} {j : Nat} (hp : s.phase = .send j)
    (ht : (sendStep j s).phase = .idle) : (sendStep j s).done = true := by
  obtain ⟨-, h⟩ | ⟨b, -, ⟨-, h⟩ | ⟨-, -, h⟩ | ⟨-, -, h⟩⟩ := sendStep_cases j s <;> rw [h] at ht ⊢
  · exact complete_done s
  · exact xportFail_done s
  · cases ht
  · rw [hp] at ht; cases ht

/-- A byte ends a wait by completion, or the wait goes on (44_ack_detect.md R288, R298). -/
theorem Classified.done {b : Byte} {s t : State} (h : Classified b s t) (hp : s.phase ≠ .idle)
    (ht : t.phase = .idle) : t.done = true := by
  cases h with
  | ended r => exact finish_done r s
  | kept => exact absurd ((append_phase b s).symm.trans ht) hp
  | keptAndEnded r => exact finish_done r _

theorem WaitCase.done {s t : State} (h : WaitCase s t) (hp : s.phase ≠ .idle)
    (ht : t.phase = .idle) : t.done = true := by
  cases h with
  | failed _ h => rw [h]; exact xportFail_done s
  | timedOut _ _ h => rw [h]; exact finish_done .timedOut s
  | noByte _ _ _ h => exact absurd (h ▸ ht) hp
  | byte b rest _ _ _ hc => exact hc.done hp ht

/-- Of the cases of an operation outside Idle, those that end in Idle complete. -/
theorem ExecCase.done {i : Instr} {s t : State} (h : ExecCase i s t) (hp : s.phase ≠ .idle)
    (ht : t.phase = .idle) : t.done = true := by
  cases h with
  | blocked _ h => rw [h] at ht; exact absurd ht hp
  | lengthRefused _ _ hi | accepted _ _ hi | sendAccepted _ hi | waitAccepted _ _ hi =>
    exact absurd hi hp
  | ran _ u _ _ _ h => rw [h]; exact complete_done u
  | sent j _ hj h => rw [h] at ht ⊢; exact sendStep_done hj ht
  | waited _ _ _ hw => exact hw.done hp ht

/-- Settles O25: the Exec step is a completion, and so is every step that ends an operation. -/
theorem operationsEndByCompletion : Obligations.OperationsEndByCompletion := by
  refine ⟨fun op s t hp h => ?_, fun i s t hp h ht => (exec_next h).done hp ht⟩
  obtain ⟨u, rfl⟩ := exec_instr_completes hp t h
  exact ⟨complete_phase u, complete_done u⟩

end Sys2Proof.Machine

/-! PROOF. The checksum as a function of bytes (41_checksum.md R190 to R194): its three cases, the
XOR fold of two or more bytes, and the XOR of a sequence with its checksum appended. -/

namespace Sys2Proof.Machine

/-! ## The three cases and the fold -/

/-- Settles O26: the complement is the XOR with 0xFF, and the fold may start from the XOR
of the first two bytes. -/
theorem checksumHasThreeCases : Obligations.ChecksumHasThreeCases := by
  refine ⟨rfl, fun x => ?_, fun b0 b1 bs => ?_⟩
  · exact (BitVec.xor_allOnes (x := x)).symm
  · rw [checksum_fold (by simp), foldl_xor, xorFold_cons, xorFold_cons, BitVec.xor_assoc]

/-- Two equal bytes cancel in the XOR (41_checksum.md R193). -/
theorem xorFold_cons_cons_self (x : Byte) (s : List Byte) :
    xorFold (x :: x :: s) = xorFold s := by
  rw [xorFold_cons, xorFold_cons, ← BitVec.xor_assoc, BitVec.xor_self, BitVec.zero_xor]

theorem checksum_perm {s t : List Byte} (hs : 2 ≤ s.length) (h : s.Perm t) :
    checksum s = checksum t := by
  rw [checksum_fold hs, checksum_fold (h.length_eq ▸ hs), xorFold_perm h]

theorem checksum_cons_cons_self (x : Byte) {s : List Byte} (hs : 2 ≤ s.length) :
    checksum (x :: x :: s) = checksum s := by
  rw [checksum_fold (by simp), checksum_fold hs, xorFold_cons_cons_self]

/-- Settles O27: on two or more bytes the checksum is the XOR fold, which has these laws. -/
theorem checksumFoldIgnoresOrderAndCancelsPairs :
    Obligations.ChecksumFoldIgnoresOrderAndCancelsPairs := by
  refine ⟨fun _ _ _ => rfl, fun _ _ => checksum_perm, fun x _ => checksum_cons_cons_self x,
    fun x => ⟨?_, rfl⟩, fun x => ?_⟩
  · rw [checksum_fold (by simp)]
    simp
  · rw [checksum_fold (by simp), xorFold_cons_cons_self]
    rfl

/-! ## A sequence with its checksum appended -/

/-- A checksum that is the XOR of its bytes cancels it (41_checksum.md R194). -/
theorem xorFold_append_checksum {s : List Byte} (hs : 2 ≤ s.length) :
    xorFold (s ++ [checksum s]) = 0x00 := by
  rw [xorFold_append, checksum_fold hs]
  simp

/-- A byte and its complement differ in every bit (41_checksum.md R194). -/
theorem xorFold_cmdframe (c : Byte) : xorFold (cmdframe c) = 0xFF := by
  rw [cmdframe, xorFold_cons, xorFold_cons, xorFold_nil, BitVec.not_def]
  simp

/-- Settles O28: address and data frames end in the checksum of two or more bytes, a command frame
in that of one. -/
theorem wholeFrameXorIsConstant : Obligations.WholeFrameXorIsConstant := by
  refine ⟨fun s => xorFold_append_checksum, fun s hs => ?_, fun s hs => ?_, fun a => ?_,
    fun p hp _ => ?_, xorFold_cmdframe⟩
  · obtain ⟨c, rfl⟩ := List.length_eq_one_iff.mp hs
    exact xorFold_cmdframe c
  · obtain rfl := List.length_eq_zero_iff.mp hs
    exact ⟨rfl, rfl⟩
  · exact xorFold_append_checksum (s := bigEndian a) (by simp [bigEndian])
  · exact xorFold_append_checksum (s := countByte p :: p) (by simpa using hp)

end Sys2Proof.Machine

/-! PROOF. How an operation reads its input `IBUF[0..LEN]` (70_reset_and_hazards.md R377), CKSUM's
result on a written input (41_checksum.md R196), and where an operation stops
(93_implementation_defined.md U1). -/

namespace Sys2Proof.Machine

/-! ## Written input -/

theorem inputIs_iff_readRange (s : State) (f : List Byte) :
    InputIs s f ↔ s.ibuf.readRange 0 s.len.toNat = some f := by
  simp only [Memory.readRange_eq_some, InputIs, Nat.zero_add]

theorem withInput_of_inputIs {s : State} {f : List Byte} (h : InputIs s f)
    (k : List Byte → Result) : withInput s 0 (countOperand s) k = k f :=
  withInput_some ((inputIs_iff_readRange s f).mp h)

theorem exec_cksum_of_inputIs {s : State} {bytes : List Byte} (hp : s.phase = .exec .cksum)
    (h : InputIs s bytes) :
    exec .cksum s = .next (complete (setCsum (checksum bytes) s)) :=
  (oneStep_exec hp).trans (withInput_of_inputIs h _)

/-- Settles O30: acceptance tests LEN, and the Exec step takes the checksum of the bytes it
reads. -/
theorem cksumWritesTheChecksumOfItsInput : Obligations.CksumWritesTheChecksumOfItsInput := by
  have hidle : ∀ {s : State}, s.phase = .idle → exec .cksum s = .next (acceptInput .cksum s) :=
    fun hp => exec_idle_of_readsInput hp (.inl rfl)
  refine ⟨decode_encode .cksum, fun s hp hl => ?_, fun s hp hl => ?_,
    fun s bytes => exec_cksum_of_inputIs⟩
  · rw [hidle hp, acceptInput_of_gt hl]; rfl
  · rw [hidle hp, acceptInput_of_le hl]; rfl

/-! ## Unwritten input -/

/-- What an operation may answer in state `s`: a next state, or the fault of U1 where a cell of
`IBUF[0..LEN]` is unwritten. -/
inductive ExecAnswer (s : State) : Result → Prop where
  | next (t : State) : ExecAnswer s (.next t)
  | unwritten (k : Nat) : k < s.len.toNat → s.ibuf.read k = none →
      ExecAnswer s (.fault .ibufUnwritten)

theorem ExecAnswer.unwritten_of_fault {s : State} {f : Fault} (h : ExecAnswer s (.fault f)) :
    ∃ k, k < s.len.toNat ∧ s.ibuf.read k = none := by
  cases h with
  | unwritten k hk hread => exact ⟨k, hk, hread⟩

theorem ExecAnswer.not_refused {s : State} {r : Refusal} (h : ExecAnswer s (.refused r)) :
    False := by
  cases h

/-- The Exec step of an operation that reads its input (10_state.md R44). -/
theorem execAnswer_withInput (s : State) (f : List Byte → State) :
    ExecAnswer s (withInput s 0 (countOperand s) fun bs => .next (f bs)) := by
  cases h : s.ibuf.readRange 0 (countOperand s) with
  | some bs =>
    rw [withInput_some h]
    exact .next _
  | none =>
    obtain ⟨k, hk, hread⟩ := Memory.readRange_eq_none.mp h
    rw [withInput_none h]
    exact .unwritten k hk (Nat.zero_add k ▸ hread)

/-- A one-step operation can stop only in its Exec step. -/
theorem execAnswer_oneStep {op : ExecOp} {accept : State → State} {effect : State → Result}
    {s : State} (he : ExecAnswer s (effect s)) : ExecAnswer s (oneStep op accept effect s) := by
  unfold oneStep
  split
  · exact .next _
  · split
    · exact he
    · exact .next _
  · exact .next _
  · exact .next _

theorem execAnswer_exec (i : Instr) (s : State) : ExecAnswer s (exec i s) := by
  cases i with
  | nop => exact execAnswer_oneStep (effect := fun s => .next (complete s)) (.next _)
  | buildCmd | buildAddr | buildSync => exact execAnswer_oneStep (.next _)
  | cksum | buildData | validateCmd | validateAddr | validateData =>
    exact execAnswer_oneStep (execAnswer_withInput s _)
  | send =>
    rw [exec, execSend]
    split <;> exact .next _
  | ackWait =>
    rw [exec, execAckWait]
    split <;> exact .next _
  | ackWaitFirst =>
    rw [exec, execAckWaitFirst]
    split <;> exact .next _

/-- The Exec step of an operation that reads its input stops at an unwritten cell
(10_state.md R44). -/
theorem exec_faults_of_unwritten {op : ExecOp} {s : State} {k : Nat}
    (ho : op.readsInput ∨ op = .buildData) (hp : s.phase = .exec op) (hk : k < s.len.toNat)
    (hread : s.ibuf.read k = none) : exec op.instr s = .fault .ibufUnwritten := by
  have hnone : s.ibuf.readRange 0 (countOperand s) = none :=
    Memory.readRange_eq_none.mpr ⟨k, hk, (Nat.zero_add k).symm ▸ hread⟩
  obtain (rfl | rfl | rfl | rfl) | rfl := ho <;>
    exact (oneStep_exec hp).trans (withInput_none hnone)

/-- Settles O58: an answer is a next state or the fault at an unwritten cell, and each operation
that reads its input stops there. -/
theorem operationsStopOnlyOnUnwrittenInput : Obligations.OperationsStopOnlyOnUnwrittenInput := by
  refine ⟨fun i s f h => (h ▸ execAnswer_exec i s).unwritten_of_fault,
    fun i s r h => (h ▸ execAnswer_exec i s).not_refused,
    fun _ _ => exec_faults_of_unwritten (op := .cksum) (.inl (.inl rfl)),
    fun _ _ => exec_faults_of_unwritten (op := .buildData) (.inr rfl),
    fun _ _ => exec_faults_of_unwritten (op := .validateCmd) (.inl (.inr (.inl rfl))),
    fun _ _ => exec_faults_of_unwritten (op := .validateAddr) (.inl (.inr (.inr (.inl rfl)))),
    fun _ _ => exec_faults_of_unwritten (op := .validateData) (.inl (.inr (.inr (.inr rfl))))⟩

end Sys2Proof.Machine

/-! PROOF. The frames of 42_frame_build.md (R210, R214, R218), the BUILD operations and NOP from
their words to their results (R212, R216, R220, R222, R226, R236). -/

namespace Sys2Proof.Machine

/-! ## The shapes of the frames -/

theorem bigEndian_append (b3 b2 b1 b0 : Byte) :
    bigEndian (b3 ++ b2 ++ b1 ++ b0 : BitVec (8 + 8 + 8 + 8)) = [b3, b2, b1, b0] := by
  simp only [bigEndian, BitVec.extractLsb'_append_eq_of_le, BitVec.extractLsb'_append_eq_right,
    BitVec.extractLsb'_eq_self, Nat.reduceLeDiff, Nat.reduceSub]

/-- Every word is its four bytes in a row (20_memory.md R83). -/
theorem exists_eq_append (a : Word) :
    ∃ b3 b2 b1 b0 : Byte, a = (b3 ++ b2 ++ b1 ++ b0 : BitVec (8 + 8 + 8 + 8)) := by
  refine ⟨a.extractLsb' 24 8, a.extractLsb' 16 8, a.extractLsb' 8 8, a.extractLsb' 0 8, ?_⟩
  rw [BitVec.extractLsb'_append_extractLsb'_eq_extractLsb' (show 24 = 16 + 8 from rfl),
    BitVec.extractLsb'_append_extractLsb'_eq_extractLsb' (show 16 = 8 + 8 from rfl),
    BitVec.extractLsb'_append_extractLsb'_eq_extractLsb' (show 8 = 0 + 8 from rfl)]
  exact BitVec.extractLsb'_eq_self.symm

theorem addrframe_append (b3 b2 b1 b0 : Byte) :
    addrframe (b3 ++ b2 ++ b1 ++ b0 : BitVec (8 + 8 + 8 + 8)) =
      [b3, b2, b1, b0, b3 ^^^ b2 ^^^ b1 ^^^ b0] := by
  rw [addrframe, bigEndian_append, checksum_fold (by simp)]
  simp [BitVec.xor_assoc]

theorem countByte_toNat {p : List Byte} (hu : p.length ≤ 256) :
    (countByte p).toNat = p.length - 1 := by
  rw [countByte, BitVec.toNat_ofNat]
  omega

theorem checksum_countByte_cons {p : List Byte} (hl : 1 ≤ p.length) :
    checksum (countByte p :: p) = p.foldl (· ^^^ ·) (countByte p) := by
  rw [dataframe_checksum hl, foldl_xor]

/-- Settles O29: the shapes are the definitions'; the check byte of an address or a data frame is the
XOR of two or more bytes. -/
theorem framesHaveTheirShapes : Obligations.FramesHaveTheirShapes := by
  refine ⟨fun c => ⟨rfl, rfl⟩, fun a => ?_, fun p hl hu => ?_⟩
  · obtain ⟨b3, b2, b1, b0, ha⟩ := exists_eq_append a
    exact ⟨b3, b2, b1, b0, ha, ha ▸ addrframe_append b3 b2 b1 b0, rfl⟩
  · exact ⟨countByte p, checksum (countByte p :: p), countByte_toNat hu, rfl, rfl,
      checksum_countByte_cons hl, dataframe_length p⟩

/-! ## The Exec steps -/

theorem exec_buildCmd_exec {s : State} (hp : s.phase = .exec .buildCmd) :
    exec .buildCmd s = .next (complete (setFrame (cmdframe (cmdOperand s)) s)) :=
  oneStep_exec hp

theorem exec_buildAddr_exec {s : State} (hp : s.phase = .exec .buildAddr) :
    exec .buildAddr s = .next (complete (setFrame (addrframe s.arg) s)) :=
  oneStep_exec hp

theorem exec_buildData_of_inputIs {s : State} {p : List Byte} (hp : s.phase = .exec .buildData)
    (h : InputIs s p) : exec .buildData s = .next (complete (setFrame (dataframe p) s)) :=
  (oneStep_exec hp).trans (withInput_of_inputIs h _)

theorem exec_buildSync_exec {s : State} (hp : s.phase = .exec .buildSync) :
    exec .buildSync s = .next (complete (setFrame [syncByte] s)) :=
  oneStep_exec hp

theorem exec_nop_exec {s : State} (hp : s.phase = .exec .nop) :
    exec .nop s = .next (complete s) :=
  oneStep_exec (effect := fun s => .next (complete s)) hp

/-! ## The obligations -/

/-- Settles O32: the Exec step frames ARG, whose bytes are the four it is made of. -/
theorem buildAddrFramesArgBigEndian : Obligations.BuildAddrFramesArgBigEndian := by
  refine ⟨decode_encode .buildAddr,
    fun s hp => exec_idle_of_ignoresLen (op := .buildAddr) hp (.inr (.inr (.inl rfl))),
    fun s b3 b2 b1 b0 hp ha => ?_⟩
  have hf : addrframe s.arg = [b3, b2, b1, b0, b3 ^^^ b2 ^^^ b1 ^^^ b0] :=
    ha ▸ addrframe_append b3 b2 b1 b0
  rw [exec_buildAddr_exec hp, hf]
  rfl

/-- Settles O33: acceptance tests LEN, and the Exec step frames the bytes it reads. -/
theorem buildDataFramesItsInput : Obligations.BuildDataFramesItsInput := by
  refine ⟨decode_encode .buildData, fun s hp hl => ?_, fun s hp hl hu => ?_,
    fun s p n hp hl _ hin hn => ?_⟩
  · rw [exec_buildData_idle hp, acceptPayload_of_outside hl]; rfl
  · rw [exec_buildData_idle hp, acceptPayload_of_inside hl hu]; rfl
  · have hlen : p.length = s.len.toNat := hin.1
    have hcount : n = countByte p := by rw [hn, countByte, hlen]
    rw [exec_buildData_of_inputIs hp hin, dataframe, checksum_countByte_cons (hlen ▸ hl), hcount]
    rfl

/-- Settles O31: the Exec step frames the low byte of ARG. -/
theorem buildCmdFramesTheLowByteOfArg : Obligations.BuildCmdFramesTheLowByteOfArg :=
  ⟨decode_encode .buildCmd,
    fun _ hp => exec_idle_of_ignoresLen (op := .buildCmd) hp (.inr (.inl rfl)),
    fun _ hp => exec_buildCmd_exec hp⟩

/-- Settles O34: the Exec step frames the sync byte. -/
theorem buildSyncFramesTheSyncByte : Obligations.BuildSyncFramesTheSyncByte :=
  ⟨decode_encode .buildSync,
    fun _ hp => exec_idle_of_ignoresLen (op := .buildSync) hp (.inr (.inr (.inr rfl))),
    fun _ hp => exec_buildSync_exec hp⟩

/-- Settles O35: NOP is accepted, and its Exec step is a completion. -/
theorem nopOnlyCompletes : Obligations.NopOnlyCompletes :=
  ⟨decode_encode .nop, fun _ hp => exec_idle_of_ignoresLen (op := .nop) hp (.inl rfl),
    fun _ hp => exec_nop_exec hp⟩

end Sys2Proof.Machine

/-! PROOF. SEND (42_frame_build.md R228 to R232): what each of its steps does, and the run that
transmits the rest of FRAME (R238). -/

namespace Sys2Proof.Machine

/-! ## One step -/

theorem xportFail_send {s : State} {j : Nat} (hp : s.phase = .send j) :
    xportFail s = complete { s with xerr := true } := by
  simp [xportFail, hp]

theorem sendStep_not_ready {s : State} {j : Nat} (hj : j < s.frame.length)
    (hx : s.xerrIn = false) (hr : s.txReady = false) : sendStep j s = s := by
  simp [sendStep, hj, hx, hr]

theorem sendStep_at_end (s : State) : sendStep s.frame.length s = complete s := by
  simp [sendStep]

/-- Settles O36: acceptance, then the four decisions of a step. -/
theorem sendStepsThroughTheFrame : Obligations.SendStepsThroughTheFrame := by
  refine ⟨decode_encode .send, fun s hp => exec_send_idle hp, fun s i b hp hb hx => ?_,
    fun s i b hp hb hx hr => ?_, fun s i b hp hb hx hr => ?_, fun s i hp hi => ?_⟩ <;>
    rw [exec_send hp]
  · obtain ⟨hi, -⟩ := List.getElem?_eq_some_iff.mp hb
    rw [sendStep_failed hi hx, xportFail_send hp]
    rfl
  · rw [sendStep_ready hb hx hr]
    rfl
  · obtain ⟨hi, -⟩ := List.getElem?_eq_some_iff.mp hb
    rw [sendStep_not_ready hi hx hr]
  · rw [hi, sendStep_at_end]
    rfl

/-! ## The run -/

/-- The Sequencer sends byte `i` of FRAME and goes on to byte `i + 1` (42_frame_build.md R230). -/
theorem step_emit {s : State} {i : Nat} {rest : List AgentStep} (hr : s.rst = false)
    (hs : s.schedule = .sequencer :: rest) (hp : s.phase = .send i) (hi : i < s.frame.length)
    (hx : s.xerrIn = false) (hready : s.txReady = true) :
    step s = .next (emit i s.frame[i] { s with schedule := rest }) :=
  (step_send hr hs hp).trans
    (congrArg _ (sendStep_ready (List.getElem?_eq_getElem hi) hx hready))

/-- With every byte gone the Sequencer completes SEND (42_frame_build.md R232). -/
theorem step_send_at_end {s : State} {rest : List AgentStep} (hr : s.rst = false)
    (hs : s.schedule = .sequencer :: rest) (hp : s.phase = .send s.frame.length) :
    step s = .next (complete { s with schedule := rest }) :=
  (step_send hr hs hp).trans (congrArg _ (sendStep_at_end { s with schedule := rest }))

/-- With `n` bytes of FRAME to go from byte `i` on, `n + 1` steps of the Sequencer send them and
complete (42_frame_build.md R238). -/
theorem run_send (n : Nat) {s : State} {i : Nat} {rest : List AgentStep} (hr : s.rst = false)
    (hx : s.xerrIn = false) (hready : s.txReady = true) (hp : s.phase = .send i)
    (hi : i = s.txCount) (hn : s.frame.length = i + n)
    (hs : s.schedule = List.replicate (n + 1) .sequencer ++ rest) :
    Sys2Proof.core.run (n + 1) s = .next
      { s with
        txlog := s.txlog ++ s.frame.drop i, txCount := s.frame.length
        phase := .idle, done := true, schedule := rest } := by
  induction n generalizing s i with
  | zero =>
    obtain rfl : s.frame.length = i := hn
    rw [run_succ (step_send_at_end hr hs hp), List.drop_length, List.append_nil, hi]
    rfl
  | succ n ih =>
    have hlt : i < s.frame.length := by omega
    have hn' : s.frame.length = i + 1 + n := by omega
    rw [List.drop_eq_getElem_cons hlt, List.append_cons]
    exact (run_succ (step_emit hr hs hp hlt hx hready)).trans (ih hr hx hready rfl rfl hn' rfl)

/-- Settles O37, by induction on the number of bytes still to send. -/
theorem sendTransmitsTheWholeFrameInOrder : Obligations.SendTransmitsTheWholeFrameInOrder :=
  fun s i _ hr hx hready hp hi hle hs =>
    run_send (s.frame.length - i) hr hx hready hp hi (by omega) hs

end Sys2Proof.Machine

/-! PROOF. The VALIDATE operations from their words to their verdicts (43_frame_validate.md R250 to
R262): acceptance, then the checks of a written input. -/

namespace Sys2Proof.Machine

/-! ## Acceptance and the Exec steps -/

theorem exec_idle_of_readsInput_gt {op : ExecOp} {s : State} (ho : op.readsInput)
    (hp : s.phase = .idle) (hl : 258 < s.len.toNat) :
    exec op.instr s = .next { s with lenerr := true, done := true } := by
  rw [exec_idle_of_readsInput hp ho, acceptInput_of_gt hl]
  rfl

theorem exec_idle_of_readsInput_le {op : ExecOp} {s : State} (ho : op.readsInput)
    (hp : s.phase = .idle) (hl : s.len.toNat ≤ 258) :
    exec op.instr s = .next { s with done := false, phase := .exec op } := by
  rw [exec_idle_of_readsInput hp ho, acceptInput_of_le hl]
  rfl

theorem exec_validateCmd_of_inputIs {s : State} {f : List Byte}
    (hp : s.phase = .exec .validateCmd) (h : InputIs s f) :
    exec .validateCmd s = .next (complete (cmdVerdict f s)) :=
  (oneStep_exec hp).trans (withInput_of_inputIs h _)

theorem exec_validateAddr_of_inputIs {s : State} {f : List Byte}
    (hp : s.phase = .exec .validateAddr) (h : InputIs s f) :
    exec .validateAddr s = .next (complete (addrVerdict f s)) :=
  (oneStep_exec hp).trans (withInput_of_inputIs h _)

theorem exec_validateData_of_inputIs {s : State} {f : List Byte}
    (hp : s.phase = .exec .validateData) (h : InputIs s f) :
    exec .validateData s = .next (complete (dataVerdict f s)) :=
  (oneStep_exec hp).trans (withInput_of_inputIs h _)

/-- A written input is some sequence of bytes (70_reset_and_hazards.md R377). -/
theorem InputWritten.exists_inputIs {s : State} (h : InputWritten s) : ∃ f, InputIs s f := by
  cases hf : s.ibuf.readRange 0 s.len.toNat with
  | some f => exact ⟨f, (inputIs_iff_readRange s f).mpr hf⟩
  | none =>
    obtain ⟨k, hk, hread⟩ := Memory.readRange_eq_none.mp hf
    have hsome := h k hk
    rw [← Nat.zero_add k, hread] at hsome
    cases hsome

/-! ## The checks of each validator -/

theorem cmdVerdict_of_length_ne {f : List Byte} (h : f.length ≠ 2) (s : State) :
    cmdVerdict f s = verdict false .length s := by
  obtain ⟨-, hv⟩ | ⟨_, _, rfl, -⟩ := cmdVerdict_cases f s
  · exact hv
  · exact absurd rfl h

theorem addrVerdict_of_length_ne {f : List Byte} (h : f.length ≠ 5) (s : State) :
    addrVerdict f s = verdict false .length s := by
  obtain ⟨-, hv⟩ | ⟨_, _, _, _, _, rfl, -⟩ := addrVerdict_cases f s
  · exact hv
  · exact absurd rfl h

theorem dataVerdict_of_short {f : List Byte} (h : f.length < 3) (s : State) :
    dataVerdict f s = verdict false .length s :=
  if_pos h

theorem dataVerdict_of_miscounted {f : List Byte} (h : 3 ≤ f.length)
    (hc : (f.headD 0).toNat ≠ f.length - 3) (s : State) :
    dataVerdict f s = verdict false .count s :=
  (if_neg (Nat.not_lt.mpr h)).trans (if_pos hc)

theorem dataVerdict_of_counted {n got : Byte} {body : List Byte} (hl : 1 ≤ body.length)
    (hc : n.toNat = body.length - 1) (s : State) :
    dataVerdict (n :: body ++ [got]) s =
      checkVerdict got (checksum (n :: body)) (setCsum (checksum (n :: body)) s) := by
  have hlen : (n :: body ++ [got]).length = body.length + 2 := by simp
  obtain ⟨h, -⟩ | ⟨n', body', got', hf, -, h⟩ := dataVerdict_cases (n :: body ++ [got]) s
  · omega
  · obtain ⟨rfl, rfl, rfl⟩ : n = n' ∧ body = body' ∧ got = got' := by simpa using hf
    obtain ⟨h, -⟩ | ⟨-, h⟩ := h
    · omega
    · exact h

/-- One more byte of a big-endian value, cut to 32 bits. -/
theorem shiftLeft_or_setWidth {w : Nat} (v : BitVec w) (b : Byte) :
    (v.setWidth 32 <<< 8) ||| b.setWidth 32 = (v ++ b).setWidth 32 := by
  ext k hk
  simp only [BitVec.getElem_or, BitVec.getElem_shiftLeft, BitVec.getElem_setWidth,
    BitVec.getLsbD_append]
  by_cases hb : k < 8
  · simp [hb]
  · simp [hb, BitVec.getLsbD_of_ge b k (by omega)]

/-- VADDR's value is the four bytes in a row (43_frame_validate.md R258). -/
theorem fromBigEndian_append (b0 b1 b2 b3 : Byte) :
    fromBigEndian [b0, b1, b2, b3] = (b0 ++ b1 ++ b2 ++ b3 : BitVec (8 + 8 + 8 + 8)) := by
  have h0 : ((0 : Word) <<< 8) ||| b0.setWidth 32 = b0.setWidth 32 := by simp
  simp only [fromBigEndian, List.foldl_cons, List.foldl_nil, h0, shiftLeft_or_setWidth,
    BitVec.setWidth_eq]

theorem checksum_cons_eq_foldl (n : Byte) {body : List Byte} (h : 1 ≤ body.length) :
    checksum (n :: body) = body.foldl (· ^^^ ·) n := by
  rw [checksum_fold (by simpa using h), foldl_xor, xorFold_cons]

/-! ## From the word to the verdict -/

/-- Settles O38: acceptance tests LEN, and the Exec step compares with the complement. -/
theorem validateCmdChecksTheComplement : Obligations.ValidateCmdChecksTheComplement := by
  have ho : ExecOp.readsInput .validateCmd := .inr (.inl rfl)
  refine ⟨decode_encode .validateCmd, fun s => exec_idle_of_readsInput_gt ho,
    fun s => exec_idle_of_readsInput_le ho, fun s hp hl hw => ?_, fun s b0 b1 hp hl h0 h1 => ?_⟩
  · obtain ⟨f, hf⟩ := hw.exists_inputIs
    rw [exec_validateCmd_of_inputIs hp hf, cmdVerdict_of_length_ne (hf.1.trans_ne hl)]
    rfl
  · have hf : InputIs s [b0, b1] := by
      simp [inputIs_iff_readRange, hl, Memory.readRange, h0, h1]
    rw [exec_validateCmd_of_inputIs hp hf, cmdVerdict, checksum_single, checkVerdict]
    split <;> rfl

/-- Settles O39: acceptance tests LEN, and the Exec step compares with the XOR of the four address
bytes, which in a row are VADDR. -/
theorem validateAddrChecksTheXorAndDecodes : Obligations.ValidateAddrChecksTheXorAndDecodes := by
  have ho : ExecOp.readsInput .validateAddr := .inr (.inr (.inl rfl))
  refine ⟨decode_encode .validateAddr, fun s => exec_idle_of_readsInput_gt ho,
    fun s => exec_idle_of_readsInput_le ho, fun s hp hl hw => ?_,
    fun s b0 b1 b2 b3 b4 c hp hl h0 h1 h2 h3 h4 hc => ?_⟩
  · obtain ⟨f, hf⟩ := hw.exists_inputIs
    rw [exec_validateAddr_of_inputIs hp hf, addrVerdict_of_length_ne (hf.1.trans_ne hl)]
    rfl
  · have hf : InputIs s [b0, b1, b2, b3, b4] := by
      simp [inputIs_iff_readRange, hl, Memory.readRange, h0, h1, h2, h3, h4]
    have hsum : checksum [b0, b1, b2, b3] = c := (checksum_cons_eq_foldl b0 (by simp)).trans hc.symm
    rw [exec_validateAddr_of_inputIs hp hf, addrVerdict, checkAddrVerdict, hsum,
      fromBigEndian_append]
    split <;> rfl

/-- Settles O40: acceptance tests LEN, and the Exec step makes the three checks in their order. -/
theorem validateDataChecksLengthCountChecksum :
    Obligations.ValidateDataChecksLengthCountChecksum := by
  have ho : ExecOp.readsInput .validateData := .inr (.inr (.inr rfl))
  refine ⟨decode_encode .validateData, fun s => exec_idle_of_readsInput_gt ho,
    fun s => exec_idle_of_readsInput_le ho, fun s hp hl hw => ?_, fun s b0 hp hl hw h0 hc => ?_,
    fun s n body got c hp hl hf hn hc => ?_⟩
  · obtain ⟨f, hf⟩ := hw.exists_inputIs
    rw [exec_validateData_of_inputIs hp hf, dataVerdict_of_short (hf.1.trans_lt hl)]
    rfl
  · obtain ⟨f, hf⟩ := hw.exists_inputIs
    have hlen : f.length = s.len.toNat := hf.1
    have hhead : f.headD 0 = b0 := by
      rw [List.headD_eq_head?_getD, List.head?_eq_getElem?, ← hf.2 0 (by omega), h0]
      rfl
    rw [exec_validateData_of_inputIs hp hf,
      dataVerdict_of_miscounted (hlen ▸ hl) (by rwa [hhead, hlen])]
    rfl
  · have hlen : body.length + 2 = s.len.toNat := by simpa using hf.1
    have hbody : 1 ≤ body.length := by omega
    rw [exec_validateData_of_inputIs hp hf, dataVerdict_of_counted hbody (by omega),
      checksum_cons_eq_foldl n hbody, ← hc, checkVerdict]
    split <;> rfl

end Sys2Proof.Machine

/-! PROOF. The laws of the validators (43_frame_validate.md R264, R266). A frame's verdict code
depends on its length, a data frame's count byte, and the XOR of the whole frame
(41_checksum.md R194), which a change of bits in one byte changes by those bits. -/

namespace Sys2Proof.Machine

/-! ## The verdict code of a frame -/

/-- STATUS shows verdict code `v`: VERR is `v`, and VALID is 1 for OK alone
(43_frame_validate.md R250). -/
def ShowsVerdict (v : Verr) (t : State) : Prop := t.verr = v ∧ t.valid = decide (v = .ok)

theorem ShowsVerdict.valid_iff {v : Verr} {t : State} (h : ShowsVerdict v t) :
    t.valid = true ↔ v = .ok := by
  rw [h.2, decide_eq_true_iff]

theorem ShowsVerdict.rejects {v : Verr} {t : State} (h : ShowsVerdict v t) (hv : v ≠ .ok) :
    t.valid = false ∧ t.verr = v :=
  ⟨h.2.trans (decide_eq_false hv), h.1⟩

/-- The checksum check as a check of the whole frame's XOR (41_checksum.md R194). -/
def xorCode (want : Byte) (f : List Byte) : Verr := if xorFold f = want then .ok else .checksum

/-- The verdict code of VALIDATE_CMD on `f` (43_frame_validate.md R254). -/
def cmdCode (f : List Byte) : Verr := if f.length = 2 then xorCode 0xFF f else .length

/-- The verdict code of VALIDATE_ADDR on `f` (43_frame_validate.md R258). -/
def addrCode (f : List Byte) : Verr := if f.length = 5 then xorCode 0x00 f else .length

/-- The first byte of a data frame is its payload's length less one (43_frame_validate.md R262). -/
abbrev Counted (f : List Byte) : Prop := (f.headD 0).toNat = f.length - 3

/-- The verdict code of VALIDATE_DATA on `f` (43_frame_validate.md R262). -/
def dataCode (f : List Byte) : Verr :=
  if f.length < 3 then .length else if Counted f then xorCode 0x00 f else .count

theorem checkVerdict_shows (got c : Byte) (s : State) :
    ShowsVerdict (if got = c then .ok else .checksum) (checkVerdict got c s) := by
  obtain ⟨hc, h⟩ | ⟨hc, h⟩ := checkVerdict_cases got c s <;> rw [h]
  · rw [if_pos hc]; exact ⟨rfl, rfl⟩
  · rw [if_neg hc]; exact ⟨rfl, rfl⟩

theorem checkAddrVerdict_shows (bs : List Byte) (got : Byte) (s : State) :
    ShowsVerdict (if got = checksum bs then .ok else .checksum) (checkAddrVerdict bs got s) := by
  obtain ⟨hc, h⟩ | ⟨hc, h⟩ := checkAddrVerdict_cases bs got s <;> rw [h]
  · rw [if_pos hc]; exact ⟨rfl, rfl⟩
  · rw [if_neg hc]; exact ⟨rfl, rfl⟩

/-- An XOR fold with a last byte is 0 exactly where that byte is the checksum of the rest
(41_checksum.md R194). -/
theorem xorFold_concat_eq_zero_iff {bs : List Byte} (h : 2 ≤ bs.length) (got : Byte) :
    xorFold (bs ++ [got]) = 0x00 ↔ got = checksum bs := by
  have hgot : xorFold [got] = got := BitVec.zero_xor
  rw [xorFold_append, ← checksum_fold h, hgot]
  exact BitVec.xor_eq_zero_iff.trans eq_comm

/-- Two bytes have XOR 0xFF exactly where one is the other's complement (41_checksum.md R194). -/
theorem xorFold_pair_eq_ff_iff (b0 b1 : Byte) : xorFold [b0, b1] = 0xFF ↔ b1 = ~~~b0 := by
  rw [← xorFold_cmdframe b0, cmdframe]
  simp

theorem xorCode_eq_ok_iff {want : Byte} {f : List Byte} :
    xorCode want f = .ok ↔ xorFold f = want := by
  unfold xorCode
  split <;> simp [*]

theorem xorCode_concat {bs : List Byte} (h : 2 ≤ bs.length) (got : Byte) :
    xorCode 0x00 (bs ++ [got]) = if got = checksum bs then .ok else .checksum := by
  simp only [xorCode, xorFold_concat_eq_zero_iff h]

theorem cmdVerdict_shows (f : List Byte) (s : State) :
    ShowsVerdict (cmdCode f) (cmdVerdict f s) := by
  obtain ⟨hl, h⟩ | ⟨b0, b1, rfl, h⟩ := cmdVerdict_cases f s <;> rw [h]
  · rw [cmdCode, if_neg hl]; exact ⟨rfl, rfl⟩
  · simp only [cmdCode, xorCode, xorFold_pair_eq_ff_iff]
    exact checkVerdict_shows b1 (~~~b0) _

theorem addrVerdict_shows (f : List Byte) (s : State) :
    ShowsVerdict (addrCode f) (addrVerdict f s) := by
  obtain ⟨hl, h⟩ | ⟨b0, b1, b2, b3, b4, rfl, h⟩ := addrVerdict_cases f s <;> rw [h]
  · rw [addrCode, if_neg hl]; exact ⟨rfl, rfl⟩
  · have hcode : addrCode [b0, b1, b2, b3, b4] = _ :=
      xorCode_concat (bs := [b0, b1, b2, b3]) (by simp) b4
    rw [hcode]
    exact checkAddrVerdict_shows ..

theorem dataVerdict_shows (f : List Byte) (s : State) :
    ShowsVerdict (dataCode f) (dataVerdict f s) := by
  obtain ⟨hl, h⟩ | ⟨n, body, got, rfl, hl, hcase⟩ := dataVerdict_cases f s
  · rw [h, dataCode, if_pos hl]; exact ⟨rfl, rfl⟩
  · have hlen : ¬ (n :: body ++ [got]).length < 3 := by simp; omega
    rw [dataCode, if_neg hlen]
    obtain ⟨hc, h⟩ | ⟨hc, h⟩ := hcase <;> rw [h]
    · rw [if_neg (show ¬ Counted (n :: body ++ [got]) from hc)]; exact ⟨rfl, rfl⟩
    · rw [if_pos (show Counted (n :: body ++ [got]) from hc), xorCode_concat (by simpa using hl)]
      exact checkVerdict_shows ..

/-! ## Built frames -/

theorem xorFold_addrframe (a : Word) : xorFold (addrframe a) = 0x00 :=
  xorFold_append_checksum (s := bigEndian a) (by simp [bigEndian])

theorem xorFold_dataframe {p : List Byte} (hl : 1 ≤ p.length) : xorFold (dataframe p) = 0x00 :=
  xorFold_append_checksum (s := countByte p :: p) (by simpa using hl)

theorem counted_dataframe {p : List Byte} (hu : p.length ≤ 256) : Counted (dataframe p) := by
  have hhead : (dataframe p).headD 0 = countByte p := rfl
  rw [Counted, hhead, countByte_toNat hu, dataframe_length]
  omega

theorem fromBigEndian_bigEndian (a : Word) : fromBigEndian (bigEndian a) = a := by
  obtain ⟨b3, b2, b1, b0, rfl⟩ := exists_eq_append a
  rw [bigEndian_append, fromBigEndian_append]

/-- A built address frame passes, and its address goes to VADDR (43_frame_validate.md R264). -/
theorem addrVerdict_addrframe (a : Word) (s : State) :
    addrVerdict (addrframe a) s =
      verdict true .ok (setVaddr a (setCsum (checksum (bigEndian a)) s)) := by
  have h : addrVerdict (addrframe a) s =
      verdict true .ok (setVaddr (fromBigEndian (bigEndian a))
        (setCsum (checksum (bigEndian a)) s)) := if_pos rfl
  rw [h, fromBigEndian_bigEndian]

/-! ## The frames with code OK (43_frame_validate.md R264) -/

theorem cmdCode_eq_ok_iff (f : List Byte) : cmdCode f = .ok ↔ ∃ c, f = cmdframe c := by
  constructor
  · intro h
    have hlen : f.length = 2 := by_contra fun hl => by simp [cmdCode, hl] at h
    rw [cmdCode, if_pos hlen, xorCode_eq_ok_iff] at h
    obtain ⟨b0, b1, rfl⟩ := List.length_eq_two.mp hlen
    rw [(xorFold_pair_eq_ff_iff b0 b1).mp h]
    exact ⟨b0, rfl⟩
  · rintro ⟨c, rfl⟩
    exact xorCode_eq_ok_iff.mpr (xorFold_cmdframe c)

theorem addrCode_eq_ok_iff (f : List Byte) : addrCode f = .ok ↔ ∃ a, f = addrframe a := by
  constructor
  · intro h
    have hlen : f.length = 5 := by_contra fun hl => by simp [addrCode, hl] at h
    rw [addrCode, if_pos hlen, xorCode_eq_ok_iff] at h
    match f, hlen, h with
    | [b0, b1, b2, b3, b4], _, h =>
      rw [(xorFold_concat_eq_zero_iff (bs := [b0, b1, b2, b3]) (by simp) b4).mp h]
      exact ⟨_, by rw [addrframe, bigEndian_append b0 b1 b2 b3]; rfl⟩
  · rintro ⟨a, rfl⟩
    exact xorCode_eq_ok_iff.mpr (xorFold_addrframe a)

/-- Past the length check a data frame has a first and a last byte, and bytes between them. -/
theorem exists_eq_cons_concat {f : List Byte} (h : 3 ≤ f.length) :
    ∃ n body got, f = n :: body ++ [got] ∧ 1 ≤ body.length := by
  obtain ⟨n, r, rfl⟩ := List.exists_cons_of_length_pos (show 0 < f.length by omega)
  obtain rfl | ⟨body, got, rfl⟩ := r.eq_nil_or_concat
  · simp at h
  · exact ⟨n, body, got, by simp, by simp at h; omega⟩

theorem dataCode_of_counted {f : List Byte} (hl : 3 ≤ f.length) (hc : Counted f) :
    dataCode f = xorCode 0x00 f := by
  rw [dataCode, if_neg (Nat.not_lt.mpr hl), if_pos hc]

theorem dataCode_of_not_counted {f : List Byte} (hl : 3 ≤ f.length) (hc : ¬ Counted f) :
    dataCode f = .count := by
  rw [dataCode, if_neg (Nat.not_lt.mpr hl), if_neg hc]

theorem dataCode_eq_ok_iff (f : List Byte) :
    dataCode f = .ok ↔ ∃ p, 1 ≤ p.length ∧ p.length ≤ 256 ∧ f = dataframe p := by
  constructor
  · intro h
    have hlen : 3 ≤ f.length := by_contra fun hl => by simp [dataCode, Nat.lt_of_not_le hl] at h
    have hc : Counted f := by_contra fun hc => by simp [dataCode_of_not_counted hlen hc] at h
    rw [dataCode_of_counted hlen hc, xorCode_eq_ok_iff] at h
    obtain ⟨n, body, got, rfl, hl⟩ := exists_eq_cons_concat hlen
    have hn : n.toNat = body.length - 1 := by simpa [Counted] using hc
    have hu : body.length ≤ 256 := by have := n.isLt; omega
    obtain rfl : n = countByte body := BitVec.eq_of_toNat_eq (hn.trans (countByte_toNat hu).symm)
    rw [(xorFold_concat_eq_zero_iff (bs := countByte body :: body) (by simpa using hl) got).mp h]
    exact ⟨body, hl, hu, rfl⟩
  · rintro ⟨p, hl, hu, rfl⟩
    rw [dataCode_of_counted (by simp; omega) (counted_dataframe hu), xorCode_eq_ok_iff]
    exact xorFold_dataframe hl

/-- Settles O41: a verdict is OK exactly on a built frame, and an address frame's address is
VADDR. -/
theorem validatorsAcceptExactlyTheBuiltFrames :
    Obligations.ValidatorsAcceptExactlyTheBuiltFrames := by
  refine ⟨fun s f hp hf => ⟨_, exec_validateCmd_of_inputIs hp hf, ?_⟩,
    fun s f hp hf => ⟨_, exec_validateAddr_of_inputIs hp hf, ?_, ?_⟩,
    fun s f hp hf => ⟨_, exec_validateData_of_inputIs hp hf, ?_⟩⟩
  · exact (cmdVerdict_shows f s).valid_iff.trans (cmdCode_eq_ok_iff f)
  · exact (addrVerdict_shows f s).valid_iff.trans (addrCode_eq_ok_iff f)
  · rintro a rfl
    rw [addrVerdict_addrframe]
    rfl
  · exact (dataVerdict_shows f s).valid_iff.trans (dataCode_eq_ok_iff f)

/-! ## Changed bits (43_frame_validate.md R266) -/

@[simp] theorem flipBits_length (i : Nat) (d : Byte) (f : List Byte) :
    (flipBits i d f).length = f.length := List.length_modify ..

theorem xorFold_flipBits (d : Byte) {f : List Byte} {i : Nat} (hi : i < f.length) :
    xorFold (flipBits i d f) = xorFold f ^^^ d := by
  rw [flipBits, List.modify_eq_take_cons_drop hi]
  conv => rhs; rw [← List.take_append_drop i f, List.drop_eq_getElem_cons hi]
  simp only [xorFold_append, xorFold_cons]
  ac_rfl

/-- The same bits changed in two bytes cancel in the XOR. -/
theorem xorFold_flipBits_flipBits (d : Byte) {f : List Byte} {i j : Nat} (hi : i < f.length)
    (hj : j < f.length) : xorFold (flipBits i d (flipBits j d f)) = xorFold f := by
  rw [xorFold_flipBits d (by simpa using hi), xorFold_flipBits d hj, BitVec.xor_assoc,
    BitVec.xor_self, BitVec.xor_zero]

theorem xor_ne_self {b d : Byte} (hd : d ≠ 0) : b ^^^ d ≠ b := by
  simpa using hd

theorem xorCode_flipBits {want d : Byte} {f : List Byte} {i : Nat} (hf : xorFold f = want)
    (hi : i < f.length) (hd : d ≠ 0) : xorCode want (flipBits i d f) = .checksum := by
  rw [xorCode, xorFold_flipBits d hi, hf, if_neg (xor_ne_self hd)]

theorem headD_flipBits {i : Nat} (hi : i ≠ 0) (d : Byte) (f : List Byte) :
    (flipBits i d f).headD 0 = f.headD 0 := by
  obtain ⟨i, rfl⟩ := Nat.exists_eq_succ_of_ne_zero hi
  cases f <;> rfl

theorem counted_flipBits {i : Nat} (hi : i ≠ 0) (d : Byte) {f : List Byte} :
    Counted (flipBits i d f) ↔ Counted f := by
  rw [Counted, headD_flipBits hi, flipBits_length]

/-- A changed count byte no longer counts the payload. -/
theorem not_counted_flipBits_zero {d : Byte} {f : List Byte} (hf : f ≠ []) (hc : Counted f)
    (hd : d ≠ 0) : ¬ Counted (flipBits 0 d f) := by
  cases f with
  | nil => exact absurd rfl hf
  | cons n r =>
    intro hc'
    exact xor_ne_self hd (BitVec.eq_of_toNat_eq (hc'.trans hc.symm))

/-- A changed data frame fails the count check where byte 0 changed, else the checksum decides. -/
theorem dataCode_flipBits {i : Nat} {d : Byte} {f : List Byte} (hl : 3 ≤ f.length)
    (hc : Counted f) (hd : d ≠ 0) :
    dataCode (flipBits i d f) = if i = 0 then .count else xorCode 0x00 (flipBits i d f) := by
  have hl' : 3 ≤ (flipBits i d f).length := by simpa using hl
  split
  · subst i
    exact dataCode_of_not_counted hl'
      (not_counted_flipBits_zero (List.ne_nil_of_length_pos (by omega)) hc hd)
  · exact dataCode_of_counted hl' ((counted_flipBits ‹_› d).mpr hc)

theorem cmdCode_flipBits {i : Nat} {d : Byte} (hi : i < 2) (hd : d ≠ 0) (c : Byte) :
    cmdCode (flipBits i d (cmdframe c)) = .checksum :=
  (if_pos (flipBits_length ..)).trans (xorCode_flipBits (xorFold_cmdframe c) hi hd)

theorem addrCode_flipBits {i : Nat} {d : Byte} (hi : i < 5) (hd : d ≠ 0) (a : Word) :
    addrCode (flipBits i d (addrframe a)) = .checksum :=
  (if_pos (flipBits_length ..)).trans (xorCode_flipBits (xorFold_addrframe a) hi hd)

theorem addrCode_flipBits_flipBits {i j : Nat} (hi : i < 5) (hj : j < 5) (d : Byte) (a : Word) :
    addrCode (flipBits i d (flipBits j d (addrframe a))) = .ok := by
  have hxor : xorFold (flipBits i d (flipBits j d (addrframe a))) = 0x00 :=
    (xorFold_flipBits_flipBits d hi hj).trans (xorFold_addrframe a)
  have hlen : (flipBits i d (flipBits j d (addrframe a))).length = 5 := by simp
  exact (if_pos hlen).trans (xorCode_eq_ok_iff.mpr hxor)

section
variable {p : List Byte} {i j : Nat} {d : Byte}

theorem dataCode_flipBits_dataframe (hl : 1 ≤ p.length) (hu : p.length ≤ 256)
    (hi : i < p.length + 2) (hd : d ≠ 0) :
    dataCode (flipBits i d (dataframe p)) = if i = 0 then .count else .checksum := by
  rw [dataCode_flipBits (by simp; omega) (counted_dataframe hu) hd,
    xorCode_flipBits (xorFold_dataframe hl) (by simpa using hi) hd]

theorem dataCode_flipBits_flipBits (hl : 1 ≤ p.length) (hu : p.length ≤ 256) (hij : i < j)
    (hj : j < p.length + 2) (hd : d ≠ 0) :
    dataCode (flipBits i d (flipBits j d (dataframe p))) = if i = 0 then .count else .ok := by
  have hxor : xorFold (flipBits i d (flipBits j d (dataframe p))) = 0x00 :=
    (xorFold_flipBits_flipBits d (by simp; omega) (by simpa using hj)).trans (xorFold_dataframe hl)
  have hc : Counted (flipBits j d (dataframe p)) :=
    (counted_flipBits (by omega) d).mpr (counted_dataframe hu)
  rw [dataCode_flipBits (by simp; omega) hc hd, xorCode_eq_ok_iff.mpr hxor]

end

/-- Settles O42: changed bits of one byte stay in the XOR, in two bytes they cancel, and a changed
count byte fails the count check before. -/
theorem checkByteDetectsOneByteChanges : Obligations.CheckByteDetectsOneByteChanges := by
  refine ⟨fun s a i d hp hi hd hf => ⟨_, exec_validateAddr_of_inputIs hp hf, ?_⟩,
    fun s p i d hp hl hu hi hd hf => ⟨_, exec_validateData_of_inputIs hp hf, ?_⟩,
    fun s c i d hp hi hd hf => ⟨_, exec_validateCmd_of_inputIs hp hf, ?_⟩,
    fun s a i j d hp hij hj hf => ⟨_, exec_validateAddr_of_inputIs hp hf, ?_⟩,
    fun s p i j d hp hl hu hij hj hd hf => ⟨_, exec_validateData_of_inputIs hp hf, ?_⟩⟩
  · exact (addrCode_flipBits hi hd a ▸ addrVerdict_shows _ s).rejects nofun
  · exact (dataCode_flipBits_dataframe hl hu hi hd ▸ dataVerdict_shows _ s).rejects
      (by split <;> nofun)
  · exact (cmdCode_flipBits hi hd c ▸ cmdVerdict_shows _ s).rejects nofun
  · exact (addrVerdict_shows _ s).valid_iff.mpr
      (addrCode_flipBits_flipBits (hij.trans hj) hj d a)
  · refine (dataVerdict_shows _ s).valid_iff.trans ?_
    rw [dataCode_flipBits_flipBits hl hu hij hj hd]
    split <;> simp [*]

end Sys2Proof.Machine

/-! PROOF. The acknowledgment detector (44_ack_detect.md R282 to R298): acceptance of a wait and the
decisions of its step, then the run that collects bytes up to a terminator and the run that times
out. -/

namespace Sys2Proof.Machine

/-! ## One step of a running wait -/

/-- How a wait of mode `m` classifies the byte it took (44_ack_detect.md R288, R298). -/
def WaitMode.classify : WaitMode → Byte → State → State
  | .normal => classifyNormal
  | .first => classifyFirst

theorem exec_wait_eq {s : State} {m : WaitMode} (hp : s.phase = .wait m) :
    exec m.instr s = .next (waitStep m.classify s) := by
  cases m <;> simp [WaitMode.instr, WaitMode.classify, exec, execAckWait, execAckWaitFirst, hp]

theorem xportFail_wait {s : State} {m : WaitMode} (hp : s.phase = .wait m) :
    xportFail s = complete { s with xerr := true, ackres := .timedOut } := by
  simp [xportFail, hp]

theorem exec_wait_failed {s : State} {m : WaitMode} (hp : s.phase = .wait m)
    (hx : s.xerrIn = true) :
    exec m.instr s = .next (complete { s with xerr := true, ackres := .timedOut }) := by
  rw [exec_wait_eq hp, ← xportFail_wait hp]
  simp [waitStep, hx]

theorem exec_wait_timedOut {s : State} {m : WaitMode} (hp : s.phase = .wait m)
    (hx : s.xerrIn = false) (he : s.deadline.toNat < s.elapsed) :
    exec m.instr s = .next (finish .timedOut s) := by
  rw [exec_wait_eq hp]
  simp [waitStep, hx, deadlineOperand, he]

theorem exec_wait_noByte {s : State} {m : WaitMode} (hp : s.phase = .wait m)
    (hx : s.xerrIn = false) (he : s.elapsed ≤ s.deadline.toNat) (hq : s.rxq = []) :
    exec m.instr s = .next s := by
  rw [exec_wait_eq hp]
  simp [waitStep, hx, deadlineOperand, Nat.not_lt_of_le he, hq]

theorem exec_wait_byte {s : State} {m : WaitMode} {b : Byte} {q : List Byte}
    (hp : s.phase = .wait m) (hx : s.xerrIn = false) (he : s.elapsed ≤ s.deadline.toNat)
    (hq : s.rxq = b :: q) : exec m.instr s = .next (m.classify b (consume q s)) := by
  rw [exec_wait_eq hp]
  simp [waitStep, hx, deadlineOperand, Nat.not_lt_of_le he, hq]

/-! ## The byte taken -/

theorem append_of_room {s : State} (h : s.diag.length < s.diagCap) (b : Byte) :
    append b s = { s with diag := s.diag ++ [b] } :=
  if_pos h

theorem append_of_full {s : State} (h : s.diagCap ≤ s.diag.length) (b : Byte) :
    append b s = { s with dovf := true, diagDrop := satInc s.diagDrop } :=
  if_neg (Nat.not_lt_of_le h)

theorem classifyNormal_ack (s : State) : classifyNormal ackByte s = finish .acked s := rfl

theorem classifyNormal_nack (s : State) : classifyNormal nackByte s = finish .nacked s := rfl

theorem classifyNormal_other {b : Byte} (ha : b ≠ ackByte) (hn : b ≠ nackByte) (s : State) :
    classifyNormal b s = append b s :=
  (if_neg ha).trans (if_neg hn)

theorem classifyFirst_ack (s : State) : classifyFirst ackByte s = finish .acked s := rfl

theorem classifyFirst_other {b : Byte} (ha : b ≠ ackByte) (s : State) :
    classifyFirst b s = finish .nacked (append b s) :=
  if_neg ha

/-! ## The obligations about one step -/

/-- Settles O43: acceptance of each mode, and the timeout at ELAPSED = 1 > 0 = DEADLINE. -/
theorem waitAcceptanceStartsAFreshBuffer : Obligations.WaitAcceptanceStartsAFreshBuffer := by
  refine ⟨decode_encode .ackWait, decode_encode .ackWaitFirst,
    fun s hp => exec_wait_idle (m := .normal) hp, fun s hp => exec_wait_idle (m := .first) hp,
    fun s hp hx hd he => exec_wait_timedOut (m := .normal) hp hx ?_⟩
  simp [hd, he]

/-- Settles O44: the decisions in their order, the byte's by its class and by the room in DIAG. -/
theorem ackWaitDecidesFailureThenTimeoutThenByte :
    Obligations.AckWaitDecidesFailureThenTimeoutThenByte := by
  refine fun s hp => ⟨exec_wait_failed (m := .normal) hp, exec_wait_timedOut (m := .normal) hp,
    exec_wait_noByte (m := .normal) hp, fun b q hx he hq => ?_⟩
  have hbyte : exec .ackWait s = .next (classifyNormal b (consume q s)) :=
    exec_wait_byte (m := .normal) hp hx he hq
  rw [hbyte]
  refine ⟨?_, ?_, fun ha hn hroom => ?_, fun ha hn hfull => ?_⟩
  · rintro rfl
    exact congrArg _ (classifyNormal_ack _)
  · rintro rfl
    exact congrArg _ (classifyNormal_nack _)
  · rw [classifyNormal_other ha hn, append_of_room (s := consume q s) hroom]
    rfl
  · rw [classifyNormal_other ha hn, append_of_full (s := consume q s) hfull]
    rfl

/-- Settles O45: the decisions in their order; the byte taken ends the wait, and is kept or dropped
where it is not an ACK. -/
theorem ackWaitFirstEndsAtTheFirstByte : Obligations.AckWaitFirstEndsAtTheFirstByte := by
  refine fun s hp => ⟨exec_wait_failed (m := .first) hp, exec_wait_timedOut (m := .first) hp,
    exec_wait_noByte (m := .first) hp, fun b q hx he hq => ?_⟩
  have hbyte : exec .ackWaitFirst s = .next (classifyFirst b (consume q s)) :=
    exec_wait_byte (m := .first) hp hx he hq
  rw [hbyte]
  refine ⟨?_, fun ha hroom => ?_, fun ha hfull => ?_⟩
  · rintro rfl
    exact congrArg _ (classifyFirst_ack _)
  · rw [classifyFirst_other ha, append_of_room (s := consume q s) hroom]
    rfl
  · rw [classifyFirst_other ha, append_of_full (s := consume q s) hfull]
    rfl

/-! ## Many bytes appended -/

/-- `s` after the bytes `xs` have been appended to DIAG (44_ack_detect.md R290): the first of them up
to its capacity are kept, and the rest are counted in DIAG_DROP, which saturates. -/
def collect (xs : List Byte) (s : State) : State :=
  { s with
    diag := s.diag ++ xs.take (s.diagCap - s.diag.length)
    diagDrop := BitVec.ofNat 16
      (min (s.diagDrop.toNat + (xs.length - (s.diagCap - s.diag.length))) 0xFFFF)
    dovf := s.dovf || decide (s.diagCap - s.diag.length < xs.length) }

theorem ofNat_min_toNat (d : BitVec 16) : BitVec.ofNat 16 (min d.toNat 0xFFFF) = d := by
  have hd : d.toNat ≤ 0xFFFF := Nat.le_of_lt_succ d.isLt
  rw [Nat.min_eq_left hd, BitVec.ofNat_toNat, BitVec.setWidth_eq]

@[simp] theorem collect_nil (s : State) : collect [] s = s := by
  simp [collect, ofNat_min_toNat]

/-- Collecting is appending one byte after another. -/
theorem collect_cons (x : Byte) (xs : List Byte) {s : State} (h : s.diag.length ≤ s.diagCap) :
    collect (x :: xs) s = collect xs (append x s) := by
  obtain hroom | hfull := Nat.lt_or_ge s.diag.length s.diagCap
  · obtain ⟨k, hk⟩ := Nat.exists_eq_add_one.mpr (Nat.sub_pos_of_lt hroom)
    have hk' : s.diagCap - (s.diag.length + 1) = k := by omega
    simp [append_of_room hroom, collect, hk, hk']
  · have hk : s.diagCap - s.diag.length = 0 := by omega
    have hmin : min (min (s.diagDrop.toNat + 1) 0xFFFF + xs.length) 0xFFFF =
        min (s.diagDrop.toNat + (xs.length + 1)) 0xFFFF := by omega
    simp [append_of_full hfull, collect, hk, satInc_toNat, hmin]

theorem append_diag_length_le {s : State} (h : s.diag.length ≤ s.diagCap) (x : Byte) :
    (append x s).diag.length ≤ (append x s).diagCap := by
  obtain ⟨hroom, ha⟩ | ⟨-, ha⟩ := append_cases x s <;> rw [ha]
  · simpa using hroom
  · exact h

/-- What is appended does not depend on `rxq` and the schedule, and leaves them. -/
theorem append_setQueues (x : Byte) (s : State) (q : List Byte) (l : List AgentStep) :
    append x { s with rxq := q, schedule := l } =
      { append x s with rxq := q, schedule := l } := by
  simp only [append]
  split <;> rfl

/-! ## The run to a terminator -/

theorem step_wait_byte {s : State} {m : WaitMode} {b : Byte} {q : List Byte}
    {l : List AgentStep} (hr : s.rst = false) (hs : s.schedule = .sequencer :: l)
    (hp : s.phase = .wait m) (hx : s.xerrIn = false) (he : s.elapsed ≤ s.deadline.toNat)
    (hq : s.rxq = b :: q) :
    step s = .next (m.classify b { s with rxq := q, schedule := l }) := by
  rw [step_sequencer hr hs (by rw [hp]; exact running_wait m)]
  exact exec_wait_byte (s := { s with schedule := l }) hp hx he hq

/-- With the bytes `xs`, none of them a terminator, before byte `b` in `rxq`, the run of ACK_WAIT
collects them and then classifies `b` (44_ack_detect.md R288, R290). -/
theorem run_collect (xs : List Byte) {s : State} {b : Byte} {q : List Byte} {l : List AgentStep}
    (hr : s.rst = false) (hx : s.xerrIn = false) (hp : s.phase = .wait .normal)
    (he : s.elapsed ≤ s.deadline.toNat) (hq : s.rxq = xs ++ b :: q)
    (hxs : ∀ x ∈ xs, x ≠ ackByte ∧ x ≠ nackByte) (hd : s.diag.length ≤ s.diagCap)
    (hs : s.schedule = List.replicate (xs.length + 1) .sequencer ++ l) :
    Sys2Proof.core.run (xs.length + 1) s =
      .next (classifyNormal b (collect xs { s with rxq := q, schedule := l })) := by
  induction xs generalizing s with
  | nil =>
    rw [collect_nil]
    exact run_succ (step_wait_byte hr hs hp hx he hq)
  | cons x xs ih =>
    obtain ⟨⟨ha, hn⟩, hxs⟩ := List.forall_mem_cons.mp hxs
    have hstep := step_wait_byte hr hs hp hx he hq
    rw [WaitMode.classify, classifyNormal_other ha hn, append_setQueues] at hstep
    rw [collect_cons x xs (s := { s with rxq := q, schedule := l }) hd, append_setQueues]
    exact (run_succ hstep).trans
      (ih (by simpa) (by simpa) (by simpa) (by simpa) rfl hxs (append_diag_length_le hd x) rfl)

/-- Settles O46, by induction on the bytes before the terminator. -/
theorem waitCollectsUntilItsTerminator : Obligations.WaitCollectsUntilItsTerminator := by
  intro s xs q b r l hr hx hp he hq hxs hb hd hs
  rw [run_collect xs hr hx hp he hq hxs hd hs]
  obtain ⟨rfl, rfl⟩ | ⟨rfl, rfl⟩ := hb
  · exact congrArg _ (classifyNormal_ack _)
  · exact congrArg _ (classifyNormal_nack _)

/-! ## The run to a timeout -/

/-- While the deadline has not passed, `n` ticks of a wait count `n` (44_ack_detect.md R284). -/
theorem run_ticks (n k : Nat) {s : State} {m : WaitMode} {l : List AgentStep}
    (hr : s.rst = false) (hp : s.phase = .wait m) (he : s.elapsed + n ≤ s.deadline.toNat + 1)
    (hs : s.schedule = List.replicate n .time ++ l) :
    Sys2Proof.core.run (n + k) s =
      Sys2Proof.core.run k { s with elapsed := s.elapsed + n, schedule := l } := by
  induction n generalizing s with
  | zero =>
    obtain rfl : s.schedule = l := hs
    rw [Nat.zero_add]
    rfl
  | succ n ih =>
    have hn : s.elapsed + 1 + n = s.elapsed + (n + 1) := by omega
    have hstep := tickCountsOnlyInWait.1 s m _ hr hs hp (by omega)
    rw [Nat.add_right_comm, run_succ hstep, ← hn]
    exact ih hr hp (hn ▸ he) rfl

theorem step_wait_timedOut {s : State} {m : WaitMode} {l : List AgentStep} (hr : s.rst = false)
    (hs : s.schedule = .sequencer :: l) (hp : s.phase = .wait m) (hx : s.xerrIn = false)
    (he : s.deadline.toNat < s.elapsed) :
    step s = .next (finish .timedOut { s with schedule := l }) := by
  rw [step_sequencer hr hs (by rw [hp]; exact running_wait m)]
  exact exec_wait_timedOut (s := { s with schedule := l }) hp hx he

/-- Settles O47: the ticks pass the deadline, and the Sequencer's step is then the timeout. -/
theorem waitTimesOutAfterItsDeadline : Obligations.WaitTimesOutAfterItsDeadline := by
  intro s m l hr hx hp he hs
  have hsum : s.elapsed + (s.deadline.toNat + 1 - s.elapsed) = s.deadline.toNat + 1 := by omega
  rw [run_ticks _ 1 hr hp hsum.le hs, hsum]
  exact run_succ (step_wait_timedOut hr rfl hp hx (Nat.lt_succ_self _))

end Sys2Proof.Machine

/-! PROOF. The error bits of STATUS (60_exceptions.md R332) and what a failed transport does to a
SEND and to a wait (R334). Only the STATUS write and reset clear an error bit. No operation reads
one, so clearing all four before an operation changes at most these four bits of its answer. -/

namespace Sys2Proof.Machine

/-! ## A failed transport -/

/-- Settles O48: in SEND and in a wait of either mode the step is `xport_fail`. -/
theorem transportFailureEndsSendAndWait : Obligations.TransportFailureEndsSendAndWait := by
  refine ⟨fun s j hp hj hx => ?_, fun s hp hx => exec_wait_failed (m := .normal) hp hx,
    fun s hp hx => exec_wait_failed (m := .first) hp hx⟩
  rw [exec_send hp, sendStep_failed hj hx, xportFail_send hp]
  rfl

/-! ## The error bits are sticky -/

/-- Every error bit set in `s` is set in `t`. -/
def KeepsErrorBits (s t : State) : Prop :=
  (s.busyerr = true → t.busyerr = true) ∧ (s.illop = true → t.illop = true) ∧
  (s.lenerr = true → t.lenerr = true) ∧ (s.xerr = true → t.xerr = true)

theorem KeepsErrorBits.refl (s : State) : KeepsErrorBits s s := ⟨id, id, id, id⟩

theorem sendStep_keepsErrorBits (j : Nat) (s : State) : KeepsErrorBits s (sendStep j s) := by
  obtain ⟨-, h⟩ | ⟨_, -, ⟨-, h⟩ | ⟨-, -, h⟩ | ⟨-, -, h⟩⟩ := sendStep_cases j s <;>
    simp [KeepsErrorBits, h]

theorem WaitCase.keepsErrorBits {s t : State} (h : WaitCase s t) : KeepsErrorBits s t := by
  cases h with
  | failed _ ht => simp [KeepsErrorBits, ht]
  | timedOut _ _ ht => simp [KeepsErrorBits, ht]
  | noByte _ _ _ ht => exact ht ▸ .refl s
  | byte b rest _ _ _ hc => cases hc <;> simp [KeepsErrorBits]

/-- An operation may set BUSYERR, LENERR or XERR, and clears no error bit. -/
theorem exec_keepsErrorBits {i : Instr} {s t : State} (h : exec i s = .next t) :
    KeepsErrorBits s t := by
  cases exec_next h with
  | blocked _ ht => simp [KeepsErrorBits, ht]
  | lengthRefused _ _ _ _ ht => simp [KeepsErrorBits, ht]
  | accepted _ _ _ _ ht => simp [KeepsErrorBits, ht]
  | sendAccepted _ _ ht => simp [KeepsErrorBits, ht]
  | waitAccepted _ _ _ ht => simp [KeepsErrorBits, ht]
  | ran _ _ _ _ he ht => cases he <;> simp [KeepsErrorBits, ht]
  | sent j _ _ ht => exact ht ▸ sendStep_keepsErrorBits j s
  | waited _ _ _ hw => exact hw.keepsErrorBits

/-- Of the host's writes only that of STATUS clears an error bit (40_host_access.md R156). -/
theorem targetWrite_keepsErrorBits {tg : Target} {w : Word} {s t : State}
    (h : targetWrite tg w s = .next t) :
    KeepsErrorBits s t ∨ tg = .reg .status ∧ t = clearStatus w s := by
  cases targetWrite_next h with
  | command _ _ _ _ hx => exact .inl (exec_keepsErrorBits hx)
  | clear htg ht => exact .inr ⟨htg, ht⟩
  | illegal _ _ ht => simp [KeepsErrorBits, ht]
  | blocked _ ht => simp [KeepsErrorBits, ht]
  | arg _ _ ht => simp [KeepsErrorBits, ht]
  | len _ _ ht => simp [KeepsErrorBits, ht]
  | deadline _ _ ht => simp [KeepsErrorBits, ht]
  | cell _ _ _ ht => simp [KeepsErrorBits, ht]
  | ignored ht => exact .inl (ht ▸ .refl s)

theorem pollStep_keepsErrorBits (p : List HostOp) (s : State) :
    KeepsErrorBits s (pollStep p s) := by
  obtain h | h := pollStep_cases p s <;> simp [KeepsErrorBits, h]

theorem hostStep_keepsErrorBits {s t : State} (h : hostStep s = .next t) :
    KeepsErrorBits s t ∨ ∃ off w p, s.program = .write off w :: p ∧
      target off = .reg .status ∧ t = clearStatus w { s with program := p } := by
  obtain ⟨-, rfl⟩ | ⟨_, _, -, rfl⟩ | ⟨off, w, p, hp, hw⟩ | ⟨p, -, rfl⟩ := hostStep_next h
  · exact .inl (.refl _)
  · exact .inl (.refl s)
  · exact (targetWrite_keepsErrorBits hw).imp_right fun ⟨htg, ht⟩ => ⟨off, w, p, hp, htg, ht⟩
  · exact .inl (pollStep_keepsErrorBits p s)

theorem sequencerStep_keepsErrorBits {s t : State} (h : sequencerStep s = .next t) :
    KeepsErrorBits s t := by
  obtain ⟨-, rfl⟩ | ⟨_, -, hx⟩ := sequencerStep_next h
  · exact .refl _
  · exact exec_keepsErrorBits hx

theorem transportStep_keepsErrorBits (ts : TransportStep) (s : State) :
    KeepsErrorBits s (transportStep ts s) := by
  cases ts <;> exact .refl s

/-- With `rst` 0 and not driven to 1, only the Host's STATUS write clears an error bit. -/
theorem stepRunning_keepsErrorBits {a : AgentStep} {s t : State} (h : stepRunning a s = .next t)
    (ha : a ≠ .reset true) :
    KeepsErrorBits s t ∨ ∃ off w p, a = .host ∧ s.program = .write off w :: p ∧
      target off = .reg .status ∧ t = clearStatus w { s with program := p } := by
  cases a with
  | host =>
    exact (hostStep_keepsErrorBits h).imp_right fun ⟨off, w, p, hw⟩ => ⟨off, w, p, rfl, hw⟩
  | sequencer => exact .inl (sequencerStep_keepsErrorBits h)
  | transport ts => cases h; exact .inl (transportStep_keepsErrorBits ts s)
  | time => cases h; simp [KeepsErrorBits]
  | reset level =>
    cases level with
    | false => cases h; exact .inl (.refl s)
    | true => exact absurd rfl ha

/-- A STATUS write keeps the error bits that it is not written with 1 to. -/
theorem clearStatus_keepsUnwrittenBits (w : Word) (s : State) :
    (s.busyerr = true → w.getLsbD 9 = false → (clearStatus w s).busyerr = true) ∧
    (s.illop = true → w.getLsbD 10 = false → (clearStatus w s).illop = true) ∧
    (s.lenerr = true → w.getLsbD 11 = false → (clearStatus w s).lenerr = true) ∧
    (s.xerr = true → w.getLsbD 12 = false → (clearStatus w s).xerr = true) := by
  simp +contextual

/-! ## No operation reads them -/

/-- `s` with its four error bits 0. Two states agree but for these bits if they are equal once
cleared. -/
def clearErrorBits (s : State) : State :=
  { s with illop := false, lenerr := false, busyerr := false, xerr := false }

section
variable (s : State)

@[simp] theorem clearErrorBits_len : (clearErrorBits s).len = s.len := rfl
@[simp] theorem clearErrorBits_deadline : (clearErrorBits s).deadline = s.deadline := rfl
@[simp] theorem clearErrorBits_frame : (clearErrorBits s).frame = s.frame := rfl
@[simp] theorem clearErrorBits_diag : (clearErrorBits s).diag = s.diag := rfl
@[simp] theorem clearErrorBits_elapsed : (clearErrorBits s).elapsed = s.elapsed := rfl
@[simp] theorem clearErrorBits_ibuf : (clearErrorBits s).ibuf = s.ibuf := rfl
@[simp] theorem clearErrorBits_phase : (clearErrorBits s).phase = s.phase := rfl
@[simp] theorem clearErrorBits_diagCap : (clearErrorBits s).diagCap = s.diagCap := rfl
@[simp] theorem clearErrorBits_rxq : (clearErrorBits s).rxq = s.rxq := rfl
@[simp] theorem clearErrorBits_txReady : (clearErrorBits s).txReady = s.txReady := rfl
@[simp] theorem clearErrorBits_xerrIn : (clearErrorBits s).xerrIn = s.xerrIn := rfl

end

/-- The update `f` does the same, but for the error bits, whatever they are. -/
def IgnoresErrorBits (f : State → State) : Prop :=
  ∀ s, clearErrorBits (f (clearErrorBits s)) = clearErrorBits (f s)

/-- `g` answers the same, but for the error bits, whatever they are. -/
def NeverReadsErrorBits (g : State → Result) : Prop :=
  ∀ s, mapNext clearErrorBits (g (clearErrorBits s)) = mapNext clearErrorBits (g s)

theorem IgnoresErrorBits.next {f : State → State} (hf : IgnoresErrorBits f) :
    NeverReadsErrorBits fun s => .next (f s) :=
  fun s => congrArg Host.Outcome.next (hf s)

theorem acceptInput_ignoresErrorBits (op : ExecOp) : IgnoresErrorBits (acceptInput op) := by
  intro s
  unfold acceptInput
  rw [clearErrorBits_len]
  split <;> rfl

theorem acceptPayload_ignoresErrorBits (op : ExecOp) : IgnoresErrorBits (acceptPayload op) := by
  intro s
  unfold acceptPayload
  rw [clearErrorBits_len]
  split <;> rfl

theorem checkVerdict_ignoresErrorBits (got c : Byte) : IgnoresErrorBits (checkVerdict got c) := by
  intro s
  unfold checkVerdict
  split <;> rfl

theorem checkAddrVerdict_ignoresErrorBits (bs : List Byte) (got : Byte) :
    IgnoresErrorBits (checkAddrVerdict bs got) := by
  intro s
  unfold checkAddrVerdict
  split <;> rfl

theorem cmdVerdict_ignoresErrorBits (f : List Byte) : IgnoresErrorBits (cmdVerdict f) := by
  intro s
  unfold cmdVerdict
  split
  · exact checkVerdict_ignoresErrorBits _ _ (setCsum _ s)
  · rfl

theorem addrVerdict_ignoresErrorBits (f : List Byte) : IgnoresErrorBits (addrVerdict f) := by
  intro s
  unfold addrVerdict
  split
  · exact checkAddrVerdict_ignoresErrorBits _ _ (setCsum _ s)
  · rfl

theorem dataVerdict_ignoresErrorBits (f : List Byte) : IgnoresErrorBits (dataVerdict f) := by
  intro s
  unfold dataVerdict
  split
  · rfl
  · split
    · rfl
    · exact checkVerdict_ignoresErrorBits _ _ (setCsum _ s)

theorem xportFail_ignoresErrorBits : IgnoresErrorBits xportFail := by
  intro s
  unfold xportFail
  rw [clearErrorBits_phase]
  split <;> rfl

theorem sendStep_ignoresErrorBits (j : Nat) : IgnoresErrorBits (sendStep j) := by
  intro s
  unfold sendStep
  rw [clearErrorBits_frame, clearErrorBits_xerrIn, clearErrorBits_txReady]
  split
  · rfl
  · split
    · exact xportFail_ignoresErrorBits s
    · split <;> rfl

theorem append_ignoresErrorBits (b : Byte) : IgnoresErrorBits (append b) := by
  intro s
  unfold append
  rw [clearErrorBits_diag, clearErrorBits_diagCap]
  split <;> rfl

theorem finish_ignoresErrorBits {f : State → State} (hf : IgnoresErrorBits f) (r : AckRes) :
    IgnoresErrorBits fun s => finish r (f s) :=
  fun s => congrArg (finish r) (hf s)

theorem classify_ignoresErrorBits (m : WaitMode) (b : Byte) : IgnoresErrorBits (m.classify b) := by
  intro s
  cases m with
  | normal =>
    simp only [WaitMode.classify, classifyNormal]
    split
    · rfl
    · split
      · rfl
      · exact append_ignoresErrorBits b s
  | first =>
    simp only [WaitMode.classify, classifyFirst]
    split
    · rfl
    · exact finish_ignoresErrorBits (append_ignoresErrorBits b) .nacked s

theorem waitStep_ignoresErrorBits (m : WaitMode) : IgnoresErrorBits (waitStep m.classify) := by
  intro s
  unfold waitStep deadlineOperand
  rw [clearErrorBits_xerrIn, clearErrorBits_elapsed, clearErrorBits_deadline, clearErrorBits_rxq]
  split
  · exact xportFail_ignoresErrorBits s
  · split
    · rfl
    · split
      · exact classify_ignoresErrorBits m _ (consume _ s)
      · rfl

/-- A one-step operation reads no error bit if neither its acceptance nor its Exec step does. -/
theorem oneStep_neverReadsErrorBits {op : ExecOp} {accept : State → State}
    {effect : State → Result} (ha : IgnoresErrorBits accept) (he : NeverReadsErrorBits effect) :
    NeverReadsErrorBits (oneStep op accept effect) := by
  intro s
  unfold oneStep
  rw [clearErrorBits_phase]
  split
  · exact ha.next s
  · split
    · exact he s
    · rfl
  · rfl
  · rfl

/-- An Exec step on `IBUF[0..LEN]` reads no error bit if what it does with the bytes does not. -/
theorem withInput_neverReadsErrorBits {f : List Byte → State → State}
    (hf : ∀ bs, IgnoresErrorBits (f bs)) :
    NeverReadsErrorBits fun s =>
      withInput s 0 (countOperand s) fun bs => .next (complete (f bs s)) := by
  intro s
  simp only [withInput, countOperand, clearErrorBits_ibuf, clearErrorBits_len]
  split
  · rename_i bs _
    have hc : IgnoresErrorBits fun s => complete (f bs s) := fun s => congrArg complete (hf bs s)
    exact hc.next s
  · rfl

theorem execSend_neverReadsErrorBits : NeverReadsErrorBits execSend := by
  intro s
  unfold execSend
  rw [clearErrorBits_phase]
  split
  · rfl
  · rfl
  · exact (sendStep_ignoresErrorBits _).next s
  · rfl

theorem execAckWait_neverReadsErrorBits : NeverReadsErrorBits execAckWait := by
  intro s
  unfold execAckWait
  rw [clearErrorBits_phase]
  split
  · rfl
  · rfl
  · rfl
  · exact (waitStep_ignoresErrorBits .normal).next s
  · rfl

theorem execAckWaitFirst_neverReadsErrorBits : NeverReadsErrorBits execAckWaitFirst := by
  intro s
  unfold execAckWaitFirst
  rw [clearErrorBits_phase]
  split
  · rfl
  · rfl
  · rfl
  · rfl
  · exact (waitStep_ignoresErrorBits .first).next s

theorem exec_neverReadsErrorBits (i : Instr) : NeverReadsErrorBits (exec i) := by
  cases i with
  | nop =>
    exact oneStep_neverReadsErrorBits (effect := fun s => .next (complete s)) (fun _ => rfl)
      fun _ => rfl
  | cksum =>
    exact oneStep_neverReadsErrorBits (acceptInput_ignoresErrorBits _)
      (withInput_neverReadsErrorBits fun _ _ => rfl)
  | buildCmd => exact oneStep_neverReadsErrorBits (fun _ => rfl) fun _ => rfl
  | buildAddr => exact oneStep_neverReadsErrorBits (fun _ => rfl) fun _ => rfl
  | buildData =>
    exact oneStep_neverReadsErrorBits (acceptPayload_ignoresErrorBits _)
      (withInput_neverReadsErrorBits fun _ _ => rfl)
  | buildSync => exact oneStep_neverReadsErrorBits (fun _ => rfl) fun _ => rfl
  | send => exact execSend_neverReadsErrorBits
  | ackWait => exact execAckWait_neverReadsErrorBits
  | ackWaitFirst => exact execAckWaitFirst_neverReadsErrorBits
  | validateCmd =>
    exact oneStep_neverReadsErrorBits (acceptInput_ignoresErrorBits _)
      (withInput_neverReadsErrorBits cmdVerdict_ignoresErrorBits)
  | validateAddr =>
    exact oneStep_neverReadsErrorBits (acceptInput_ignoresErrorBits _)
      (withInput_neverReadsErrorBits addrVerdict_ignoresErrorBits)
  | validateData =>
    exact oneStep_neverReadsErrorBits (acceptInput_ignoresErrorBits _)
      (withInput_neverReadsErrorBits dataVerdict_ignoresErrorBits)

theorem mapNext_eq_next {f : State → State} {r : Result} {t : State} (h : mapNext f r = .next t) :
    ∃ u, r = .next u ∧ f u = t := by
  cases r with
  | next u => cases h; exact ⟨u, rfl, rfl⟩
  | fault _ => cases h
  | refused _ => cases h

/-- From two states that agree but for the error bits, an operation answers two such states. -/
theorem exec_next_of_clearErrorBits_eq {i : Instr} {s s' t : State} (h : exec i s = .next t)
    (hs : clearErrorBits s' = clearErrorBits s) :
    ∃ u, exec i s' = .next u ∧ clearErrorBits u = clearErrorBits t := by
  apply mapNext_eq_next
  calc mapNext clearErrorBits (exec i s')
      = mapNext clearErrorBits (exec i (clearErrorBits s)) :=
        hs ▸ (exec_neverReadsErrorBits i s').symm
    _ = mapNext clearErrorBits (exec i s) := exec_neverReadsErrorBits i s
    _ = .next (clearErrorBits t) := congrArg (mapNext clearErrorBits) h

/-- A state is found again from its error bits and the rest of it. -/
theorem setErrorBits_of_clearErrorBits_eq {u t : State} (h : clearErrorBits u = clearErrorBits t) :
    { u with illop := t.illop, lenerr := t.lenerr, busyerr := t.busyerr, xerr := t.xerr } = t :=
  congrArg (fun v : State =>
    { v with illop := t.illop, lenerr := t.lenerr, busyerr := t.busyerr, xerr := t.xerr }) h

/-! ## Acceptance -/

/-- An operation accepted in Idle clears DONE, the one W1C bit that acceptance clears. -/
theorem accepted_status {i : Instr} {s t : State} (hp : s.phase = .idle)
    (h : exec i s = .next t) (ht : t.phase ≠ .idle) :
    t.done = false ∧ t.illop = s.illop ∧ t.lenerr = s.lenerr ∧ t.busyerr = s.busyerr ∧
      t.xerr = s.xerr := by
  cases exec_next h with
  | blocked hb => exact absurd hp hb
  | lengthRefused _ _ _ _ he => exact absurd (by simp [he, hp]) ht
  | accepted _ _ _ _ he => simp [he]
  | sendAccepted _ _ he => simp [he]
  | waitAccepted _ _ _ he => simp [he]
  | ran _ _ _ hx | sent _ _ hx | waited _ _ hx => simp [hp] at hx

/-! ## The obligation -/

/-- Settles O52: of the steps with `rst` 0 only the STATUS write clears an error bit; an operation
answers the same from states that agree but for these bits; and its acceptance clears DONE alone. -/
theorem errorBitsAreStickyAndNeverRead : Obligations.ErrorBitsAreStickyAndNeverRead := by
  refine ⟨fun s t h hr hreset => ?_, fun i s t a b c d h => ?_,
    fun i s t hp h ht => accepted_status hp h ht⟩
  · obtain ⟨-, rfl⟩ | ⟨a, rest, hs, -⟩ := step_next h
    · exact ⟨fun hb _ => hb, fun hb _ => hb, fun hb _ => hb, fun hb _ => hb⟩
    rw [step_running hr hs] at h
    obtain ⟨hbusy, hill, hlen, hx⟩ | ⟨off, w, p, rfl, hp, htg, rfl⟩ :=
      stepRunning_keepsErrorBits h fun ha => hreset rest (ha ▸ hs)
    · exact ⟨fun hb _ => hbusy hb, fun hb _ => hill hb, fun hb _ => hlen hb, fun hb _ => hx hb⟩
    have hbit {k : Nat} (hk : ¬ ClearsStatusBit s k) : w.getLsbD k = false :=
      Bool.eq_false_iff.mpr fun hw => hk ⟨rest, off, w, p, hs, hp, htg, hw⟩
    obtain ⟨hbusy, hill, hlen, hx⟩ :=
      clearStatus_keepsUnwrittenBits w { s with schedule := rest, program := p }
    exact ⟨fun hb hk => hbusy hb (hbit hk), fun hb hk => hill hb (hbit hk),
      fun hb hk => hlen hb (hbit hk), fun hb hk => hx hb (hbit hk)⟩
  · obtain ⟨u, hu, hut⟩ := exec_next_of_clearErrorBits_eq
      (s' := { s with illop := a, lenerr := b, busyerr := c, xerr := d }) h rfl
    exact ⟨u, hu, setErrorBits_of_clearErrorBits_eq hut⟩

end Sys2Proof.Machine

/-! PROOF. Reset (70_reset_and_hazards.md R370): every step in which `rst` is 1, or is driven to 1,
leaves the block at its reset values, the streams stay, and the host reads those values. -/

namespace Sys2Proof.Machine

/-! ## The block at its reset values -/

/-- Whatever the host, the schedule and the transport do leaves the block at its reset values. -/
theorem BlockAtReset.environment {s : State} (h : BlockAtReset s) (rst : Bool) (rxq : List Byte)
    (txReady : Bool) (txlog : List Byte) (xerrIn : Bool) (busRdata : Word) (program : List HostOp)
    (schedule : List AgentStep) (freeReads : Nat) :
    BlockAtReset { s with
      rst := rst, rxq := rxq, txReady := txReady, txlog := txlog, xerrIn := xerrIn
      busRdata := busRdata, program := program, schedule := schedule, freeReads := freeReads } :=
  { h with }

theorem hostStepInReset_atReset {s : State} (h : BlockAtReset s) :
    BlockAtReset (hostStepInReset s) := by
  unfold hostStepInReset
  split
  · exact h
  · exact h.environment ..
  · exact h.environment ..
  · obtain ht | ht := pollStep_cases _ s <;> rw [ht] <;> exact h.environment ..

theorem stepInReset_atReset (a : AgentStep) (s : State) : BlockAtReset (stepInReset a s) := by
  have hb : BlockAtReset (resetBlock s) := resetBlock_atReset s
  cases a with
  | host => exact hostStepInReset_atReset hb
  | sequencer => exact hb
  | transport ts => cases ts <;> exact hb.environment ..
  | time => exact hb
  | reset level => exact hb.environment ..

/-! ## What the host reads -/

theorem BlockAtReset.statusWord_eq_zero {s : State} (h : BlockAtReset s) : statusWord s = 0 := by
  simp [statusWord, busy, flagWord, AckRes.code, Verr.code, h.dovf, h.xerr, h.lenerr, h.illop,
    h.busyerr, h.done, h.verr, h.valid, h.ackres, h.phase]

/-- At reset every register but CONFIG reads 0. -/
theorem BlockAtReset.regValue_eq {s : State} (h : BlockAtReset s) (r : Reg) :
    regValue s r = if r = .config then fieldWord 11 s.diagCap else 0 := by
  cases r with
  | cmd | config => rfl
  | status => exact h.statusWord_eq_zero
  | arg => exact h.arg
  | vaddr => exact h.vaddr
  | len => rw [regValue, h.len]; rfl
  | deadline => rw [regValue, h.deadline]; rfl
  | csum => rw [regValue, h.csum]; rfl
  | frameLen => rw [regValue, h.frame]; rfl
  | txCount => rw [regValue, h.txCount]; rfl
  | diagLen => rw [regValue, h.diag]; rfl
  | pdiagLen => rw [regValue, h.pdiag]; rfl
  | diagDrop => rw [regValue, h.diagDrop]; rfl
  | elapsed => rw [regValue, h.elapsed]; rfl

/-- At reset every target but CONFIG and the cells of IBUF reads 0. -/
theorem BlockAtReset.targetValue_eq {s : State} (h : BlockAtReset s) {tg : Target}
    (ht : ∀ i, tg ≠ .ibuf i) :
    targetValue s tg = if tg = .reg .config then fieldWord 11 s.diagCap else 0 := by
  cases tg with
  | reg r => simpa [targetValue] using h.regValue_eq r
  | ibuf i => exact absurd rfl (ht i)
  | frame i => rw [targetValue, h.frame]; rfl
  | diag i => rw [targetValue, h.diag]; rfl
  | pdiag i => rw [targetValue, h.pdiag]; rfl
  | unmapped => rfl

theorem hostStepInReset_read {s : State} {off : Offset} {p : List HostOp}
    (hp : s.program = .read off :: p) :
    hostStepInReset s = hostRead off { s with program := p } := by
  simp [hostStepInReset, hp]

/-- A read while `rst` is 1 returns the reset value (R370), but for an IBUF cell (R371). -/
theorem hostStepInReset_busRdata {s : State} {off : Offset} {p : List HostOp}
    (h : BlockAtReset s) (hp : s.program = .read off :: p) (ht : ∀ i, target off ≠ .ibuf i) :
    (hostStepInReset s).busRdata =
      if target off = .reg .config then fieldWord 11 s.diagCap else 0 := by
  have hb : BlockAtReset { s with program := p } := h.environment ..
  rw [hostStepInReset_read hp]
  exact hb.targetValue_eq ht

/-! ## The steps -/

/-- Driving `rst` to 1 resets the block, whatever the level was. -/
theorem agentStep_reset_true (s : State) :
    agentStep (.reset true) s = .next { resetBlock s with rst := true } := by
  unfold agentStep
  split <;> rfl

theorem step_inReset {s : State} {a : AgentStep} {rest : List AgentStep} (hr : s.rst = true)
    (hs : s.schedule = a :: rest) :
    step s = .next (stepInReset a { s with schedule := rest }) := by
  rw [step_cons hs]
  simp [agentStep, hr]

/-! ## The obligations -/

/-- Settles O1: a reset of the reset state changes nothing. -/
theorem resetStateHasTheRecordsResetValues : Obligations.ResetStateHasTheRecordsResetValues :=
  resetBlock_atReset State.reset

/-- Settles O2: each of these steps starts from the reset block; only a delivery moves a stream, and
the host reads the reset block through the target of its offset. -/
theorem resetStepRestoresTheBlockAndKeepsTheStreams :
    Obligations.ResetStepRestoresTheBlockAndKeepsTheStreams := by
  refine ⟨fun s rest hs => ?_, fun s a rest hr hs => ?_, fun s off p rest hr hs hprog ht => ?_⟩
  · exact ⟨_, (step_cons hs).trans (agentStep_reset_true _),
      (resetBlock_atReset { s with schedule := rest }).environment .., rfl, rfl, rfl⟩
  · obtain ⟨htx, hrx⟩ := stepInReset_streams a { s with schedule := rest }
    exact ⟨_, step_inReset hr hs, stepInReset_atReset a _, htx,
      fun hd => hrx.resolve_right fun ⟨b, ha, _⟩ => hd b ha⟩
  · exact ⟨_, step_inReset hr hs,
      hostStepInReset_busRdata (resetBlock_atReset { s with schedule := rest }) hprog ht⟩

end Sys2Proof.Machine

/-! PROOF. Hazards (70_reset_and_hazards.md R372, R377): what every operation leaves alone outside
its results, which steps end a running operation, and that a written input never stops one. -/

namespace Sys2Proof.Machine

/-! ## IBUF and the environment -/

/-- `t` has the IBUF of `s`, the levels of its inputs, its host and bus, its schedule and its
counter of free reads. -/
def SameEnvironment (s t : State) : Prop :=
  t.ibuf = s.ibuf ∧ t.rst = s.rst ∧ t.txReady = s.txReady ∧ t.xerrIn = s.xerrIn ∧
  t.busRdata = s.busRdata ∧ t.program = s.program ∧ t.schedule = s.schedule ∧
  t.freeReads = s.freeReads

theorem sendStep_sameEnvironment (j : Nat) (s : State) : SameEnvironment s (sendStep j s) := by
  obtain ⟨-, h⟩ | ⟨_, -, ⟨-, h⟩ | ⟨-, -, h⟩ | ⟨-, -, h⟩⟩ := sendStep_cases j s <;>
    simp [SameEnvironment, h]

theorem WaitCase.sameEnvironment {s t : State} (h : WaitCase s t) : SameEnvironment s t := by
  cases h with
  | failed _ ht => simp [SameEnvironment, ht]
  | timedOut _ _ ht => simp [SameEnvironment, ht]
  | noByte _ _ _ ht => simp [SameEnvironment, ht]
  | byte b rest _ _ _ hc => cases hc <;> simp [SameEnvironment]

theorem exec_sameEnvironment {i : Instr} {s t : State} (h : exec i s = .next t) :
    SameEnvironment s t := by
  cases exec_next h with
  | blocked _ ht => simp [SameEnvironment, ht]
  | lengthRefused _ _ _ _ ht => simp [SameEnvironment, ht]
  | accepted _ _ _ _ ht => simp [SameEnvironment, ht]
  | sendAccepted _ _ ht => simp [SameEnvironment, ht]
  | waitAccepted _ _ _ ht => simp [SameEnvironment, ht]
  | ran _ _ _ _ he ht => cases he <;> simp [SameEnvironment, ht]
  | sent j _ _ ht => exact ht ▸ sendStep_sameEnvironment j s
  | waited _ _ _ hw => exact hw.sameEnvironment

/-- Settles O50: each case of an operation keeps the environment, and DIAG_CAP (O7). -/
theorem operationsLeaveInputAndEnvironmentAlone :
    Obligations.OperationsLeaveInputAndEnvironmentAlone := by
  intro i s t h
  obtain ⟨hibuf, hrst, hready, hxerr, hbus, hprog, hsched, hfree⟩ := exec_sameEnvironment h
  exact ⟨fun a => by rw [hibuf], hrst, hready, hxerr, hbus, hprog, hsched, exec_diagCap h, hfree⟩

/-! ## The phase of a running operation -/

/-- While BUSY no host write changes the phase: it clears STATUS bits, is ignored, or is
blocked (40_host_access.md R156 to R158). -/
theorem targetWrite_phase_of_busy {tg : Target} {w : Word} {s t : State} (hp : s.phase ≠ .idle)
    (h : targetWrite tg w s = .next t) : t.phase = s.phase := by
  cases targetWrite_next h with
  | blocked _ ht => simp [ht]
  | clear _ ht => simp [ht]
  | ignored ht => simp [ht]
  | command _ _ hi | illegal _ hi | arg _ hi | len _ hi | deadline _ hi | cell _ _ hi =>
    exact absurd hi hp

@[simp] theorem pollStep_phase (p : List HostOp) (s : State) :
    (pollStep p s).phase = s.phase := by
  obtain h | h := pollStep_cases p s <;> simp [h]

theorem hostStep_phase_of_busy {s t : State} (hp : s.phase ≠ .idle) (h : hostStep s = .next t) :
    t.phase = s.phase := by
  obtain ⟨-, rfl⟩ | ⟨_, _, -, rfl⟩ | ⟨_, _, p, -, hw⟩ | ⟨p, -, rfl⟩ := hostStep_next h
  · rfl
  · rfl
  · exact targetWrite_phase_of_busy (s := { s with program := p }) hp hw
  · exact pollStep_phase p s

@[simp] theorem transportStep_phase (ts : TransportStep) (s : State) :
    (transportStep ts s).phase = s.phase := by
  cases ts <;> rfl

/-- With `rst` 0, of the agents only the Sequencer and a reset change the phase while BUSY. -/
theorem stepRunning_phase_of_busy {a : AgentStep} {s t : State} (hp : s.phase ≠ .idle)
    (hseq : a ≠ .sequencer) (hreset : a ≠ .reset true) (h : stepRunning a s = .next t) :
    t.phase = s.phase := by
  cases a with
  | host => exact hostStep_phase_of_busy hp h
  | sequencer => exact absurd rfl hseq
  | transport ts => cases h; exact transportStep_phase ts s
  | time => cases h; exact tick_phase s
  | reset level =>
    cases level with
    | false => cases h; rfl
    | true => exact absurd rfl hreset

/-- Settles O57: the schedule is empty, or its first agent is one that keeps the phase. -/
theorem onlyTheSequencerOrResetEndsAnOperation :
    Obligations.OnlyTheSequencerOrResetEndsAnOperation := by
  intro s t h hp hr hseq hreset
  obtain ⟨-, rfl⟩ | ⟨a, rest, hs, -⟩ := step_next h
  · rfl
  · rw [step_running hr hs] at h
    exact stepRunning_phase_of_busy (s := { s with schedule := rest }) hp
      (fun ha => hseq rest (ha ▸ hs)) (fun ha => hreset rest (ha ▸ hs)) h

/-! ## Written input -/

/-- An operation whose input is written cannot stop at an unwritten cell of it. -/
theorem ExecAnswer.exists_next {s : State} {r : Result} (h : ExecAnswer s r)
    (hw : InputWritten s) : ∃ t, r = .next t := by
  cases h with
  | next t => exact ⟨t, rfl⟩
  | unwritten k hk hread =>
    have hsome := hw k hk
    rw [hread] at hsome
    cases hsome

/-- Settles O59: an operation answers a next state, or stops at an unwritten cell (O58). -/
theorem everyOperationRunsOnWrittenInput : Obligations.EveryOperationRunsOnWrittenInput :=
  fun i s => (execAnswer_exec i s).exists_next

end Sys2Proof.Machine
